-- ==== Sys2Proof/Word.lean ====
section
/-!
DEFINITION. The plainest types of the machine: a Word (one 8-bit character), the 6-bit code of a
character, and an Address (three Words).
Rules: R6, R8, R25, R80 (00_scope.md, 10_state.md, 30_encoding.md).
-/
namespace Sys2Proof

/-- One character of storage and of every character register: bit 7 word-mark, bit 6 check bit,
bits 5 and 4 zone, bits 3 to 0 digit (R6, R80). -/
abbrev Word := BitVec 8

/-- The zone and digit bits of a Word: the value the character table maps (R80). -/
abbrev Code := BitVec 6

/-- An Address: an ordered triple of Words, element 0 most significant (R25). The elements are held
exactly as written, control bits included (D38). -/
structure Address where
  e0 : Word
  e1 : Word
  e2 : Word
deriving DecidableEq, Repr, Inhabited

/-- The blank with check bit set: what storage holds at reset and what a destructive read leaves
behind (R50, R51). -/
def blank : Word := 0x40#8

end Sys2Proof
end

