-- ==== Sys2Proof/Config.lean ====
section
/-!
DEFINITION. The configuration of one machine (R7, R9, R10) and the spec's OPEN parameters, which are
constants without a body: nothing can be proved of their values, so a claim holds for every value.
-/
namespace Sys2Proof

/-- The six storage capacities (R7). -/
inductive StorageSize where
  | n1400
  | n2000
  | n4000
  | n8000
  | n12000
  | n16000
deriving DecidableEq, Repr

/-- `N_STORAGE`, the number of storage positions (R7). -/
def StorageSize.positions : StorageSize → Nat
  | .n1400 => 1400
  | .n2000 => 2000
  | .n4000 => 4000
  | .n8000 => 8000
  | .n12000 => 12000
  | .n16000 => 16000

/-- The configuration parameters that have a default: `N_STORAGE` (R7), `ENCODING_TABLE` as the list of
its entries (R9, R86), and the print band `PRINT_START`, `PRINT_LEN` (R10, R212). Fixed for a machine:
no step, load or reset changes it (R272). -/
structure Config where
  size : StorageSize
  table : List (Code × Char)
  printStart : Nat
  printLen : Nat
deriving DecidableEq, Repr

/-- `DV_HIGH` (R85, D4), OPEN: the value of the digit nibbles 11 to 15, a non-negative integer. It is
applied to those nibbles only. A free value, log entry 1. -/
opaque Config.dvHigh : BitVec 4 → Nat

/-- `ADDR_OOR` (R91, D7), OPEN: the Address that encoding an integer outside 0..3999 yields. It is
applied to such integers only. A free value, log entry 2. -/
opaque Config.addrOor : Int → Address

/-- `NO_MIRROR_EXTRA` (R126, D21), OPEN: which of the ten candidate opcodes is the first of the two
unmirrored ones. A free value, log entry 3. -/
opaque Config.noMirrorFirst : Fin 10

/-- `NO_MIRROR_EXTRA` (R126, D21), OPEN: which of the nine candidates left is the second unmirrored
opcode. A free value, log entry 3. -/
opaque Config.noMirrorSecond : Fin 9

end Sys2Proof
end

