-- ==== Sys2Proof/Machine/Chars.lean ====
section
/-!
DEFINITION. The fields, predicates and parity of one Word (R11, R80 to R83).
-/
namespace Sys2Proof

/-- `code6(w) = w[5:0]` (R11). -/
def code6 (w : Word) : Code := w.extractLsb' 0 6

/-- `digit(w) = w[3:0]` (R11). -/
def digit (w : Word) : BitVec 4 := w.extractLsb' 0 4

/-- `zone(w) = w[5:4]` (R11). -/
def zone (w : Word) : BitVec 2 := w.extractLsb' 4 2

/-- `hasWM(w) = w[7]` (R83). -/
def hasWM (w : Word) : Bool := w.getLsbD 7

/-- `isBlank(w)`: the check bit is clear. Not the same as being the blank character (R83, C1). -/
def isBlank (w : Word) : Bool := !w.getLsbD 6

/-- `isNegative(w) = w[5]`: zone bit B (R83). -/
def isNegative (w : Word) : Bool := w.getLsbD 5

/-- `popcount7(w)`: the number of ones in `w[6:0]` (R11). -/
def popcount7 (w : Word) : Nat :=
  ((List.range 7).map fun i => (w.getLsbD i).toNat).sum

/-- `parityCheck(w)`: the seven low bits have odd parity (R82). A view that no rule of the machine
reads (R70). -/
def parityCheck (w : Word) : Bool := popcount7 w % 2 == 1

/-- `oddParity(w)`: flip the check bit if the seven low bits have even parity (R81). -/
def oddParity (w : Word) : Word := if parityCheck w then w else w ^^^ 0x40#8

/-- `setWordMark(w) = oddParity(w | 0x80)` (R81). -/
def setWordMark (w : Word) : Word := oddParity (w ||| 0x80#8)

/-- `setCheckBit(w) = oddParity(w | 0x40)`, taken literally (R82). -/
def setCheckBit (w : Word) : Word := oddParity (w ||| 0x40#8)

/-- The word-mark cleared, the check bit untouched (R58). -/
def clearWordMark (w : Word) : Word := w &&& 0x7F#8

/-- The check bit cleared, the word-mark kept: what LOAD writes (R167). -/
def stripCheck (w : Word) : Word := w &&& 0xBF#8

/-- Word-mark and check bit cleared: what the I-register holds (R23). -/
def stripControl (w : Word) : Word := w &&& 0x3F#8

/-- The character of a code as storage holds it: the code with the check bit that gives odd parity
(R86). -/
def charWord (c : Code) : Word := oddParity (c.setWidth 8)

end Sys2Proof
end

