-- ==== Sys2Proof/Syntax.lean ====
section
/-!
DEFINITION. The instruction set: one constructor per row of the opcode table (R97), and the text of an
instruction as it stands in storage (R94).
-/
namespace Sys2Proof

/-- The thirteen opcodes of R97. An opcode has no operand of its own: when the E-phase dispatches on the
I-register (R135) the operand characters are already in the address registers `addrA` and `addrB`
(R96), so a constructor carries nothing. The characters that follow an opcode in storage are the
`operands` of a `Text`. -/
inductive Instr where
  /-- SET WORD MARK (R190). -/
  | swm
  /-- CLEAR WORD MARK (R191). -/
  | cwm
  /-- CLEAR STORAGE (R192). -/
  | cs
  /-- MOVE (R161). -/
  | move
  /-- MOVE DIGIT (R163). -/
  | md
  /-- MOVE ZONE (R165). -/
  | mz
  /-- LOAD (R167). -/
  | load
  /-- HALT (R210). -/
  | halt
  /-- NO-OP (R211). -/
  | nop
  /-- PRINT (R212). -/
  | print
  /-- READ-CARD (R213). -/
  | read
  /-- COMPARE (R214). -/
  | cmp
  /-- BRANCH (R215). -/
  | br
deriving DecidableEq, Repr

/-- Every opcode once, in the order of the opcode table. -/
def Instr.all : List Instr :=
  [.swm, .cwm, .cs, .move, .md, .mz, .load, .halt, .nop, .print, .read, .cmp, .br]

/-- The text of one instruction in storage: its opcode and the operand characters that follow it, most
significant first, up to but excluding the next word-marked character (R94, R95). -/
structure Text where
  op : Instr
  operands : List Word
deriving DecidableEq, Repr

end Sys2Proof
end

