-- ==== Sys2Proof/WellFormed.lean ====
section
/-!
DEFINITION. Which instruction texts stand in storage as one instruction that the fetch ends without the
cycle-8 stop (R94, R95, R127).
-/
namespace Sys2Proof

/-- At most six operand characters follow the opcode: an eighth character either belongs to the next
instruction (SWM, CS) or runs into cycle 8 (R95, R133). -/
def Text.lengthOk (t : Text) : Bool := t.operands.length ≤ 6

/-- No operand character carries a word-mark: the first one that does ends the instruction (R94). -/
def Text.noMark (t : Text) : Bool := t.operands.all fun w => !hasWM w

/-- The first B character of a BRANCH is not `isBlank`: one that is stops the fetch at cycle 4 and begins
the next instruction (R127). -/
def Text.branchOk (t : Text) : Bool :=
  t.op != .br || (t.operands[3]?).all fun w => !isBlank w

/-- A well-formed instruction text. -/
def Text.wellFormed (t : Text) : Bool := t.lengthOk && t.noMark && t.branchOk

end Sys2Proof
end

