-- ==== Sys2Proof/Decode.lean ====
section
/-!
DEFINITION. The default character table (R86), the opcode characters (R97), the decoder of an opcode
character and of an instruction text (R94, R95, R97, R98), and the encoder.
-/
namespace Sys2Proof

/-- R86, no zone and zone A: codes 0x00 to 0x1C. -/
def defaultTableLow : List (Code × Char) :=
  [(0x00, ' '), (0x01, '1'), (0x02, '2'), (0x03, '3'), (0x04, '4'), (0x05, '5'), (0x06, '6'),
   (0x07, '7'), (0x08, '8'), (0x09, '9'), (0x0A, '0'), (0x0B, '#'), (0x0C, '@')] ++
  [(0x11, '/'), (0x12, 'S'), (0x13, 'T'), (0x14, 'U'), (0x15, 'V'), (0x16, 'W'), (0x17, 'X'),
   (0x18, 'Y'), (0x19, 'Z'), (0x1A, '‡'), (0x1B, ','), (0x1C, '%')]

/-- R86, zone B and zone BA: codes 0x20 to 0x3C. -/
def defaultTableHigh : List (Code × Char) :=
  [(0x20, '-'), (0x21, 'J'), (0x22, 'K'), (0x23, 'L'), (0x24, 'M'), (0x25, 'N'), (0x26, 'O'),
   (0x27, 'P'), (0x28, 'Q'), (0x29, 'R'), (0x2A, '!'), (0x2B, '$'), (0x2C, '*')] ++
  [(0x30, '&'), (0x31, 'A'), (0x32, 'B'), (0x33, 'C'), (0x34, 'D'), (0x35, 'E'), (0x36, 'F'),
   (0x37, 'G'), (0x38, 'H'), (0x39, 'I'), (0x3A, '?'), (0x3B, '.'), (0x3C, '⌑')]

/-- The default configuration: 1400 positions (R7), the default `ENCODING_TABLE` (R86), and the print
band of 132 positions from index 200 (R212). Log entries 4, 5, 6. -/
def Config.default : Config where
  size := .n1400
  table := defaultTableLow ++ defaultTableHigh
  printStart := 200
  printLen := 132

/-- The character of each opcode (R97). Log entry 5. -/
def opChar : Instr → Char
  | .swm => ','
  | .cwm => '⌑'
  | .cs => '/'
  | .move => 'M'
  | .md => 'D'
  | .mz => 'Y'
  | .load => 'L'
  | .halt => '.'
  | .nop => 'N'
  | .print => '2'
  | .read => '1'
  | .cmp => 'C'
  | .br => 'B'

/-- The opcode a character stands for, if any (R97). -/
def opOfChar (ch : Char) : Option Instr := Instr.all.find? fun i => opChar i == ch

/-- `char(w)` (R84): the character the table gives `code6(w)`, or none. -/
def charOf (cfg : Config) (w : Word) : Option Char := cfg.table.lookup (code6 w)

/-- The code the table gives a character: the table's reverse lookup (R9). -/
def codeOfChar (cfg : Config) (ch : Char) : Option Code :=
  (cfg.table.find? fun e => e.2 == ch).map (·.1)

/-- `OPC(X)` (R97): the table's code for the opcode's character. -/
def opCode (cfg : Config) (i : Instr) : Option Code := codeOfChar cfg (opChar i)

/-- Why bytes are no instruction. -/
inductive DecodeError where
  /-- The code names no opcode of R97; its E-phase is `Unimplemented` (R98, R216). -/
  | noHandler (op6 : Code)
  /-- There is no opcode character: the list of Words is empty. -/
  | noOpcode
  /-- The list of Words ends before the character that ends the instruction (R94). -/
  | unterminated
  /-- Eight or more characters without a word-mark: the fetch ends in the cycle-8 stop (R95, R133). -/
  | longForm
deriving DecidableEq, Repr

/-- The opcode of one character: `code6` alone decides, word-mark and check bit are ignored (R84, R97). -/
def decode (cfg : Config) (w : Word) : Except DecodeError Instr :=
  match (charOf cfg w).bind opOfChar with
  | some i => .ok i
  | none => .error (.noHandler (code6 w))

/-- `isOpCode(w, X)` (R84), read through the decoder. -/
def isOpCode (cfg : Config) (w : Word) (i : Instr) : Bool :=
  match decode cfg w with
  | .ok j => j == i
  | .error _ => false

/-- SET WORD MARK and CLEAR STORAGE enter the E-phase at cycle 7 whatever character follows (R132). -/
def forcedAtSeven (i : Instr) : Bool := i == .swm || i == .cs

/-- The operand characters after an opcode, and the Words that are left, beginning with the character that
ended the instruction. `k` counts the characters already taken. The four ends are those of the fetch: the
forced end of R132, a word-mark (R94), the `isBlank` stop of BRANCH (R127), the cycle-8 stop (R133). -/
def splitOperands (op : Instr) : Nat → List Word → Except DecodeError (List Word × List Word)
  | k, [] => if k = 6 ∧ forcedAtSeven op = true then .ok ([], []) else .error .unterminated
  | k, w :: ws =>
    if k = 6 ∧ forcedAtSeven op = true then .ok ([], w :: ws)
    else if hasWM w then .ok ([], w :: ws)
    else if op = .br ∧ k = 3 ∧ isBlank w = true then .ok ([], w :: ws)
    else if k = 6 then .error .longForm
    else match splitOperands op (k + 1) ws with
      | .ok (taken, rest) => .ok (w :: taken, rest)
      | .error e => .error e

/-- The instruction text at the head of a list of Words, with the Words that are left. Total; what is no
text of a table row is rejected by name. The opcode character's own word-mark is not tested (R123). -/
def decodeText (cfg : Config) : List Word → Except DecodeError (Text × List Word)
  | [] => .error .noOpcode
  | w :: ws =>
    match decode cfg w with
    | .error e => .error e
    | .ok op =>
      match splitOperands op 0 ws with
      | .ok (operands, rest) => .ok (⟨op, operands⟩, rest)
      | .error e => .error e

/-- The Words of an instruction text: the opcode's character under a word-mark, then the operand characters
as they are (R94, R96). None where the table has no character for the opcode. -/
def encode (cfg : Config) (t : Text) : Option (List Word) :=
  (opCode cfg t.op).map fun c => setWordMark (charWord c) :: t.operands

/-- `ENCODING_TABLE` is injective both ways and has a character for every opcode (R9, R97). -/
abbrev Config.wellFormed (cfg : Config) : Prop :=
  (cfg.table.map (·.1)).Nodup ∧ (cfg.table.map (·.2)).Nodup ∧
    ∀ i ∈ Instr.all, opChar i ∈ cfg.table.map (·.2)

/-- The instruction this decoder reads, under the default configuration, from an instruction whose bits are
`w`: the opcode character is the first and only byte the opcode table numbers. -/
def decodeTableWord (_nbits w : Nat) : Option Instr :=
  match decode Config.default (BitVec.ofNat 8 w) with
  | .ok i => some i
  | .error _ => none

end Sys2Proof
end

