-- ==== Sys2Proof/Machine/State.lean ====
section
/-!
DEFINITION. The state of the machine as plain data, the ways a step can stop, and the state after reset
(10_state.md, 60_exceptions.md).
-/
namespace Sys2Proof.Machine

/-- Storage as the list of the positions that do not hold the blank 0x40; an unlisted position holds 0x40,
the reset content of every position (R50, R59). -/
abbrev Memory := List Host.Cell

/-- The canonical form: addresses strictly rising, and no entry that reads as an unlisted position does. -/
abbrev Memory.wf (m : Memory) : Prop :=
  m.Pairwise (fun a b => a.1 < b.1) ∧ ∀ c ∈ m, c.2 ≠ blank

/-- The two phases of the cycle (R30). -/
inductive Phase where
  | I
  | E
deriving DecidableEq, Repr

/-- The result a step returns on the result port (R240). -/
inductive StepResult where
  /-- Continue: the step completed. -/
  | proceed
  /-- EnterExecution: the fetch saw the end of an instruction; the next step is its E-phase. -/
  | enterExecution
  /-- SystemHalt: a normal request to end the run. -/
  | systemHalt
  /-- NeedCard: a request for the next card. -/
  | needCard
  /-- Unimplemented(op6): no handler for the code (R216). -/
  | unimplemented (op6 : Code)
deriving DecidableEq, Repr

/-- The names a model fault can carry in the `fault` mark (R246). -/
inductive FaultName where
  /-- Raised by I-phase cycle 8 on a word-marked character (R247). -/
  | iPhaseCycle8Stop
deriving DecidableEq, Repr

/-- The state of the machine (10_state.md). -/
structure State where
  /-- Configuration, never changed by a step, a load or a reset (R10, R272). -/
  cfg : Config
  /-- Character registers (R20). -/
  areg : Word
  breg : Word
  ireg : Word
  /-- Needs-check flags of the character registers (R24); read by no rule. -/
  needsCheckA : Bool
  needsCheckB : Bool
  needsCheckI : Bool
  /-- Address registers; `addrI` is the program counter, `addrS` is STAR (R25 to R29). -/
  addrA : Address
  addrB : Address
  addrI : Address
  addrS : Address
  /-- FSM phase and micro-cycle counter (R30). -/
  phase : Phase
  counter : Fin 9
  /-- Deferred-branch flag (R31). -/
  deferred : Bool
  /-- Cycle-eliminate flag (R32); read by no rule. -/
  cycleElim : Bool
  /-- COMPARE latch (R33); read by no rule. -/
  equal : Bool
  /-- E-phase transient latches (R34): no value outside the E-phase. -/
  eBoundary : Option Int
  eFirst : Option Bool
  /-- Storage (R37). -/
  mem : Memory
  /-- The model-fault mark (R246). -/
  fault : Option FaultName
  /-- Result port: the result of the last step, none before the first (R240, R251). -/
  result : Option StepResult
  /-- Print line port: the lines emitted so far, oldest first (R212, R251). -/
  printed : List (List Code)
deriving DecidableEq, Repr

/-- Why a step gives no next state. -/
inductive Fault where
  /-- Raised by I-phase cycle 8 on a word-marked character (R133, R247). `marked` is the state R246 leaves:
  the fault mark set, `addrI` at the word-marked position, that character in `Areg`. Safe: the spec gives
  no next state. -/
  | iPhaseCycle8Stop (marked : State)
  /-- A step of a state whose fault mark is already set: stuck until reset (R120, D45). Safe. -/
  | stuck (name : FaultName)
  /-- The loop of MOVE, LOAD, COMPARE or CLEAR STORAGE never ends, so the step never returns and has no
  result (R137, R248). Safe: no state is given for it. -/
  | hang
deriving DecidableEq, Repr

/-- Why an instruction has no meaning in this model. No instruction is refused. -/
inductive Refusal where
  /-- Reserved for an arm of `exec` that has no meaning yet; there is none. Safe. -/
  | notModelled (mnemonic : String)
deriving DecidableEq, Repr

/-- `addrEnc(0)`: the character '0' three times, the reset value of every address register (R38, R89). -/
def zeroAddress : Address := ⟨0x4A#8, 0x4A#8, 0x4A#8⟩

/-- The state after construction and after reset (R38, R270, R271), for the default configuration. -/
def State.reset : State where
  cfg := Config.default
  areg := blank
  breg := blank
  ireg := blank
  needsCheckA := false
  needsCheckB := false
  needsCheckI := false
  addrA := zeroAddress
  addrB := zeroAddress
  addrI := zeroAddress
  addrS := zeroAddress
  phase := .I
  counter := 0
  deferred := false
  cycleElim := false
  equal := false
  eBoundary := none
  eFirst := none
  mem := []
  fault := none
  result := none
  printed := []

end Sys2Proof.Machine
end

