-- ==== Sys2Proof/Machine/Flags.lean ====
section
/-!
DEFINITION. Every flag computation of the spec: `deferred` (R31), `cycleElim` (R32), `equal` (R33), and
the test HALT makes (R210). There are no arithmetic flags or condition codes (R35).
-/
namespace Sys2Proof.Machine

/-- HALT's "non-decimal" test: the digit nibble of the I-register is above 9 (R210, D15). -/
def nonDecimal (ireg : Word) : Bool := (digit ireg).toNat > 9

/-- `deferred` after a HALT that halts: set when the fetch counter had reached 4, else kept (R210, D15). -/
def deferredAfterHalt (deferred : Bool) (counter : Fin 9) : Bool := deferred || counter.val ≥ 4

/-- `deferred` after the word-mark of cycle 5: set for BRANCH when bit 0 of the A-register is set, else
kept (R130). -/
def deferredAtFive (cfg : Config) (deferred : Bool) (ireg areg : Word) : Bool :=
  deferred || (isOpCode cfg ireg .br && areg.getLsbD 0)

/-- `deferred` after the forced end of cycle 7: set for CLEAR STORAGE, else kept (R132). -/
def deferredAtSeven (cfg : Config) (deferred : Bool) (ireg : Word) : Bool :=
  deferred || isOpCode cfg ireg .cs

/-- `cycleElim` after the word-mark of cycle 4: set for CLEAR STORAGE, else kept (R128). -/
def cycleElimAtFour (cfg : Config) (cycleElim : Bool) (ireg : Word) : Bool :=
  cycleElim || isOpCode cfg ireg .cs

/-- `equal` after one pair of COMPARE: cleared by a mismatch of the codes, else kept (R214). -/
def equalAfterPair (equal : Bool) (a b : Word) : Bool := equal && code6 a == code6 b

end Sys2Proof.Machine
end

