-- ==== Sys2Proof/Machine/Operands.lean ====
section
/-!
DEFINITION. How characters and addresses denote numbers and storage indexes (R84, R85, R88 to R91), how
an operand address is chained, mirrored and filled (R96, R126, R129), and which index an access uses
(R55, R56).
-/
namespace Sys2Proof.Machine

/-- `digitValue(n)` (R85): 1 to 9 are themselves, 0 and the 8-2 punch code 10 are 0, and 11 to 15 are the
free value `DV_HIGH` (D4, log entry 1). -/
def digitValue (n : BitVec 4) : Nat :=
  if n.toNat ≤ 9 then n.toNat else if n = 10#4 then 0 else Config.dvHigh n

/-- `valid(w)` (R84). -/
def valid (cfg : Config) (w : Word) : Bool := (charOf cfg w).isSome

/-- `decoded(w)` (R85): the digit, negative when zone bit B is set; 0 where the table has no character. -/
def decoded (cfg : Config) (w : Word) : Int :=
  if valid cfg w then
    if isNegative w then -(digitValue (digit w) : Int) else digitValue (digit w)
  else 0

/-- The thousands a hundreds character's zone selects: A 1000, B 2000, BA 3000 (R88, D6). -/
def zoneThousands (z : BitVec 2) : Nat := 1000 * z.toNat

/-- `addrInt(a)` (R88): zones of the tens and units characters, word-marks and check bits are ignored. -/
def addrInt (a : Address) : Nat :=
  zoneThousands (zone a.e0) + 100 * digitValue (digit a.e0)
    + 10 * digitValue (digit a.e1) + digitValue (digit a.e2)

/-- `dcode(d)` (R89): the digit 0 is the character '0'. -/
def digitCode (d : Nat) : Code := if d = 0 then 0x0A#6 else BitVec.ofNat 6 d

/-- `addrEnc(v)` for `v` in 0..3999 (R89). -/
def addrEncIn (v : Nat) : Address :=
  let t := v / 1000
  let h := v / 100 % 10
  let d := v / 10 % 10
  let u := v % 10
  ⟨charWord (BitVec.ofNat 6 (16 * t) ||| digitCode h), charWord (digitCode d), charWord (digitCode u)⟩

/-- `addrEnc(v)` (R89); outside 0..3999 the free value `ADDR_OOR(v)` (R91, D7, log entry 2). -/
def addrEnc (v : Int) : Address :=
  match v with
  | .ofNat n => if n ≤ 3999 then addrEncIn n else Config.addrOor v
  | .negSucc _ => Config.addrOor v

/-- `encoded(a) = max(addrInt(a) - 1, 0)` (R90): the index of an E-phase access (R56). -/
def encoded (a : Address) : Nat := addrInt a - 1

/-- `increase(a)` (R91). -/
def increase (a : Address) : Address := addrEnc ((addrInt a : Int) + 1)

/-- `decrease(a)` (R91). -/
def decrease (a : Address) : Address := addrEnc ((addrInt a : Int) - 1)

/-- Element `k` of an Address replaced (R25); an element holds whatever Word is written to it. -/
def setElem (a : Address) (k : Fin 3) (w : Word) : Address :=
  match k with
  | 0 => { a with e0 := w }
  | 1 => { a with e1 := w }
  | 2 => { a with e2 := w }

/-- The three blank characters that cycle 4 puts into `addrB` (R129, D31). -/
def blankAddress : Address := ⟨blank, blank, blank⟩

/-- The ten opcodes R126 allows in `NO_MIRROR_EXTRA`: those of R97 but MOVE, LOAD and CS. -/
def mirrorCandidates : List Instr :=
  [.swm, .cwm, .md, .mz, .halt, .nop, .print, .read, .cmp, .br]

/-- `NO_MIRROR_EXTRA` (R126, D21): two different candidates, chosen by the two free values of log entry 3. -/
def noMirrorExtra : List Instr :=
  let first := mirrorCandidates[Config.noMirrorFirst.val]?
  let others := mirrorCandidates.eraseIdx Config.noMirrorFirst.val
  first.toList ++ (others[Config.noMirrorSecond.val]?).toList

/-- Whether the A characters of a code are also stored into `addrB` (R126): always for CS and for a code
that is no opcode, never for MOVE and LOAD, and for the other ten unless `NO_MIRROR_EXTRA` holds them. -/
def mirrored (cfg : Config) (w : Word) : Bool :=
  match decode cfg w with
  | .error _ => true
  | .ok .cs => true
  | .ok .move => false
  | .ok .load => false
  | .ok i => !noMirrorExtra.contains i

end Sys2Proof.Machine
end

