-- ==== Sys2Proof/Machine/Ops.lean ====
section
/-!
DEFINITION. The named operations over storage and registers that every meaning is made of: the storage
primitives (R51 to R58), the register writes (R20, R24, R25), the latching of STAR (R29), the A-cycle
(R160), the moves of the FSM (R121, R122, R125, R136), and the loop of an E-phase handler (R137). The
machine has no trap, exception or interrupt, hence no entry to one and no return from one (R250).
-/
namespace Sys2Proof.Machine

/-! Storage as a list of positions. -/

/-- The content of a position; an unlisted one holds the blank (R50). -/
def Memory.get : Memory → Nat → Word
  | [], _ => blank
  | (a, w) :: m, i => if a = i then w else Memory.get m i

/-- A position's content replaced. Writing the blank removes the entry, so the form stays canonical. -/
def Memory.set : Memory → Nat → Word → Memory
  | [], i, v => if v = blank then [] else [(i, v)]
  | (a, w) :: m, i, v =>
    if i < a then if v = blank then (a, w) :: m else (i, v) :: (a, w) :: m
    else if i = a then if v = blank then m else (i, v) :: m
    else (a, w) :: Memory.set m i v

/-- The non-destructive read of R53; out of bounds (index `n` or above) it is 0x00 (R52). -/
def Memory.peek (n : Nat) (m : Memory) (i : Nat) : Word :=
  if i < n then Memory.get m i else 0x00#8

/-- What a destructive read leaves: the blank at the position (R51); nothing out of bounds (R52). -/
def Memory.erase (n : Nat) (m : Memory) (i : Nat) : Memory :=
  if i < n then Memory.set m i blank else m

/-- The write with sticky word-mark (R54, D8); ignored out of bounds (R52). -/
def Memory.write (n : Nat) (m : Memory) (i : Nat) (v : Word) : Memory :=
  if i < n then
    if hasWM (Memory.get m i) then Memory.set m i (setWordMark v) else Memory.set m i v
  else m

/-- A single-position mutator (R58); nothing out of bounds (R52, D28). -/
def Memory.mutate (n : Nat) (f : Word → Word) (m : Memory) (i : Nat) : Memory :=
  if i < n then Memory.set m i (f (Memory.get m i)) else m

/-! The storage primitives on the state. -/

/-- `N_STORAGE` of this machine (R7). -/
def State.positions (s : State) : Nat := s.cfg.size.positions

/-- `MemPeek(i, 1)` (R53). -/
def State.memPeek (s : State) (i : Nat) : Word := Memory.peek s.positions s.mem i

/-- The storage effect of `MemRead(i, 1)` (R51). -/
def State.memErase (s : State) (i : Nat) : State :=
  { s with mem := Memory.erase s.positions s.mem i }

/-- `MemRead(i, 1)`, the destructive read: the value, and the state after it (R51). -/
def State.memRead (s : State) (i : Nat) : Word × State := (s.memPeek i, s.memErase i)

/-- `MemWrite(i, 1, v)` (R54). -/
def State.memWrite (s : State) (i : Nat) (v : Word) : State :=
  { s with mem := Memory.write s.positions s.mem i v }

/-- `MemSetWM(i)` (R58). -/
def State.memSetWM (s : State) (i : Nat) : State :=
  { s with mem := Memory.mutate s.positions setWordMark s.mem i }

/-- `MemClearWM(i)` (R58). -/
def State.memClearWM (s : State) (i : Nat) : State :=
  { s with mem := Memory.mutate s.positions clearWordMark s.mem i }

/-- `MemSetC(i)` (R58): part of the storage interface, called by no rule. -/
def State.memSetC (s : State) (i : Nat) : State :=
  { s with mem := Memory.mutate s.positions setCheckBit s.mem i }

/-- `Fetch(i)`, the read-restore cycle: a destructive read and the write that puts the value back (R57). -/
def State.fetch (s : State) (i : Nat) : Word × State :=
  let (v, s1) := s.memRead i
  (v, s1.memWrite i v)

/-! Register writes. A write of a character register sets its needs-check flag (R24, D23). -/

def State.setA (s : State) (w : Word) : State := { s with areg := w, needsCheckA := true }

def State.setB (s : State) (w : Word) : State := { s with breg := w, needsCheckB := true }

def State.setI (s : State) (w : Word) : State := { s with ireg := w, needsCheckI := true }

/-- `addrS <- addrA` (R29). -/
def State.latchA (s : State) : State := { s with addrS := s.addrA }

/-- `addrS <- addrB` (R29). -/
def State.latchB (s : State) : State := { s with addrS := s.addrB }

/-- `addrS <- addrI` (R29). -/
def State.latchI (s : State) : State := { s with addrS := s.addrI }

/-- `addrA <- decrease(addrA)` (R91). -/
def State.decA (s : State) : State := { s with addrA := decrease s.addrA }

/-- `addrB <- decrease(addrB)` (R91). -/
def State.decB (s : State) : State := { s with addrB := decrease s.addrB }

/-- `addrI <- increase(addrI)` (R91, R121). -/
def State.incI (s : State) : State := { s with addrI := increase s.addrI }

/-- The result of the step on the result port (R240). -/
def State.signal (s : State) (r : StepResult) : State := { s with result := some r }

/-! Reads of storage through STAR: the I-phase index is `addrInt(addrS)` (R55), the E-phase index is
`encoded(addrS)` (R56). -/

/-- A read-restore of the I-phase into the B-register (R121, R123). -/
def State.fetchToB (s : State) : State :=
  let (v, s1) := s.fetch (addrInt s.addrS)
  s1.setB v

/-- A read-restore of the I-phase into the A-register (R133). -/
def State.fetchToA (s : State) : State :=
  let (v, s1) := s.fetch (addrInt s.addrS)
  s1.setA v

/-- A read-restore of the E-phase into the A-register (R160, R190). -/
def State.eFetchToA (s : State) : State :=
  let (v, s1) := s.fetch (encoded s.addrS)
  s1.setA v

/-- A read-restore of the E-phase into the B-register (R214). -/
def State.eFetchToB (s : State) : State :=
  let (v, s1) := s.fetch (encoded s.addrS)
  s1.setB v

/-- A destructive read of the E-phase into the B-register (R161, R163, R165, R192). -/
def State.eReadToB (s : State) : State :=
  let (v, s1) := s.memRead (encoded s.addrS)
  s1.setB v

/-- `ACycle()`: read and restore the character at `addrA` into the A-register, decrement `addrA` (R160). -/
def State.aCycle (s : State) : State := s.latchA.eFetchToA.decA

/-! Moves of the FSM. -/

/-- `Stay()` of cycles 0 to 7: the counter and `addrI` advance (R121). The counter is below 8 in every
call; it could not pass 8 (C6). -/
def State.stay (s : State) : State :=
  { s.incI with
    counter := ⟨min (s.counter.val + 1) 8, by omega⟩
    result := some .proceed }

/-- `EnterE()` (R122): `counter` and `addrI` are kept. -/
def State.enterE (s : State) : State :=
  { s with phase := .E, result := some .enterExecution }

/-- `StopFetch()` (R125, R127): `addrI` is kept. -/
def State.stopFetch (s : State) : State :=
  { s with counter := 0, result := some .proceed }

/-- `ReturnToI()` (R136, D14): whatever the result, back to the I-phase at counter 0, `cycleElim` cleared;
the transient latches of R34 end with the E-phase. -/
def State.returnToI (s : State) : State :=
  { s with phase := .I, counter := 0, cycleElim := false, eBoundary := none, eFirst := none }

/-- The return to the I-phase after a handler (R136); a step that gave no state stays so. -/
def afterHandler : Host.Outcome State Fault Refusal → Host.Outcome State Fault Refusal
  | .next t => .next t.returnToI
  | .fault f => .fault f
  | .refused r => .refused r

/-! The loop of an E-phase handler (R137). -/

/-- The iterations a handler's loop is run for. An address register decodes to at most 2^14 different
integers (two zone bits and three digit nibbles, R88), and whether a loop ends depends only on where its
registers go and on word-marks it does not change while it runs, so a loop that has not ended after this
many iterations never ends: the obligations on hanging loops say so. -/
def loopFuel : Nat := 16384

/-- A handler's loop: `body` is one storage iteration and its termination test. `eFirst` is true before the
first iteration only (R34). None: the bound is used up, which is no result (D9). -/
def iterate (body : State → State × Bool) : Nat → State → Option State
  | 0, _ => none
  | n + 1, s =>
    let r := body s
    let t := { r.1 with eFirst := some false }
    if r.2 then some t else iterate body n t

/-- A looping handler: it returns Continue when its loop ends, and hangs when it never does (R137, R248). -/
def runLoop (body : State → State × Bool) (s : State) : Host.Outcome State Fault Refusal :=
  match iterate body loopFuel { s with eFirst := some true } with
  | some t => .next (t.signal .proceed)
  | none => .fault .hang

end Sys2Proof.Machine
end

