-- ==== Sys2Proof/Machine/Control.lean ====
section
/-!
DEFINITION. HALT, NO-OP, PRINT, READ-CARD, COMPARE, BRANCH and the codes without a handler
(43_control_io.md).
-/
namespace Sys2Proof.Machine

/-- HALT (R210): with a non-decimal digit in the I-register it signals SystemHalt and may set `deferred`;
with a decimal one it is the no-op halt (D40), which only a changed table can reach (C5). -/
def execHalt (s : State) : Host.Outcome State Fault Refusal :=
  if nonDecimal s.ireg then
    .next ({ s with deferred := deferredAfterHalt s.deferred s.counter }.signal .systemHalt)
  else .next (s.signal .proceed)

/-- NO-OP (R211). -/
def execNop (s : State) : Host.Outcome State Fault Refusal := .next (s.signal .proceed)

/-- The print band's codes, read without disturbing storage (R212, D19). -/
def printLine (s : State) : List Code :=
  (List.range s.cfg.printLen).map fun k => code6 (s.memPeek (s.cfg.printStart + k))

/-- PRINT (R212): the line goes out on the print line port; `addrS` is not written. -/
def execPrint (s : State) : Host.Outcome State Fault Refusal :=
  .next ({ s with printed := s.printed ++ [printLine s] }.signal .proceed)

/-- READ-CARD (R213, D20): it only asks the driver for a card. -/
def execRead (s : State) : Host.Outcome State Fault Refusal := .next (s.signal .needCard)

/-- One pair of COMPARE (R214): both reads restored, the codes compared. -/
def compareBody (s : State) : State × Bool :=
  let s1 := s.aCycle.latchB.eFetchToB.decB
  let s2 := { s1 with equal := equalAfterPair s1.equal s1.areg s1.breg }
  (s2, hasWM s2.areg || hasWM s2.breg)

/-- COMPARE (R214, D18). -/
def execCmp (s : State) : Host.Outcome State Fault Refusal :=
  runLoop compareBody { s with equal := true }

/-- The E-phase of a code without a handler (R216, D26): nothing changes but the result. -/
def unimplemented (s : State) : State := s.signal (.unimplemented (code6 s.ireg))

/-- BRANCH (R215): it has no handler, so its E-phase is that of an unimplemented code. What BRANCH does
besides, it does in the I-phase (R127, R130). -/
def execBr (s : State) : Host.Outcome State Fault Refusal := .next (unimplemented s)

end Sys2Proof.Machine
end

