-- ==== Sys2Proof/Machine/DataMove.lean ====
section
/-!
DEFINITION. The data-move instructions MOVE, MOVE-DIGIT, MOVE-ZONE and LOAD (41_data_move.md).
-/
namespace Sys2Proof.Machine

/-- One position of MOVE (R161): the A-cycle, the destructive B read, the word-mark of B propagated, and the
A character without its word-mark written under the sticky rule (D35, D37). -/
def moveBody (s : State) : State × Bool :=
  let s1 := s.aCycle.latchB
  let j := encoded s1.addrS
  let s2 := s1.eReadToB
  let s3 := if hasWM s2.breg then s2.memSetWM j else s2
  let s4 := s3.decB.memWrite j (clearWordMark s3.areg)
  (s4, hasWM s4.areg || hasWM s4.breg)

/-- MOVE (R161, R162). -/
def execMove (s : State) : Host.Outcome State Fault Refusal := runLoop moveBody s

/-- The bits of `outer` that MOVE-DIGIT and MOVE-ZONE take whole (word-mark and zone), and the digit bits of
`inner`, with the check bit made odd (R163, R165). -/
def combineDigit (outer inner : Word) : Word := oddParity ((outer &&& 0xB0#8) ||| (inner &&& 0x0F#8))

/-- MOVE-DIGIT (R163): B's word-mark and zone, A's digit. -/
def execMd (s : State) : Host.Outcome State Fault Refusal :=
  let s1 := s.aCycle.latchB
  let j := encoded s1.addrS
  let s2 := s1.eReadToB
  let s3 := s2.memWrite j (combineDigit s2.breg s2.areg)
  .next (s3.decB.signal .proceed)

/-- MOVE-ZONE (R165): A's word-mark and zone, B's digit. -/
def execMz (s : State) : Host.Outcome State Fault Refusal :=
  let s1 := s.aCycle.latchB
  let j := encoded s1.addrS
  let s2 := s1.eReadToB
  let s3 := s2.memWrite j (combineDigit s2.areg s2.breg)
  .next (s3.decB.signal .proceed)

/-- One position of LOAD (R167): the A-cycle, and the A character without its check bit written at B under
the sticky rule. The B position is not read. -/
def loadBody (s : State) : State × Bool :=
  let s1 := s.aCycle.latchB
  let s2 := (s1.memWrite (encoded s1.addrS) (stripCheck s1.areg)).decB
  (s2, hasWM s2.areg)

/-- LOAD (R167, R168). -/
def execLoad (s : State) : Host.Outcome State Fault Refusal := runLoop loadBody s

end Sys2Proof.Machine
end

