-- ==== Sys2Proof/Machine/WordMark.lean ====
section
/-!
DEFINITION. SET WORD MARK, CLEAR WORD MARK and CLEAR STORAGE (42_wordmark_clear.md).
-/
namespace Sys2Proof.Machine

/-- SET WORD MARK (R190): both positions are read into the A-register (D16), then marked; only `addrB` is
decremented. -/
def execSwm (s : State) : Host.Outcome State Fault Refusal :=
  let s1 := s.latchA.eFetchToA
  let s2 := s1.memSetWM (encoded s1.addrS)
  let s3 := s2.latchB.eFetchToA
  let s4 := s3.memSetWM (encoded s3.addrS)
  .next (s4.decB.signal .proceed)

/-- CLEAR WORD MARK (R191). -/
def execCwm (s : State) : Host.Outcome State Fault Refusal :=
  let s1 := s.latchA.eFetchToA
  let s2 := s1.memClearWM (encoded s1.addrS)
  let s3 := s2.latchB.eFetchToA
  let s4 := s3.memClearWM (encoded s3.addrS)
  .next (s4.decB.signal .proceed)

/-- CLEAR STORAGE's end boundary: 100 times the signed value of the hundreds character (R192, D17). -/
def clearBoundary (cfg : Config) (b : Address) : Int := 100 * decoded cfg b.e0

/-- The test after the pass at address `p`: the loop ends when `p - 1` is below the boundary, compared as
integers (R192, D17). With no boundary latched, which CLEAR STORAGE never runs into, it does not end. -/
def clearEnds (boundary : Option Int) (p : Nat) : Bool :=
  match boundary with
  | some b => (p : Int) - 1 < b
  | none => false

/-- One position of CLEAR STORAGE (R192): a destructive read into the B-register, the blank written over it. -/
def clearBody (s : State) : State × Bool :=
  let s1 := s.latchB
  let p := addrInt s1.addrS
  let j := encoded s1.addrS
  let s2 := (s1.eReadToB.memWrite j blank).decB
  (s2, clearEnds s2.eBoundary p)

/-- CLEAR STORAGE (R192, R194): the boundary is latched once, and there is no A-cycle. -/
def execCs (s : State) : Host.Outcome State Fault Refusal :=
  runLoop clearBody { s with eBoundary := some (clearBoundary s.cfg s.addrB) }

end Sys2Proof.Machine
end

