-- ==== Sys2Proof/Machine/Dispatch.lean ====
section
/-!
DEFINITION. The E-phase handler of each opcode (R135): one arm per constructor of Instr.
-/
namespace Sys2Proof.Machine

def exec (i : Instr) (s : State) : Host.Outcome State Fault Refusal :=
  match i with
  | .swm => Sys2Proof.Machine.execSwm s
  | .cwm => Sys2Proof.Machine.execCwm s
  | .cs => Sys2Proof.Machine.execCs s
  | .move => Sys2Proof.Machine.execMove s
  | .md => Sys2Proof.Machine.execMd s
  | .mz => Sys2Proof.Machine.execMz s
  | .load => Sys2Proof.Machine.execLoad s
  | .halt => Sys2Proof.Machine.execHalt s
  | .nop => Sys2Proof.Machine.execNop s
  | .print => Sys2Proof.Machine.execPrint s
  | .read => Sys2Proof.Machine.execRead s
  | .cmp => Sys2Proof.Machine.execCmp s
  | .br => Sys2Proof.Machine.execBr s

end Sys2Proof.Machine
end

