-- ==== Sys2Proof/Machine/Fetch.lean ====
section
/-!
DEFINITION. The I-phase: one micro-cycle of the fetch FSM (R120 to R134).
-/
namespace Sys2Proof.Machine

/-- `isOp(X)` (R11): the I-register holds the code of opcode X. -/
def State.isOp (s : State) (i : Instr) : Bool := isOpCode s.cfg s.ireg i

/-- `ReadNext()` (R121): the character at `addrI` is read and restored into the B-register. -/
def State.readNext (s : State) : State := s.latchI.fetchToB

/-- Cycle 0, opcode fetch (R123): through `addrA` when `deferred` is set, which clears it. -/
def cycle0 (s : State) : State :=
  let s1 := if s.deferred then { s.latchA with deferred := false } else s.latchI
  let s2 := s1.fetchToB
  (s2.setI (stripControl s2.breg)).stay

/-- An A character stored as read into element `k`, and mirrored into `addrB` (R124, R126). -/
def State.takeA (s : State) (k : Fin 3) : State :=
  { s with
    addrA := setElem s.addrA k s.breg
    addrB := if mirrored s.cfg s.ireg then setElem s.addrB k s.breg else s.addrB }

/-- Cycles 1, 2 and 3 fill element 0, 1 and 2 of `addrA` (R124, R125); a word-mark ends the instruction,
and at cycle 1 or 2 ends a NO-OP without an E-phase. -/
def cycleA (k : Fin 3) (s : State) : State :=
  let s1 := s.readNext
  if hasWM s1.breg then
    if k.val < 2 && s1.isOp .nop then s1.stopFetch else s1.enterE
  else (s1.takeA k).stay

/-- Cycle 4 (R127 to R129): the BRANCH stop before the word-mark test, then a fresh `addrB`. -/
def cycle4 (s : State) : State :=
  let s1 := s.readNext
  if s1.isOp .br && (isBlank s1.breg || hasWM s1.breg) then s1.stopFetch
  else if hasWM s1.breg then
    { s1 with cycleElim := cycleElimAtFour s1.cfg s1.cycleElim s1.ireg }.enterE
  else { s1 with addrB := setElem blankAddress 0 s1.breg }.stay

/-- Cycle 5 (R130). -/
def cycle5 (s : State) : State :=
  let s1 := s.readNext
  if hasWM s1.breg then
    { s1 with deferred := deferredAtFive s1.cfg s1.deferred s1.ireg s1.areg }.enterE
  else { s1 with addrB := setElem s1.addrB 1 s1.breg }.stay

/-- Cycle 6 (R131). -/
def cycle6 (s : State) : State :=
  let s1 := s.readNext
  if hasWM s1.breg then s1.enterE
  else { s1 with addrB := setElem s1.addrB 2 s1.breg }.stay

/-- Cycle 7 (R132): the forced entry of SWM and CS before the word-mark test. -/
def cycle7 (s : State) : State :=
  let s1 := s.readNext
  if s1.isOp .swm || s1.isOp .cs then
    { s1 with deferred := deferredAtSeven s1.cfg s1.deferred s1.ireg }.enterE
  else if hasWM s1.breg then s1.enterE
  else s1.stay

/-- `raise Fault(IPhaseCycle8Stop)` (R246, R247): the fault mark is set and the step ends with no result. -/
def raiseCycle8Stop (s : State) : Host.Outcome State Fault Refusal :=
  .fault (.iPhaseCycle8Stop { s with fault := some .iPhaseCycle8Stop, result := none })

/-- Cycle 8, the long-form loop (R133): one character into the A-register; a word-mark is the fault, and
without one only `addrI` advances. -/
def cycle8 (s : State) : Host.Outcome State Fault Refusal :=
  let s1 := s.latchI.fetchToA
  if hasWM s1.areg then raiseCycle8Stop s1 else .next (s1.incI.signal .proceed)

/-- `IStep()` (R120): the micro-cycle the counter selects. -/
def iStep (s : State) : Host.Outcome State Fault Refusal :=
  match s.counter.val with
  | 0 => .next (cycle0 s)
  | 1 => .next (cycleA 0 s)
  | 2 => .next (cycleA 1 s)
  | 3 => .next (cycleA 2 s)
  | 4 => .next (cycle4 s)
  | 5 => .next (cycle5 s)
  | 6 => .next (cycle6 s)
  | 7 => .next (cycle7 s)
  | _ => cycle8 s

end Sys2Proof.Machine
end

