-- ==== Sys2Proof/Machine/EPhase.lean ====
section
/-!
DEFINITION. The E-phase step (R135, R136), and the placing of an opcode where the next step runs it.
-/
namespace Sys2Proof.Machine

/-- `EStep()` (R135): the handler of the I-register's opcode, or the unimplemented condition, and then the
return to the I-phase (R136). -/
def eStep (s : State) : Host.Outcome State Fault Refusal :=
  match decode s.cfg s.ireg with
  | .ok i => afterHandler (exec i s)
  | .error _ => afterHandler (.next (unimplemented s))

/-- The one-character instruction `w` stored at `addrI` under a word-mark, and the position after it
word-marked, which ends it (R94). -/
def State.placeOneChar (s : State) (w : Word) : State :=
  let i := addrInt s.addrI
  ((s.memErase i).memWrite i (setWordMark w)).memSetWM (i + 1)

/-- The state at the E-phase entry of a one-character instruction `w` that stands at `addrI`: what cycle 0
and the end of cycle 1 leave (R122, R123), with no fault mark and no redirect pending. -/
def State.atEntryOf (s : State) (w : Word) : State :=
  let s1 := { s.placeOneChar w with phase := .I, counter := 0, deferred := false, fault := none }
  (cycle0 s1).readNext.enterE

end Sys2Proof.Machine
end

