-- ==== Sys2Proof/Machine/Step.lean ====
section
/-!
DEFINITION. `step()` (R120), and the state whose next step runs a given opcode.
-/
namespace Sys2Proof.Machine

/-- `step()` (R120, D39): one micro-cycle of the I-phase or one whole E-phase; stuck under a fault mark. -/
def step (s : State) : Host.Outcome State Fault Refusal :=
  match s.fault with
  | some name => .fault (.stuck name)
  | none =>
    match s.phase with
    | .I => iStep s
    | .E => eStep s

/-- `s` with the opcode character `w` stored as a one-character instruction at `addrI`, and the FSM where the
fetch of it ends, so that the next step is its E-phase. Log entry 7 says how a program comes to run. -/
def State.withFetchWord (s : State) (_nbits w : Nat) : State := s.atEntryOf (BitVec.ofNat 8 w)

end Sys2Proof.Machine
end

