-- ==== Sys2Proof/Machine/Driver.lean ====
section
/-!
DEFINITION. The host ports: load, reset, the monitor, the result code, and the driver as a chooser of the
next port action (R39, R240, R251, R270 to R277).
-/
namespace Sys2Proof.Machine

/-- The bytes of a card copied into storage from index `k` on, each by `MemWrite` (R273). -/
def State.copyFrom (s : State) : Nat → List Word → State
  | _, [] => s
  | k, b :: bs => (s.memWrite k b).copyFrom (k + 1) bs

/-- The `load` port (R273, D24): the bytes from index 0, then the word-mark at 0; storage only. -/
def State.load (s : State) (bytes : List Word) : State := (s.copyFrom 0 bytes).memSetWM 0

/-- The `reset` port (R270): every piece of state at its reset value. The configuration stays, and lines
already emitted are not recalled (R272). -/
def State.resetPort (s : State) : State := { State.reset with cfg := s.cfg, printed := s.printed }

/-- What the monitor port shows (R39): the raw Words of the character and address registers. -/
structure Monitor where
  areg : Word
  breg : Word
  ireg : Word
  addrA : Address
  addrB : Address
  addrI : Address
  addrS : Address
deriving DecidableEq, Repr

/-- The monitor snapshot (R39, D2). -/
def State.monitor (s : State) : Monitor where
  areg := s.areg
  breg := s.breg
  ireg := s.ireg
  addrA := s.addrA
  addrB := s.addrB
  addrI := s.addrI
  addrS := s.addrS

/-- The numeric, character and binary forms of a register's Word on the monitor (R39, R84, R85); the binary
form lists the bits from bit 7 down. -/
def registerForms (cfg : Config) (w : Word) : Int × Option Char × List Bool :=
  (decoded cfg w, charOf cfg w, (List.range 8).map fun k => w.getLsbD (7 - k))

/-- The 3-bit result code (R240, D3); 5 to 7 are never produced. -/
def StepResult.code : StepResult → BitVec 3
  | .proceed => 0
  | .enterExecution => 1
  | .systemHalt => 2
  | .needCard => 3
  | .unimplemented _ => 4

/-- A card's characters as the Words the card reader hands to `load` (R9, R273): odd parity, no word-mark.
None where the table lacks a character. -/
def cardWords (cfg : Config) (card : List Char) : Option (List Word) :=
  card.mapM fun ch => (codeOfChar cfg ch).map charWord

/-- What the host can do between steps (R277, D41). -/
inductive PortAction where
  | step
  | load (bytes : List Word)
  | reset
  | nothing
deriving DecidableEq, Repr

/-- One action of the host (R276, D44). -/
def act : PortAction → State → Host.Outcome State Fault Refusal
  | .step, s => step s
  | .load bytes, s => .next (s.load bytes)
  | .reset, s => .next s.resetPort
  | .nothing, s => .next s

end Sys2Proof.Machine
end

