-- ==== Sys2Proof/Safety.lean ====
section
/-!
DEFINITION. What counts as a state the machine can be in between steps, how a run ends, and the words the
statements use.
-/
namespace Sys2Proof.Machine

/-- Storage is canonical and lists no position the machine does not have. -/
abbrev State.storageOk (s : State) : Prop := s.mem.wf ∧ ∀ c ∈ s.mem, c.1 < s.positions

/-- The shape of every state between two steps: canonical storage; no fault mark; the E-phase latches without
a value (R34); `cycleElim` only in the E-phase of a 4-character CLEAR STORAGE (R32, R128); the I-register
without control bits once fetched (R23); an E-phase entered at cycle 1 to 7 (R30), by NO-OP not before
cycle 3 (R125) and by BRANCH not at cycle 4 (R127); and no SWM or CS in cycle 8 (R132). -/
structure Inv (s : State) : Prop where
  storage : s.storageOk
  noFault : s.fault = none
  latches : s.eBoundary = none ∧ s.eFirst = none
  elim : s.cycleElim = true → s.phase = .E ∧ s.counter.val = 4 ∧ s.isOp .cs = true
  fetched : s.phase = .E ∨ s.counter.val ≠ 0 → stripControl s.ireg = s.ireg
  entered : s.phase = .E → 1 ≤ s.counter.val ∧ s.counter.val ≤ 7
  nopEntry : s.phase = .E → s.isOp .nop = true → 3 ≤ s.counter.val
  brEntry : s.phase = .E → s.isOp .br = true → s.counter.val ≠ 4
  longForm : s.counter.val = 8 → s.isOp .swm = false ∧ s.isOp .cs = false

/-- The results that end a run (R278). -/
def StepResult.endsRun : StepResult → Bool
  | .proceed => false
  | .enterExecution => false
  | .systemHalt => true
  | .needCard => true
  | .unimplemented _ => true

/-- How a run ends (R278). -/
inductive RunEnd where
  /-- With a result that ends it, and the state after it. -/
  | ended (r : StepResult) (s : State)
  /-- With a fault, a stuck step or a step that never returns: no final state. -/
  | stopped (f : Fault)
  /-- An instruction without a meaning; there is none. -/
  | refused (r : Refusal)
  /-- Not ended yet. -/
  | running (s : State)
deriving DecidableEq, Repr

/-- At most `n` steps of a run (R278). -/
def runToEnd : Nat → State → RunEnd
  | 0, s => .running s
  | n + 1, s =>
    match step s with
    | .fault f => .stopped f
    | .refused r => .refused r
    | .next t =>
      match t.result with
      | none => runToEnd n t
      | some r => if r.endsRun then .ended r t else runToEnd n t

/-- Every position of storage reads as before. -/
abbrev sameStorage (s t : State) : Prop := ∀ i, t.memPeek i = s.memPeek i

/-- An address register after `k` decrements that stay in 0..3999 (R91, R169). -/
def downBy (a : Address) (k : Nat) : Address :=
  if k = 0 then a else addrEnc ((addrInt a : Int) - k)

/-- The address register a loop holds before its pass number `k` (counted from 0), wherever the decrements
lead (R91). -/
def nthDown : Nat → Address → Address
  | 0, a => a
  | k + 1, a => nthDown k (decrease a)

/-- The state after `k` passes of a handler's loop, whatever its test says (R137). -/
def passes (body : State → State × Bool) : Nat → State → State
  | 0, s => s
  | k + 1, s => passes body k { (body s).1 with eFirst := some false }

/-- The loop of `body` from `s` ends in `u`, after the first pass whose test ends it (R137). -/
def loopEndsIn (body : State → State × Bool) (s u : State) : Prop :=
  ∃ n, (∀ k < n, (body (passes body k s)).2 = false) ∧ (body (passes body n s)).2 = true ∧
    u = passes body (n + 1) s

/-- The character of the A field that pass `k` (counted from 0) of a handler's loop reads, the field lying
at the addresses from `addrA` down (R62, R169). -/
def aChar (s : State) (k : Nat) : Word := s.memPeek (addrInt s.addrA - 1 - k)

/-- The same for the B field. -/
def bChar (s : State) (k : Nat) : Word := s.memPeek (addrInt s.addrB - 1 - k)

/-- The elements of an Address replaced by the operand characters there are, from element 0 on; an element
without one keeps its value (R96). -/
def fillElems (a : Address) (operands : List Word) : Address :=
  ⟨(operands[0]?).getD a.e0, (operands[1]?).getD a.e1, (operands[2]?).getD a.e2⟩

/-- The number of characters of an instruction text, its opcode included (R95). -/
def textLength (t : Text) : Nat := t.operands.length + 1

/-- The text stands in storage from the position `addrI` denotes in the I-phase (R55, R94). -/
structure StandsAt (s : State) (t : Text) : Prop where
  opcode : decode s.cfg (s.memPeek (addrInt s.addrI)) = .ok t.op
  operands : ∀ k (h : k < t.operands.length), s.memPeek (addrInt s.addrI + 1 + k) = t.operands[k]

/-- The state in which the E-phase of a text is entered, fetched from `s` at counter 0 (R95, R96). -/
def entryState (s : State) (t : Text) : State :=
  let n := addrInt s.addrI
  let stop := addrEnc ((n + textLength t : Nat) : Int)
  let opcode := s.memPeek n
  { s with
    breg := s.memPeek (n + textLength t)
    needsCheckB := true
    ireg := stripControl opcode
    needsCheckI := true
    addrA := fillElems s.addrA t.operands
    addrB :=
      if 4 ≤ t.operands.length then fillElems blankAddress (t.operands.drop 3)
      else if mirrored s.cfg opcode then fillElems s.addrB t.operands else s.addrB
    addrI := stop
    addrS := stop
    phase := .E
    counter := Fin.ofNat 9 (textLength t)
    deferred :=
      s.deferred || (t.op == .br && textLength t == 5 && s.areg.getLsbD 0) || (t.op == .cs && textLength t == 7)
    cycleElim := s.cycleElim || (t.op == .cs && textLength t == 4)
    result := some .enterExecution }

/-- A state without the bits no rule reads: the needs-check flags (R24), `cycleElim` (R32) and `equal`
(R33). -/
def State.forget (s : State) : State :=
  { s with
    needsCheckA := false
    needsCheckB := false
    needsCheckI := false
    cycleElim := false
    equal := false }

/-- An outcome without the bits no rule reads. -/
def forgetOutcome : Host.Outcome State Fault Refusal → Host.Outcome State Fault Refusal
  | .next t => .next t.forget
  | .fault (.iPhaseCycle8Stop m) => .fault (.iPhaseCycle8Stop m.forget)
  | .fault (.stuck n) => .fault (.stuck n)
  | .fault .hang => .fault .hang
  | .refused r => .refused r

end Sys2Proof.Machine
end

