-- ==== Sys2Proof/Certificates/Slice0/Obligations.lean ====
section
/-!
DEFINITION. The statements for the provers, each with the rules it comes from. Storage that is not canonical
is reached by no run (see `Inv`), so a statement about what storage reads assumes the canonical form.
-/
open Sys2Proof Sys2Proof.Machine

/-! Characters, instruction texts and addresses (30_encoding.md). -/

/-- R97: opcode characters written out bit by bit (word-mark, check, zone, digit) decode to their opcodes,
and the unlisted 'A' to none. -/
def Obligations.OpcodeWordsDecode : Prop :=
  decode Config.default 0b11011011#8 = .ok .swm ∧ decode Config.default 0b01111100#8 = .ok .cwm ∧
  decode Config.default 0b01010001#8 = .ok .cs ∧ decode Config.default 0b01100100#8 = .ok .move ∧
  decode Config.default 0b00100011#8 = .ok .load ∧ decode Config.default 0b10111011#8 = .ok .halt ∧
  decode Config.default 0b00000001#8 = .ok .read ∧ decode Config.default 0b01110011#8 = .ok .cmp ∧
  decode Config.default 0b00110010#8 = .ok .br ∧
  decode Config.default 0b00110001#8 = .error (.noHandler 0b110001#6)

/-- R84, R97, R98: a Word's opcode is the one whose table code its zone and digit bits are, and it has none
exactly when they are no opcode's code. -/
def Obligations.DecodeMatchesOpcodeCode : Prop :=
  ∀ cfg : Config, cfg.wellFormed → ∀ w : Word,
    (∀ i, decode cfg w = .ok i ↔ opCode cfg i = some (code6 w)) ∧
    ((∀ i, opCode cfg i ≠ some (code6 w)) → decode cfg w = .error (.noHandler (code6 w)))

/-- R94, R95, R127, R132: every well-formed instruction text has an encoding, and decoding it gives the text
back, up to the character that ends it: a word-marked one, any one after seven characters of SWM or CS, an
`isBlank` one after four characters of BRANCH. -/
def Obligations.DecodeTextInvertsEncode : Prop :=
  ∀ (cfg : Config) (t : Text), cfg.wellFormed → t.wellFormed = true →
    ∃ ws, encode cfg t = some ws ∧
      ∀ (x : Word) (rest : List Word),
        (hasWM x = true ∨ (t.operands.length = 6 ∧ (t.op = .swm ∨ t.op = .cs)) ∨
          (t.operands.length = 3 ∧ t.op = .br ∧ isBlank x = true)) →
        decodeText cfg (ws ++ x :: rest) = .ok (t, x :: rest)

/-- R94, R95: what the decoder accepts is a well-formed text that stands at the head of the list. -/
def Obligations.DecodedTextIsWellFormed : Prop :=
  ∀ (cfg : Config) (ws rest : List Word) (t : Text), decodeText cfg ws = .ok (t, rest) →
    t.wellFormed = true ∧ ∃ c, decode cfg c = .ok t.op ∧ ws = c :: (t.operands ++ rest)

/-- R81: `oddParity` flips the check bit of a character of even parity only; `setWordMark` is it after the
word-mark is set, so a character of odd parity only gains the word-mark; done twice it is done once. -/
def Obligations.ParityOfCharacters : Prop :=
  ∀ w : Word,
    oddParity w = (if popcount7 w % 2 = 1 then w else w ^^^ 0x40#8) ∧
    setWordMark w = oddParity (w ||| 0x80#8) ∧
    (popcount7 w % 2 = 1 → setWordMark w = w ||| 0x80#8) ∧
    (popcount7 w % 2 = 0 → setWordMark w = (w ||| 0x80#8) ^^^ 0x40#8) ∧
    popcount7 (setWordMark w) % 2 = 1 ∧ hasWM (setWordMark w) = true ∧ code6 (setWordMark w) = code6 w ∧
    setWordMark (setWordMark w) = setWordMark w

/-- R92: the round trip, and two addresses that show the converse fails. -/
def Obligations.AddressRoundTrip : Prop :=
  (∀ v : Nat, v ≤ 3999 → addrInt (addrEnc v) = v) ∧
  addrInt ⟨0x02#8, 0x40#8, 0x40#8⟩ = 200 ∧ addrInt ⟨0x4A#8, 0x61#8, 0x45#8⟩ = 15 ∧
  addrEnc 200 ≠ ⟨0x02#8, 0x40#8, 0x40#8⟩ ∧ addrEnc 15 ≠ ⟨0x4A#8, 0x61#8, 0x45#8⟩

/-- R88, R89, R91: `increase` and `decrease` decode, add or take one, and encode; in range the result is
normalised, without word-mark and of odd parity. Out of 0..3999 the result is the open `ADDR_OOR`, whatever it
is, which the model takes as a free value (DESIGN CHOICE, log entry 2). -/
def Obligations.IncreaseAndDecrease : Prop :=
  ∀ a : Address,
    increase a = addrEnc ((addrInt a : Int) + 1) ∧ decrease a = addrEnc ((addrInt a : Int) - 1) ∧
    (addrInt a < 3999 → addrInt (increase a) = addrInt a + 1) ∧
    (3999 ≤ addrInt a → increase a = Config.addrOor ((addrInt a : Int) + 1)) ∧
    (1 ≤ addrInt a ∧ addrInt a ≤ 4000 → addrInt (decrease a) = addrInt a - 1) ∧
    (addrInt a = 0 ∨ 4000 < addrInt a → decrease a = Config.addrOor ((addrInt a : Int) - 1)) ∧
    ∀ v : Nat, v ≤ 3999 → zone (addrEnc v).e1 = 0#2 ∧ zone (addrEnc v).e2 = 0#2 ∧
      ∀ w ∈ [(addrEnc v).e0, (addrEnc v).e1, (addrEnc v).e2], hasWM w = false ∧ parityCheck w = true

/-- R126: a code's A characters are kept out of `addrB` exactly when it is MOVE, LOAD or one of two further
opcodes, which are different and neither of these nor CLEAR STORAGE; which two is open (a free value, log
entry 3). -/
def Obligations.MirroringExceptions : Prop :=
  (∀ (cfg : Config) (w : Word), mirrored cfg w = false ↔
    ∃ i, decode cfg w = .ok i ∧ (i = .move ∨ i = .load ∨ i ∈ noMirrorExtra)) ∧
  noMirrorExtra.length = 2 ∧ noMirrorExtra.Nodup ∧
  ∀ i ∈ noMirrorExtra, i ≠ .move ∧ i ≠ .load ∧ i ≠ .cs

/-! Storage (20_memory.md). -/

/-- R51: the destructive read gives the character, leaves the blank there and everything else alone; a second
read of the position gives the blank; out of bounds it gives 0x00 and changes nothing. -/
def Obligations.DestructiveRead : Prop :=
  ∀ (s : State) (i : Nat), s.mem.wf →
    (s.memRead i).1 = s.memPeek i ∧
    (∃ m, (s.memRead i).2 = { s with mem := m }) ∧
    (∀ j, (s.memRead i).2.memPeek j = if j = i ∧ i < s.positions then 0x40#8 else s.memPeek j) ∧
    (i < s.positions → ((s.memRead i).2.memRead i).1 = 0x40#8) ∧
    (s.positions ≤ i → (s.memRead i).1 = 0x00#8 ∧ (s.memRead i).2 = s)

/-- R54: the write is sticky where the position has a word-mark, plain where it has none, and after a
destructive read never sticky; out of bounds it changes nothing. -/
def Obligations.StickyWrite : Prop :=
  ∀ (s : State) (i : Nat) (v : Word), s.mem.wf →
    (∃ m, s.memWrite i v = { s with mem := m }) ∧
    (∀ j, (s.memWrite i v).memPeek j =
      if j = i ∧ i < s.positions then if hasWM (s.memPeek i) then setWordMark v else v
      else s.memPeek j) ∧
    (i < s.positions → ((s.memRead i).2.memWrite i v).memPeek i = v) ∧
    (s.positions ≤ i → s.memWrite i v = s)

/-! The step and the fetch (40_fetch_fsm.md). -/

/-- R120, R135, R136: in the E-phase a step is the handler of the opcode in the I-register and then the return
to the I-phase; a code without a handler only gives its result. -/
def Obligations.StepRunsDecodedInstruction : Prop :=
  ∀ s : State, s.fault = none → s.phase = .E →
    (∀ i, decode s.cfg s.ireg = .ok i → step s = afterHandler (exec i s)) ∧
    (∀ e, decode s.cfg s.ireg = .error e →
      step s = .next { s with
        phase := .I
        counter := 0
        cycleElim := false
        eBoundary := none
        eFirst := none
        result := some (.unimplemented (code6 s.ireg)) })

/-- R123: cycle 0. -/
def Obligations.OpcodeFetchCycle : Prop :=
  ∀ s : State, s.fault = none → s.mem.wf → s.phase = .I → s.counter = 0 →
    ∃ a w, a = (if s.deferred then s.addrA else s.addrI) ∧ w = s.memPeek (addrInt a) ∧
      step s = .next { s with
        addrS := a
        deferred := false
        breg := w
        needsCheckB := true
        ireg := w &&& 0x3F#8
        needsCheckI := true
        addrI := increase s.addrI
        counter := 1
        result := some .proceed }

/-- R124, R125: cycles 1 to 3. Element `k` is filled in cycle `k + 1`. -/
def Obligations.AddressCharacterCycles : Prop :=
  ∀ (s : State) (k : Fin 3), s.fault = none → s.mem.wf → s.phase = .I → s.counter.val = k.val + 1 →
    ∃ w r, w = s.memPeek (addrInt s.addrI) ∧
      r = { s with addrS := s.addrI, breg := w, needsCheckB := true } ∧
      step s = .next
        (if hasWM w then
          if (k.val = 0 ∨ k.val = 1) ∧ s.isOp .nop = true then
            { r with counter := 0, result := some .proceed }
          else { r with phase := .E, result := some .enterExecution }
        else { r with
          addrA := setElem s.addrA k w
          addrB := if mirrored s.cfg s.ireg then setElem s.addrB k w else s.addrB
          addrI := increase s.addrI
          counter := Fin.ofNat 9 (k.val + 2)
          result := some .proceed })

/-- R127, R128, R129: cycle 4, the BRANCH stop before the word-mark test. -/
def Obligations.CycleFour : Prop :=
  ∀ s : State, s.fault = none → s.mem.wf → s.phase = .I → s.counter = 4 →
    ∃ w r, w = s.memPeek (addrInt s.addrI) ∧
      r = { s with addrS := s.addrI, breg := w, needsCheckB := true } ∧
      step s = .next
        (if s.isOp .br = true ∧ (isBlank w = true ∨ hasWM w = true) then
          { r with counter := 0, result := some .proceed }
        else if hasWM w then { r with
          cycleElim := if s.isOp .cs then true else s.cycleElim
          phase := .E
          result := some .enterExecution }
        else { r with
          addrB := ⟨w, 0x40#8, 0x40#8⟩
          addrI := increase s.addrI
          counter := 5
          result := some .proceed })

/-- R130, R131: cycles 5 and 6. -/
def Obligations.CyclesFiveAndSix : Prop :=
  ∀ s : State, s.fault = none → s.mem.wf → s.phase = .I →
    ∃ w r, w = s.memPeek (addrInt s.addrI) ∧
      r = { s with addrS := s.addrI, breg := w, needsCheckB := true } ∧
      (s.counter = 5 → step s = .next
        (if hasWM w then { r with
          deferred := if s.isOp .br = true ∧ s.areg.getLsbD 0 = true then true else s.deferred
          phase := .E
          result := some .enterExecution }
        else { r with
          addrB := { s.addrB with e1 := w }
          addrI := increase s.addrI
          counter := 6
          result := some .proceed })) ∧
      (s.counter = 6 → step s = .next
        (if hasWM w then { r with phase := .E, result := some .enterExecution }
        else { r with
          addrB := { s.addrB with e2 := w }
          addrI := increase s.addrI
          counter := 7
          result := some .proceed }))

/-- R132: cycle 7, the forced entry of SWM and CS before the word-mark test; no other step sets `deferred` under
the opcode CS. -/
def Obligations.CycleSeven : Prop :=
  (∀ s : State, s.fault = none → s.mem.wf → s.phase = .I → s.counter = 7 →
    ∃ w r, w = s.memPeek (addrInt s.addrI) ∧
      r = { s with addrS := s.addrI, breg := w, needsCheckB := true } ∧
      step s = .next
        (if s.isOp .swm = true ∨ s.isOp .cs = true then { r with
          deferred := if s.isOp .cs then true else s.deferred
          phase := .E
          result := some .enterExecution }
        else if hasWM w then { r with phase := .E, result := some .enterExecution }
        else { r with addrI := increase s.addrI, counter := 8, result := some .proceed })) ∧
  ∀ s t : State, s.isOp .cs = true → step s = .next t → s.deferred = false → t.deferred = true →
    s.phase = .I ∧ s.counter = 7

/-- R133, R247: cycle 8 reads into the A-register; a word-mark is the fault, which records the position and
the character, and every later step is stuck. -/
def Obligations.CycleEightStop : Prop :=
  ∀ s : State, s.fault = none → s.mem.wf → s.phase = .I → s.counter = 8 →
    ∃ w, w = s.memPeek (addrInt s.addrI) ∧
      (hasWM w = false → step s = .next { s with
        addrS := s.addrI
        areg := w
        needsCheckA := true
        addrI := increase s.addrI
        result := some .proceed }) ∧
      (hasWM w = true → ∃ m, step s = .fault (.iPhaseCycle8Stop m) ∧
        m = { s with
          addrS := s.addrI
          areg := w
          needsCheckA := true
          fault := some .iPhaseCycle8Stop
          result := none } ∧
        step m = .fault (.stuck .iPhaseCycle8Stop))

/-- R95, R96: a well-formed instruction text of L characters that stands at `addrI` and is ended by a
word-mark (or by the forced end of SWM and CS) is fetched in L + 1 steps into the state the table of R95
gives, with the A and B elements assembled as R96 says; NO-OP of 1 or 2 and BRANCH of 4 characters end
elsewhere. -/
def Obligations.FetchRunsText : Prop :=
  ∀ (s : State) (t : Text), s.fault = none → s.mem.wf → s.phase = .I → s.counter = 0 → s.deferred = false →
    t.wellFormed = true → StandsAt s t → addrInt s.addrI + textLength t ≤ 3999 →
    (hasWM (s.memPeek (addrInt s.addrI + textLength t)) = true ∨
      (textLength t = 7 ∧ (t.op = .swm ∨ t.op = .cs))) →
    ¬(t.op = .nop ∧ textLength t ≤ 2) → ¬(t.op = .br ∧ textLength t = 4) →
    Host.Core.run Sys2Proof.core (textLength t + 1) s = .next (entryState s t) ∧
    Host.Core.run Sys2Proof.core (textLength t + 2) s = afterHandler (exec t.op (entryState s t))

/-- R125, R127: a NO-OP of 1 or 2 characters, and a BRANCH of 4 characters before a word-marked or `isBlank`
character, end in the I-phase: counter 0 and `addrI` at the character that ended them. -/
def Obligations.NopAndBranchEndInFetch : Prop :=
  ∀ (s : State) (t : Text), s.fault = none → s.mem.wf → s.phase = .I → s.counter = 0 → s.deferred = false →
    StandsAt s t → t.wellFormed = true → addrInt s.addrI + textLength t ≤ 3999 →
    (t.op = .nop ∧ textLength t ≤ 2 ∧ hasWM (s.memPeek (addrInt s.addrI + textLength t)) = true ∨
      t.op = .br ∧ textLength t = 4 ∧ (hasWM (s.memPeek (addrInt s.addrI + textLength t)) = true ∨
        isBlank (s.memPeek (addrInt s.addrI + textLength t)) = true)) →
    Host.Core.run Sys2Proof.core (textLength t + 1) s =
      .next { entryState s t with phase := .I, counter := 0, result := some .proceed }

/-- The state `withFetchWord` prepares is the one two steps of the fetch leave when the one-character
instruction stands in storage (R122, R123, R125); a NO-OP would end in the fetch. Log entry 7. -/
def Obligations.PlacedOpcodeIsFetched : Prop :=
  ∀ (s : State) (w : Nat), s.mem.wf → s.fault = none → s.phase = .I → s.counter = 0 → s.deferred = false →
    addrInt s.addrI + 1 < s.positions → addrInt s.addrI + 1 ≤ 3999 →
    isOpCode s.cfg (BitVec.ofNat 8 w) .nop = false →
    Host.Core.run Sys2Proof.core 2 (s.placeOneChar (BitVec.ofNat 8 w)) = .next (s.withFetchWord 8 w)

/-! What each instruction does (41_data_move.md, 42_wordmark_clear.md, 43_control_io.md). Each gives the next
state whole: a register, flag or port it does not name is unchanged, and so is every byte of storage it does
not name. -/

/-- R161, R162, R169: MOVE of `n` positions, the last being the first on which either side has a word-mark.
The registers end `n` addresses lower. Storage outside the B field is unchanged; where no A position is
written before it is read, the B field holds the A characters without their word-marks, under its own. -/
def Obligations.MoveMovesField : Prop :=
  ∀ (s : State) (n : Nat), s.mem.wf →
    1 ≤ n → n ≤ addrInt s.addrA → addrInt s.addrA ≤ 4000 → n ≤ addrInt s.addrB → addrInt s.addrB ≤ 4000 →
    (∀ k, k + 1 < n → hasWM (aChar s k) = false ∧ hasWM (bChar s k) = false) →
    (hasWM (aChar s (n - 1)) = true ∨ hasWM (bChar s (n - 1)) = true) →
    ∃ m last, exec .move s = .next { s with
        areg := last
        needsCheckA := true
        breg := bChar s (n - 1)
        needsCheckB := true
        addrA := downBy s.addrA n
        addrB := downBy s.addrB n
        addrS := downBy s.addrB (n - 1)
        mem := m
        eFirst := some false
        result := some .proceed } ∧
      (∀ i, addrInt s.addrB ≤ i ∨ i + n < addrInt s.addrB → Memory.peek s.positions m i = s.memPeek i) ∧
      (addrInt s.addrA ≤ addrInt s.addrB ∨ addrInt s.addrB + n ≤ addrInt s.addrA →
        last = aChar s (n - 1) ∧
        ∀ k < n, addrInt s.addrB - 1 - k < s.positions →
          Memory.peek s.positions m (addrInt s.addrB - 1 - k) =
            if hasWM (bChar s k) then setWordMark (clearWordMark (aChar s k)) else clearWordMark (aChar s k))

/-- R163, R166: MOVE-DIGIT, one position each side: B's word-mark and zone with A's digit, check bit made odd. -/
def Obligations.MoveDigitCombines : Prop :=
  ∀ s : State, s.mem.wf →
    ∃ m i j a b, i = encoded s.addrA ∧ j = encoded s.addrB ∧ a = s.memPeek i ∧ b = s.memPeek j ∧
      exec .md s = .next { s with
        areg := a
        needsCheckA := true
        breg := b
        needsCheckB := true
        addrA := decrease s.addrA
        addrB := decrease s.addrB
        addrS := s.addrB
        mem := m
        result := some .proceed } ∧
      ∀ x, Memory.peek s.positions m x =
        if x = j ∧ j < s.positions then oddParity ((b &&& 0xB0#8) ||| (a &&& 0x0F#8)) else s.memPeek x

/-- R165, R164, R166: MOVE-ZONE: A's word-mark and zone with B's digit; B's own word-mark is lost. -/
def Obligations.MoveZoneCombines : Prop :=
  ∀ s : State, s.mem.wf →
    ∃ m i j a b, i = encoded s.addrA ∧ j = encoded s.addrB ∧ a = s.memPeek i ∧ b = s.memPeek j ∧
      exec .mz s = .next { s with
        areg := a
        needsCheckA := true
        breg := b
        needsCheckB := true
        addrA := decrease s.addrA
        addrB := decrease s.addrB
        addrS := s.addrB
        mem := m
        result := some .proceed } ∧
      ∀ x, Memory.peek s.positions m x =
        if x = j ∧ j < s.positions then oddParity ((a &&& 0xB0#8) ||| (b &&& 0x0F#8)) else s.memPeek x

/-- R167 to R170: LOAD of `n` positions, the last being the first A character with a word-mark. The B-register
is not written, and B's word-marks do not stop it. -/
def Obligations.LoadCopiesField : Prop :=
  ∀ (s : State) (n : Nat), s.mem.wf →
    1 ≤ n → n ≤ addrInt s.addrA → addrInt s.addrA ≤ 4000 → n ≤ addrInt s.addrB → addrInt s.addrB ≤ 4000 →
    (∀ k, k + 1 < n → hasWM (aChar s k) = false) → hasWM (aChar s (n - 1)) = true →
    ∃ m last, exec .load s = .next { s with
        areg := last
        needsCheckA := true
        addrA := downBy s.addrA n
        addrB := downBy s.addrB n
        addrS := downBy s.addrB (n - 1)
        mem := m
        eFirst := some false
        result := some .proceed } ∧
      (∀ i, addrInt s.addrB ≤ i ∨ i + n < addrInt s.addrB → Memory.peek s.positions m i = s.memPeek i) ∧
      (addrInt s.addrA ≤ addrInt s.addrB ∨ addrInt s.addrB + n ≤ addrInt s.addrA →
        last = aChar s (n - 1) ∧
        ∀ k < n, addrInt s.addrB - 1 - k < s.positions →
          Memory.peek s.positions m (addrInt s.addrB - 1 - k) =
            if hasWM (bChar s k) then setWordMark (stripCheck (aChar s k)) else stripCheck (aChar s k))

/-- R190, R193: SET WORD MARK. Both positions get `setWordMark` of what they hold, once also where they are
the same; the A-register ends with the B character as it was read, `addrA` is kept. -/
def Obligations.SetWordMarkMarksBoth : Prop :=
  ∀ s : State, s.mem.wf →
    ∃ m i j, i = encoded s.addrA ∧ j = encoded s.addrB ∧
      exec .swm s = .next { s with
        areg := if i = j ∧ i < s.positions then setWordMark (s.memPeek j) else s.memPeek j
        needsCheckA := true
        addrB := decrease s.addrB
        addrS := s.addrB
        mem := m
        result := some .proceed } ∧
      ∀ x, Memory.peek s.positions m x =
        if (x = i ∨ x = j) ∧ x < s.positions then setWordMark (s.memPeek x) else s.memPeek x

/-- R191, R193: CLEAR WORD MARK. Both positions lose bit 7 and nothing else. -/
def Obligations.ClearWordMarkClearsBoth : Prop :=
  ∀ s : State, s.mem.wf →
    ∃ m i j, i = encoded s.addrA ∧ j = encoded s.addrB ∧
      exec .cwm s = .next { s with
        areg := if i = j ∧ i < s.positions then clearWordMark (s.memPeek j) else s.memPeek j
        needsCheckA := true
        addrB := decrease s.addrB
        addrS := s.addrB
        mem := m
        result := some .proceed } ∧
      ∀ x, Memory.peek s.positions m x =
        if (x = i ∨ x = j) ∧ x < s.positions then clearWordMark (s.memPeek x) else s.memPeek x

/-- R192, R194: CLEAR STORAGE from address `b` down to a boundary `low` of 1 or more: indexes `b - 1` down to
`low - 1` hold the blank afterwards, everything else is unchanged, and `addrB` denotes `low - 1`. -/
def Obligations.ClearStorageClearsDownToBoundary : Prop :=
  ∀ (s : State) (low : Nat), s.mem.wf → (low : Int) = 100 * decoded s.cfg s.addrB.e0 →
    1 ≤ low → low ≤ addrInt s.addrB → addrInt s.addrB ≤ 4000 →
    ∃ m, exec .cs s = .next { s with
        breg := s.memPeek (low - 1)
        needsCheckB := true
        addrB := addrEnc ((low : Int) - 1)
        addrS := downBy s.addrB (addrInt s.addrB - low)
        mem := m
        eBoundary := some (low : Int)
        eFirst := some false
        result := some .proceed } ∧
      ∀ i, Memory.peek s.positions m i =
        if low ≤ i + 1 ∧ i < addrInt s.addrB ∧ i < s.positions then 0x40#8 else s.memPeek i

/-- R192, R194: with the boundary 0, CLEAR STORAGE clears down to index 0, which address 0 clears once more,
and `addrB` ends as the open `ADDR_OOR(-1)`, whatever it is (a free value, log entry 2). -/
def Obligations.ClearStorageToZero : Prop :=
  ∀ s : State, s.mem.wf → decoded s.cfg s.addrB.e0 = 0 → addrInt s.addrB ≤ 4000 →
    ∃ m, exec .cs s = .next { s with
        breg := if addrInt s.addrB = 0 then s.memPeek 0 else 0x40#8
        needsCheckB := true
        addrB := Config.addrOor (-1)
        addrS := downBy s.addrB (addrInt s.addrB)
        mem := m
        eBoundary := some 0
        eFirst := some false
        result := some .proceed } ∧
      ∀ i, Memory.peek s.positions m i =
        if i < max 1 (addrInt s.addrB) ∧ i < s.positions then 0x40#8 else s.memPeek i

/-- R210: HALT, with a non-decimal and with a decimal digit in the I-register. -/
def Obligations.HaltSignals : Prop :=
  ∀ s : State,
    (9 < (digit s.ireg).toNat → exec .halt s = .next { s with
      deferred := if 4 ≤ s.counter.val then true else s.deferred
      result := some .systemHalt }) ∧
    ((digit s.ireg).toNat ≤ 9 → exec .halt s = .next { s with result := some .proceed })

/-- R211, R213, R215, R216: NO-OP, READ-CARD and BRANCH change nothing but the result. -/
def Obligations.NopReadBranchOnlySignal : Prop :=
  ∀ s : State,
    exec .nop s = .next { s with result := some .proceed } ∧
    exec .read s = .next { s with result := some .needCard } ∧
    exec .br s = .next { s with result := some (.unimplemented (code6 s.ireg)) }

/-- R212: PRINT emits the codes of the print band and changes nothing else, `addrS` included. -/
def Obligations.PrintEmitsBand : Prop :=
  ∀ s : State, ∃ out : List Code,
    out.length = s.cfg.printLen ∧
    (∀ k (h : k < out.length), out[k] = code6 (s.memPeek (s.cfg.printStart + k))) ∧
    exec .print s = .next { s with printed := s.printed ++ [out], result := some .proceed }

/-- R214: COMPARE of `n` positions, the last being the first on which either side has a word-mark: `equal`
says whether all `n` pairs have equal codes. Storage is unchanged. -/
def Obligations.CompareComparesFields : Prop :=
  ∀ (s : State) (n : Nat), s.mem.wf →
    1 ≤ n → n ≤ addrInt s.addrA → addrInt s.addrA ≤ 4000 → n ≤ addrInt s.addrB → addrInt s.addrB ≤ 4000 →
    (∀ k, k + 1 < n → hasWM (aChar s k) = false ∧ hasWM (bChar s k) = false) →
    (hasWM (aChar s (n - 1)) = true ∨ hasWM (bChar s (n - 1)) = true) →
    exec .cmp s = .next { s with
      areg := aChar s (n - 1)
      needsCheckA := true
      breg := bChar s (n - 1)
      needsCheckB := true
      addrA := downBy s.addrA n
      addrB := downBy s.addrB n
      addrS := downBy s.addrB (n - 1)
      equal := decide (∀ k < n, code6 (aChar s k) = code6 (bChar s k))
      eFirst := some false
      result := some .proceed }

/-- R161, R162, R167, R168, R192, R214: one pass of each loop, at any addresses, in bounds or not, and with A
and B anywhere: what it reads, what it writes, the registers after it, and its test. -/
def Obligations.EachPassOfALoop : Prop :=
  ∀ s : State, s.mem.wf →
    ∃ i j a b, i = encoded s.addrA ∧ j = encoded s.addrB ∧ a = s.memPeek i ∧ b = s.memPeek j ∧
      (∃ m, moveBody s = ({ s with
            areg := a
            needsCheckA := true
            breg := b
            needsCheckB := true
            addrA := decrease s.addrA
            addrB := decrease s.addrB
            addrS := s.addrB
            mem := m }, hasWM a || hasWM b) ∧
        ∀ x, Memory.peek s.positions m x =
          if x = j ∧ j < s.positions then
            if hasWM b then setWordMark (clearWordMark a) else clearWordMark a
          else s.memPeek x) ∧
      (∃ m, loadBody s = ({ s with
            areg := a
            needsCheckA := true
            addrA := decrease s.addrA
            addrB := decrease s.addrB
            addrS := s.addrB
            mem := m }, hasWM a) ∧
        ∀ x, Memory.peek s.positions m x =
          if x = j ∧ j < s.positions then if hasWM b then setWordMark (stripCheck a) else stripCheck a
          else s.memPeek x) ∧
      compareBody s = ({ s with
          areg := a
          needsCheckA := true
          breg := b
          needsCheckB := true
          addrA := decrease s.addrA
          addrB := decrease s.addrB
          addrS := s.addrB
          equal := s.equal && decide (code6 a = code6 b) }, hasWM a || hasWM b) ∧
      ∃ m, clearBody s = ({ s with
            breg := b
            needsCheckB := true
            addrB := decrease s.addrB
            addrS := s.addrB
            mem := m }, clearEnds s.eBoundary (addrInt s.addrB)) ∧
        ∀ x, Memory.peek s.positions m x = if x = j ∧ j < s.positions then 0x40#8 else s.memPeek x

/-- R137, R248: a looping handler answers a state exactly when its loop ends, and then the state after the
first pass that ends it; the model's bound on the passes (log entry 10) cuts off no loop that ends. -/
def Obligations.LoopsRunUntilTheirTestEnds : Prop :=
  ∀ s t : State, s.mem.wf →
    (exec .move s = .next t ↔
      ∃ u, loopEndsIn moveBody { s with eFirst := some true } u ∧ t = u.signal .proceed) ∧
    (exec .load s = .next t ↔
      ∃ u, loopEndsIn loadBody { s with eFirst := some true } u ∧ t = u.signal .proceed) ∧
    (exec .cmp s = .next t ↔
      ∃ u, loopEndsIn compareBody { s with equal := true, eFirst := some true } u ∧ t = u.signal .proceed) ∧
    (exec .cs s = .next t ↔
      ∃ u, loopEndsIn clearBody
          { s with eBoundary := some (100 * decoded s.cfg s.addrB.e0), eFirst := some true } u ∧
        t = u.signal .proceed)

/-- R137, R248: the model's bound on a loop is no invention: MOVE, LOAD and COMPARE hang exactly when no
position their registers ever pass carries the word-mark that ends them, wherever the open `ADDR_OOR` leads
(log entries 2 and 10). -/
def Obligations.FieldLoopsHangExactlyWithoutMark : Prop :=
  ∀ s : State, s.mem.wf →
    (exec .move s = .fault .hang ↔ ∀ k, hasWM (s.memPeek (encoded (nthDown k s.addrA))) = false ∧
      hasWM (s.memPeek (encoded (nthDown k s.addrB))) = false) ∧
    (exec .load s = .fault .hang ↔ ∀ k, hasWM (s.memPeek (encoded (nthDown k s.addrA))) = false) ∧
    (exec .cmp s = .fault .hang ↔ ∀ k, hasWM (s.memPeek (encoded (nthDown k s.addrA))) = false ∧
      hasWM (s.memPeek (encoded (nthDown k s.addrB))) = false)

/-- R137, R192, R194, R248: CLEAR STORAGE hangs exactly when no address it passes is at or below its
boundary; with a negative boundary it always does, wherever the open `ADDR_OOR` leads (log entries 2 and 10). -/
def Obligations.ClearStorageHangsExactlyAboveBoundary : Prop :=
  ∀ s : State,
    (exec .cs s = .fault .hang ↔
      ∀ k, 100 * decoded s.cfg s.addrB.e0 < (addrInt (nthDown k s.addrB) : Int)) ∧
    (decoded s.cfg s.addrB.e0 < 0 → exec .cs s = .fault .hang)

/-! Frames (10_state.md). -/

/-- R23, R28, R30, R33, R250 and the handlers' rules: what the E-phase handlers leave unchanged. -/
def Obligations.HandlersLeaveUnchanged : Prop :=
  ∀ (i : Instr) (s t : State), exec i s = .next t →
    t.cfg = s.cfg ∧ t.ireg = s.ireg ∧ t.needsCheckI = s.needsCheckI ∧ t.addrI = s.addrI ∧
    t.phase = s.phase ∧ t.counter = s.counter ∧ t.cycleElim = s.cycleElim ∧ t.fault = s.fault ∧
    (i ≠ .halt → t.deferred = s.deferred) ∧ (i ≠ .cmp → t.equal = s.equal) ∧
    (i ≠ .print → t.printed = s.printed) ∧ (i ≠ .cs → t.eBoundary = s.eBoundary) ∧
    (i ≠ .move → i ≠ .load → i ≠ .cmp → i ≠ .cs → t.eFirst = s.eFirst) ∧
    (i = .cs ∨ i = .halt ∨ i = .nop ∨ i = .print ∨ i = .read ∨ i = .br →
      t.areg = s.areg ∧ t.needsCheckA = s.needsCheckA) ∧
    (i = .cs ∨ i = .swm ∨ i = .cwm ∨ i = .halt ∨ i = .nop ∨ i = .print ∨ i = .read ∨ i = .br →
      t.addrA = s.addrA) ∧
    (i = .swm ∨ i = .cwm ∨ i = .load ∨ i = .halt ∨ i = .nop ∨ i = .print ∨ i = .read ∨ i = .br →
      t.breg = s.breg ∧ t.needsCheckB = s.needsCheckB) ∧
    (i = .halt ∨ i = .nop ∨ i = .print ∨ i = .read ∨ i = .br → t.addrB = s.addrB ∧ t.addrS = s.addrS) ∧
    (i = .halt ∨ i = .nop ∨ i = .print ∨ i = .read ∨ i = .br → t.mem = s.mem) ∧
    (i = .cmp → s.mem.wf → t.mem = s.mem)

/-- R65, R57: no micro-cycle of the I-phase changes storage. -/
def Obligations.FetchLeavesStorage : Prop :=
  ∀ s t : State, s.mem.wf → s.phase = .I → step s = .next t → t.mem = s.mem

/-- R252, R248: no instruction is refused, and the only way one gives no state is the endless loop of the four
looping handlers. -/
def Obligations.OnlyEndlessLoopsStop : Prop :=
  ∀ (i : Instr) (s : State), (∀ r, exec i s ≠ .refused r) ∧
    (∀ f, exec i s = .fault f → f = .hang ∧ (i = .move ∨ i = .load ∨ i = .cmp ∨ i = .cs))

/-! The whole machine. -/

/-- Every step from a state of the shape `Inv` gives a state of that shape. -/
def Obligations.StepKeepsInvariant : Prop :=
  ∀ s t : State, Inv s → step s = .next t → Inv t

/-- The state after reset has the shape `Inv`. -/
def Obligations.ResetMeetsInvariant : Prop := Inv State.reset

/-- Loading a card and the reset port keep the shape `Inv` (R270, R273, R276). -/
def Obligations.PortsKeepInvariant : Prop :=
  ∀ (a : PortAction) (s t : State), Inv s → act a s = .next t → Inv t

/-- R38, R271: the reset values. -/
def Obligations.ResetValues : Prop :=
  (∀ i < State.reset.positions, State.reset.memPeek i = 0x40#8) ∧
  State.reset.addrA = addrEnc 0 ∧ State.reset.addrB = addrEnc 0 ∧
  State.reset.addrI = addrEnc 0 ∧ State.reset.addrS = addrEnc 0 ∧
  addrEnc 0 = ⟨0x4A#8, 0x4A#8, 0x4A#8⟩ ∧
  State.reset.areg = 0x40#8 ∧ State.reset.breg = 0x40#8 ∧ State.reset.ireg = 0x40#8 ∧
  State.reset.needsCheckA = false ∧ State.reset.needsCheckB = false ∧ State.reset.needsCheckI = false ∧
  State.reset.phase = .I ∧ State.reset.counter = 0 ∧
  State.reset.deferred = false ∧ State.reset.cycleElim = false ∧ State.reset.equal = false ∧
  State.reset.fault = none

/-- R270, R272: the reset port gives the reset state from any state, the configuration and the lines already
emitted apart, and a faulted machine steps again. Nothing is said of the model's own fields (the result port
and the latches of R34, log entries 11 and 12). -/
def Obligations.ResetPortRestores : Prop :=
  ∀ s : State, ∃ t, act .reset s = .next t ∧
    t = { State.reset with
      cfg := s.cfg
      printed := s.printed
      result := t.result
      eBoundary := t.eBoundary
      eFirst := t.eFirst } ∧
    (∀ i < t.positions, t.memPeek i = 0x40#8) ∧ ∃ u, step t = .next u

/-- R273: the load port. Byte `k` is written under the sticky rule, position 0 ends word-marked, bytes past
storage are ignored, and nothing but storage changes. -/
def Obligations.LoadPortCopiesCard : Prop :=
  ∀ (s : State) (bytes : List Word), s.mem.wf →
    ∃ m, act (.load bytes) s = .next { s with mem := m } ∧
      (∀ k (h : k < bytes.length), 1 ≤ k → k < s.positions → Memory.peek s.positions m k =
        if hasWM (s.memPeek k) then setWordMark bytes[k] else bytes[k]) ∧
      (∀ h : 0 < bytes.length, Memory.peek s.positions m 0 = setWordMark bytes[0]) ∧
      (bytes = [] → Memory.peek s.positions m 0 = setWordMark (s.memPeek 0)) ∧
      (∀ k, 1 ≤ k → bytes.length ≤ k → Memory.peek s.positions m k = s.memPeek k)

/-- R240, R241: which step gives which result; every step that gives a state gives one. -/
def Obligations.ResultsAndTheirCauses : Prop :=
  ∀ s t : State, step s = .next t →
    t.result ≠ none ∧
    (t.result = some .enterExecution ↔ s.phase = .I ∧ t.phase = .E) ∧
    (t.result = some .systemHalt ↔ s.phase = .E ∧ s.isOp .halt = true ∧ 9 < (digit s.ireg).toNat) ∧
    (t.result = some .needCard ↔ s.phase = .E ∧ s.isOp .read = true) ∧
    (∀ c, t.result = some (.unimplemented c) ↔ s.phase = .E ∧ c = code6 s.ireg ∧
      (s.isOp .br = true ∨ ∃ e, decode s.cfg s.ireg = .error e))

/-- R136, R243: after a step of the E-phase, whatever its result, the machine is in the I-phase at counter 0
and its next step runs: nothing latches a stop. -/
def Obligations.NoResultLatchesAStop : Prop :=
  ∀ s t : State, s.phase = .E → step s = .next t →
    t.phase = .I ∧ t.counter = 0 ∧ t.cycleElim = false ∧ t.addrI = s.addrI ∧ ∃ u, step t = .next u

/-- R120, R246: under a fault mark every step is stuck. -/
def Obligations.FaultMarkSticks : Prop :=
  ∀ (s : State) (name : FaultName), s.fault = some name → step s = .fault (.stuck name)

/-- R23: the I-register changes only in cycle 0 of the I-phase, which leaves its control bits clear. -/
def Obligations.IRegisterWrittenByCycleZero : Prop :=
  ∀ s t : State, step s = .next t →
    (¬(s.phase = .I ∧ s.counter = 0) → t.ireg = s.ireg) ∧
    (s.phase = .I → s.counter = 0 → t.ireg = t.breg &&& 0x3F#8)

/-- R31: what sets `deferred`, and that only cycle 0 clears it. -/
def Obligations.DeferredWriters : Prop :=
  ∀ s t : State, step s = .next t →
    (s.phase = .I → s.counter = 0 → t.deferred = false) ∧
    (¬(s.phase = .I ∧ s.counter = 0) → (t.deferred = true ↔ s.deferred = true ∨
      (s.phase = .I ∧ s.counter = 5 ∧ t.phase = .E ∧ s.isOp .br = true ∧ s.areg.getLsbD 0 = true) ∨
      (s.phase = .I ∧ s.counter = 7 ∧ s.isOp .cs = true) ∨
      (t.result = some .systemHalt ∧ 4 ≤ s.counter.val)))

/-- R24, R32, R33: the needs-check flags, `cycleElim` and `equal` are read by no rule: what a step does to the
rest of the state, and whether it stops, does not depend on them. -/
def Obligations.HousekeepingBitsAreNeverRead : Prop :=
  ∀ s : State, forgetOutcome (step s) = forgetOutcome (step s.forget)

/-- R33: `equal` is written by COMPARE alone. -/
def Obligations.EqualWrittenByCompare : Prop :=
  ∀ s t : State, step s = .next t → t.equal ≠ s.equal → s.phase = .E ∧ s.isOp .cmp = true

/-- R285, R164: only CLEAR WORD MARK, CLEAR STORAGE and, where A has none, MOVE-ZONE take a word-mark off a
position. -/
def Obligations.WordMarkRemovers : Prop :=
  ∀ (s t : State) (i : Nat), s.mem.wf → step s = .next t →
    hasWM (s.memPeek i) = true → hasWM (t.memPeek i) = false →
    s.phase = .E ∧ (s.isOp .cwm = true ∨ s.isOp .cs = true ∨
      (s.isOp .mz = true ∧ i = encoded s.addrB ∧ hasWM (s.memPeek (encoded s.addrA)) = false))

/-- R272, R10: no step and no port action changes the configuration, and no step takes back a printed line. -/
def Obligations.ConfigurationAndPrintedLinesStay : Prop :=
  ∀ (a : PortAction) (s t : State), act a s = .next t → t.cfg = s.cfg ∧ s.printed <+: t.printed

/-- R210, R217, R282: a HALT of four or more characters takes the next opcode, and only the opcode, from the
position `addrA` denotes; a shorter one, with no redirect pending, from `addrI`. -/
def Obligations.HaltRedirectsNextOpcode : Prop :=
  ∀ s : State, s.fault = none → s.mem.wf → s.phase = .E → s.isOp .halt = true →
    9 < (digit s.ireg).toNat → s.deferred = false →
    ∃ u v, step s = .next u ∧ u.result = some .systemHalt ∧ step u = .next v ∧
      v.ireg = (s.memPeek (addrInt (if 4 ≤ s.counter.val then s.addrA else s.addrI)) &&& 0x3F#8) ∧
      v.addrI = increase s.addrI ∧ v.addrA = s.addrA ∧ v.deferred = false
end

