-- ==== Sys2Proof/Laws/State.lean ====
section
/-!
SUPPORT. Every field after every named operation, one lemma each, true by definition.
-/
namespace Sys2Proof.Machine

/-! `memErase` -/

@[simp] theorem State.memErase_cfg (s : State) (i : Nat) :
    (s.memErase i).cfg = s.cfg := rfl
@[simp] theorem State.memErase_areg (s : State) (i : Nat) :
    (s.memErase i).areg = s.areg := rfl
@[simp] theorem State.memErase_breg (s : State) (i : Nat) :
    (s.memErase i).breg = s.breg := rfl
@[simp] theorem State.memErase_ireg (s : State) (i : Nat) :
    (s.memErase i).ireg = s.ireg := rfl
@[simp] theorem State.memErase_needsCheckA (s : State) (i : Nat) :
    (s.memErase i).needsCheckA = s.needsCheckA := rfl
@[simp] theorem State.memErase_needsCheckB (s : State) (i : Nat) :
    (s.memErase i).needsCheckB = s.needsCheckB := rfl
@[simp] theorem State.memErase_needsCheckI (s : State) (i : Nat) :
    (s.memErase i).needsCheckI = s.needsCheckI := rfl
@[simp] theorem State.memErase_addrA (s : State) (i : Nat) :
    (s.memErase i).addrA = s.addrA := rfl
@[simp] theorem State.memErase_addrB (s : State) (i : Nat) :
    (s.memErase i).addrB = s.addrB := rfl
@[simp] theorem State.memErase_addrI (s : State) (i : Nat) :
    (s.memErase i).addrI = s.addrI := rfl
@[simp] theorem State.memErase_addrS (s : State) (i : Nat) :
    (s.memErase i).addrS = s.addrS := rfl
@[simp] theorem State.memErase_phase (s : State) (i : Nat) :
    (s.memErase i).phase = s.phase := rfl
@[simp] theorem State.memErase_counter (s : State) (i : Nat) :
    (s.memErase i).counter = s.counter := rfl
@[simp] theorem State.memErase_deferred (s : State) (i : Nat) :
    (s.memErase i).deferred = s.deferred := rfl
@[simp] theorem State.memErase_cycleElim (s : State) (i : Nat) :
    (s.memErase i).cycleElim = s.cycleElim := rfl
@[simp] theorem State.memErase_equal (s : State) (i : Nat) :
    (s.memErase i).equal = s.equal := rfl
@[simp] theorem State.memErase_eBoundary (s : State) (i : Nat) :
    (s.memErase i).eBoundary = s.eBoundary := rfl
@[simp] theorem State.memErase_eFirst (s : State) (i : Nat) :
    (s.memErase i).eFirst = s.eFirst := rfl
@[simp] theorem State.memErase_mem (s : State) (i : Nat) :
    (s.memErase i).mem = Memory.erase s.positions s.mem i := rfl
@[simp] theorem State.memErase_fault (s : State) (i : Nat) :
    (s.memErase i).fault = s.fault := rfl
@[simp] theorem State.memErase_result (s : State) (i : Nat) :
    (s.memErase i).result = s.result := rfl
@[simp] theorem State.memErase_printed (s : State) (i : Nat) :
    (s.memErase i).printed = s.printed := rfl
@[simp] theorem State.memErase_positions (s : State) (i : Nat) :
    (s.memErase i).positions = s.positions := by simp only [State.positions, State.memErase_cfg]

/-! `memWrite` -/

@[simp] theorem State.memWrite_cfg (s : State) (i : Nat) (v : Word) :
    (s.memWrite i v).cfg = s.cfg := rfl
@[simp] theorem State.memWrite_areg (s : State) (i : Nat) (v : Word) :
    (s.memWrite i v).areg = s.areg := rfl
@[simp] theorem State.memWrite_breg (s : State) (i : Nat) (v : Word) :
    (s.memWrite i v).breg = s.breg := rfl
@[simp] theorem State.memWrite_ireg (s : State) (i : Nat) (v : Word) :
    (s.memWrite i v).ireg = s.ireg := rfl
@[simp] theorem State.memWrite_needsCheckA (s : State) (i : Nat) (v : Word) :
    (s.memWrite i v).needsCheckA = s.needsCheckA := rfl
@[simp] theorem State.memWrite_needsCheckB (s : State) (i : Nat) (v : Word) :
    (s.memWrite i v).needsCheckB = s.needsCheckB := rfl
@[simp] theorem State.memWrite_needsCheckI (s : State) (i : Nat) (v : Word) :
    (s.memWrite i v).needsCheckI = s.needsCheckI := rfl
@[simp] theorem State.memWrite_addrA (s : State) (i : Nat) (v : Word) :
    (s.memWrite i v).addrA = s.addrA := rfl
@[simp] theorem State.memWrite_addrB (s : State) (i : Nat) (v : Word) :
    (s.memWrite i v).addrB = s.addrB := rfl
@[simp] theorem State.memWrite_addrI (s : State) (i : Nat) (v : Word) :
    (s.memWrite i v).addrI = s.addrI := rfl
@[simp] theorem State.memWrite_addrS (s : State) (i : Nat) (v : Word) :
    (s.memWrite i v).addrS = s.addrS := rfl
@[simp] theorem State.memWrite_phase (s : State) (i : Nat) (v : Word) :
    (s.memWrite i v).phase = s.phase := rfl
@[simp] theorem State.memWrite_counter (s : State) (i : Nat) (v : Word) :
    (s.memWrite i v).counter = s.counter := rfl
@[simp] theorem State.memWrite_deferred (s : State) (i : Nat) (v : Word) :
    (s.memWrite i v).deferred = s.deferred := rfl
@[simp] theorem State.memWrite_cycleElim (s : State) (i : Nat) (v : Word) :
    (s.memWrite i v).cycleElim = s.cycleElim := rfl
@[simp] theorem State.memWrite_equal (s : State) (i : Nat) (v : Word) :
    (s.memWrite i v).equal = s.equal := rfl
@[simp] theorem State.memWrite_eBoundary (s : State) (i : Nat) (v : Word) :
    (s.memWrite i v).eBoundary = s.eBoundary := rfl
@[simp] theorem State.memWrite_eFirst (s : State) (i : Nat) (v : Word) :
    (s.memWrite i v).eFirst = s.eFirst := rfl
@[simp] theorem State.memWrite_mem (s : State) (i : Nat) (v : Word) :
    (s.memWrite i v).mem = Memory.write s.positions s.mem i v := rfl
@[simp] theorem State.memWrite_fault (s : State) (i : Nat) (v : Word) :
    (s.memWrite i v).fault = s.fault := rfl
@[simp] theorem State.memWrite_result (s : State) (i : Nat) (v : Word) :
    (s.memWrite i v).result = s.result := rfl
@[simp] theorem State.memWrite_printed (s : State) (i : Nat) (v : Word) :
    (s.memWrite i v).printed = s.printed := rfl
@[simp] theorem State.memWrite_positions (s : State) (i : Nat) (v : Word) :
    (s.memWrite i v).positions = s.positions := by simp only [State.positions, State.memWrite_cfg]

/-! `memSetWM` -/

@[simp] theorem State.memSetWM_cfg (s : State) (i : Nat) :
    (s.memSetWM i).cfg = s.cfg := rfl
@[simp] theorem State.memSetWM_areg (s : State) (i : Nat) :
    (s.memSetWM i).areg = s.areg := rfl
@[simp] theorem State.memSetWM_breg (s : State) (i : Nat) :
    (s.memSetWM i).breg = s.breg := rfl
@[simp] theorem State.memSetWM_ireg (s : State) (i : Nat) :
    (s.memSetWM i).ireg = s.ireg := rfl
@[simp] theorem State.memSetWM_needsCheckA (s : State) (i : Nat) :
    (s.memSetWM i).needsCheckA = s.needsCheckA := rfl
@[simp] theorem State.memSetWM_needsCheckB (s : State) (i : Nat) :
    (s.memSetWM i).needsCheckB = s.needsCheckB := rfl
@[simp] theorem State.memSetWM_needsCheckI (s : State) (i : Nat) :
    (s.memSetWM i).needsCheckI = s.needsCheckI := rfl
@[simp] theorem State.memSetWM_addrA (s : State) (i : Nat) :
    (s.memSetWM i).addrA = s.addrA := rfl
@[simp] theorem State.memSetWM_addrB (s : State) (i : Nat) :
    (s.memSetWM i).addrB = s.addrB := rfl
@[simp] theorem State.memSetWM_addrI (s : State) (i : Nat) :
    (s.memSetWM i).addrI = s.addrI := rfl
@[simp] theorem State.memSetWM_addrS (s : State) (i : Nat) :
    (s.memSetWM i).addrS = s.addrS := rfl
@[simp] theorem State.memSetWM_phase (s : State) (i : Nat) :
    (s.memSetWM i).phase = s.phase := rfl
@[simp] theorem State.memSetWM_counter (s : State) (i : Nat) :
    (s.memSetWM i).counter = s.counter := rfl
@[simp] theorem State.memSetWM_deferred (s : State) (i : Nat) :
    (s.memSetWM i).deferred = s.deferred := rfl
@[simp] theorem State.memSetWM_cycleElim (s : State) (i : Nat) :
    (s.memSetWM i).cycleElim = s.cycleElim := rfl
@[simp] theorem State.memSetWM_equal (s : State) (i : Nat) :
    (s.memSetWM i).equal = s.equal := rfl
@[simp] theorem State.memSetWM_eBoundary (s : State) (i : Nat) :
    (s.memSetWM i).eBoundary = s.eBoundary := rfl
@[simp] theorem State.memSetWM_eFirst (s : State) (i : Nat) :
    (s.memSetWM i).eFirst = s.eFirst := rfl
@[simp] theorem State.memSetWM_mem (s : State) (i : Nat) :
    (s.memSetWM i).mem = Memory.mutate s.positions setWordMark s.mem i := rfl
@[simp] theorem State.memSetWM_fault (s : State) (i : Nat) :
    (s.memSetWM i).fault = s.fault := rfl
@[simp] theorem State.memSetWM_result (s : State) (i : Nat) :
    (s.memSetWM i).result = s.result := rfl
@[simp] theorem State.memSetWM_printed (s : State) (i : Nat) :
    (s.memSetWM i).printed = s.printed := rfl
@[simp] theorem State.memSetWM_positions (s : State) (i : Nat) :
    (s.memSetWM i).positions = s.positions := by simp only [State.positions, State.memSetWM_cfg]

/-! `memClearWM` -/

@[simp] theorem State.memClearWM_cfg (s : State) (i : Nat) :
    (s.memClearWM i).cfg = s.cfg := rfl
@[simp] theorem State.memClearWM_areg (s : State) (i : Nat) :
    (s.memClearWM i).areg = s.areg := rfl
@[simp] theorem State.memClearWM_breg (s : State) (i : Nat) :
    (s.memClearWM i).breg = s.breg := rfl
@[simp] theorem State.memClearWM_ireg (s : State) (i : Nat) :
    (s.memClearWM i).ireg = s.ireg := rfl
@[simp] theorem State.memClearWM_needsCheckA (s : State) (i : Nat) :
    (s.memClearWM i).needsCheckA = s.needsCheckA := rfl
@[simp] theorem State.memClearWM_needsCheckB (s : State) (i : Nat) :
    (s.memClearWM i).needsCheckB = s.needsCheckB := rfl
@[simp] theorem State.memClearWM_needsCheckI (s : State) (i : Nat) :
    (s.memClearWM i).needsCheckI = s.needsCheckI := rfl
@[simp] theorem State.memClearWM_addrA (s : State) (i : Nat) :
    (s.memClearWM i).addrA = s.addrA := rfl
@[simp] theorem State.memClearWM_addrB (s : State) (i : Nat) :
    (s.memClearWM i).addrB = s.addrB := rfl
@[simp] theorem State.memClearWM_addrI (s : State) (i : Nat) :
    (s.memClearWM i).addrI = s.addrI := rfl
@[simp] theorem State.memClearWM_addrS (s : State) (i : Nat) :
    (s.memClearWM i).addrS = s.addrS := rfl
@[simp] theorem State.memClearWM_phase (s : State) (i : Nat) :
    (s.memClearWM i).phase = s.phase := rfl
@[simp] theorem State.memClearWM_counter (s : State) (i : Nat) :
    (s.memClearWM i).counter = s.counter := rfl
@[simp] theorem State.memClearWM_deferred (s : State) (i : Nat) :
    (s.memClearWM i).deferred = s.deferred := rfl
@[simp] theorem State.memClearWM_cycleElim (s : State) (i : Nat) :
    (s.memClearWM i).cycleElim = s.cycleElim := rfl
@[simp] theorem State.memClearWM_equal (s : State) (i : Nat) :
    (s.memClearWM i).equal = s.equal := rfl
@[simp] theorem State.memClearWM_eBoundary (s : State) (i : Nat) :
    (s.memClearWM i).eBoundary = s.eBoundary := rfl
@[simp] theorem State.memClearWM_eFirst (s : State) (i : Nat) :
    (s.memClearWM i).eFirst = s.eFirst := rfl
@[simp] theorem State.memClearWM_mem (s : State) (i : Nat) :
    (s.memClearWM i).mem = Memory.mutate s.positions clearWordMark s.mem i := rfl
@[simp] theorem State.memClearWM_fault (s : State) (i : Nat) :
    (s.memClearWM i).fault = s.fault := rfl
@[simp] theorem State.memClearWM_result (s : State) (i : Nat) :
    (s.memClearWM i).result = s.result := rfl
@[simp] theorem State.memClearWM_printed (s : State) (i : Nat) :
    (s.memClearWM i).printed = s.printed := rfl
@[simp] theorem State.memClearWM_positions (s : State) (i : Nat) :
    (s.memClearWM i).positions = s.positions := by simp only [State.positions, State.memClearWM_cfg]

/-! `memSetC` -/

@[simp] theorem State.memSetC_cfg (s : State) (i : Nat) :
    (s.memSetC i).cfg = s.cfg := rfl
@[simp] theorem State.memSetC_areg (s : State) (i : Nat) :
    (s.memSetC i).areg = s.areg := rfl
@[simp] theorem State.memSetC_breg (s : State) (i : Nat) :
    (s.memSetC i).breg = s.breg := rfl
@[simp] theorem State.memSetC_ireg (s : State) (i : Nat) :
    (s.memSetC i).ireg = s.ireg := rfl
@[simp] theorem State.memSetC_needsCheckA (s : State) (i : Nat) :
    (s.memSetC i).needsCheckA = s.needsCheckA := rfl
@[simp] theorem State.memSetC_needsCheckB (s : State) (i : Nat) :
    (s.memSetC i).needsCheckB = s.needsCheckB := rfl
@[simp] theorem State.memSetC_needsCheckI (s : State) (i : Nat) :
    (s.memSetC i).needsCheckI = s.needsCheckI := rfl
@[simp] theorem State.memSetC_addrA (s : State) (i : Nat) :
    (s.memSetC i).addrA = s.addrA := rfl
@[simp] theorem State.memSetC_addrB (s : State) (i : Nat) :
    (s.memSetC i).addrB = s.addrB := rfl
@[simp] theorem State.memSetC_addrI (s : State) (i : Nat) :
    (s.memSetC i).addrI = s.addrI := rfl
@[simp] theorem State.memSetC_addrS (s : State) (i : Nat) :
    (s.memSetC i).addrS = s.addrS := rfl
@[simp] theorem State.memSetC_phase (s : State) (i : Nat) :
    (s.memSetC i).phase = s.phase := rfl
@[simp] theorem State.memSetC_counter (s : State) (i : Nat) :
    (s.memSetC i).counter = s.counter := rfl
@[simp] theorem State.memSetC_deferred (s : State) (i : Nat) :
    (s.memSetC i).deferred = s.deferred := rfl
@[simp] theorem State.memSetC_cycleElim (s : State) (i : Nat) :
    (s.memSetC i).cycleElim = s.cycleElim := rfl
@[simp] theorem State.memSetC_equal (s : State) (i : Nat) :
    (s.memSetC i).equal = s.equal := rfl
@[simp] theorem State.memSetC_eBoundary (s : State) (i : Nat) :
    (s.memSetC i).eBoundary = s.eBoundary := rfl
@[simp] theorem State.memSetC_eFirst (s : State) (i : Nat) :
    (s.memSetC i).eFirst = s.eFirst := rfl
@[simp] theorem State.memSetC_mem (s : State) (i : Nat) :
    (s.memSetC i).mem = Memory.mutate s.positions setCheckBit s.mem i := rfl
@[simp] theorem State.memSetC_fault (s : State) (i : Nat) :
    (s.memSetC i).fault = s.fault := rfl
@[simp] theorem State.memSetC_result (s : State) (i : Nat) :
    (s.memSetC i).result = s.result := rfl
@[simp] theorem State.memSetC_printed (s : State) (i : Nat) :
    (s.memSetC i).printed = s.printed := rfl
@[simp] theorem State.memSetC_positions (s : State) (i : Nat) :
    (s.memSetC i).positions = s.positions := by simp only [State.positions, State.memSetC_cfg]

/-! `setA` -/

@[simp] theorem State.setA_cfg (s : State) (w : Word) :
    (s.setA w).cfg = s.cfg := rfl
@[simp] theorem State.setA_areg (s : State) (w : Word) :
    (s.setA w).areg = w := rfl
@[simp] theorem State.setA_breg (s : State) (w : Word) :
    (s.setA w).breg = s.breg := rfl
@[simp] theorem State.setA_ireg (s : State) (w : Word) :
    (s.setA w).ireg = s.ireg := rfl
@[simp] theorem State.setA_needsCheckA (s : State) (w : Word) :
    (s.setA w).needsCheckA = true := rfl
@[simp] theorem State.setA_needsCheckB (s : State) (w : Word) :
    (s.setA w).needsCheckB = s.needsCheckB := rfl
@[simp] theorem State.setA_needsCheckI (s : State) (w : Word) :
    (s.setA w).needsCheckI = s.needsCheckI := rfl
@[simp] theorem State.setA_addrA (s : State) (w : Word) :
    (s.setA w).addrA = s.addrA := rfl
@[simp] theorem State.setA_addrB (s : State) (w : Word) :
    (s.setA w).addrB = s.addrB := rfl
@[simp] theorem State.setA_addrI (s : State) (w : Word) :
    (s.setA w).addrI = s.addrI := rfl
@[simp] theorem State.setA_addrS (s : State) (w : Word) :
    (s.setA w).addrS = s.addrS := rfl
@[simp] theorem State.setA_phase (s : State) (w : Word) :
    (s.setA w).phase = s.phase := rfl
@[simp] theorem State.setA_counter (s : State) (w : Word) :
    (s.setA w).counter = s.counter := rfl
@[simp] theorem State.setA_deferred (s : State) (w : Word) :
    (s.setA w).deferred = s.deferred := rfl
@[simp] theorem State.setA_cycleElim (s : State) (w : Word) :
    (s.setA w).cycleElim = s.cycleElim := rfl
@[simp] theorem State.setA_equal (s : State) (w : Word) :
    (s.setA w).equal = s.equal := rfl
@[simp] theorem State.setA_eBoundary (s : State) (w : Word) :
    (s.setA w).eBoundary = s.eBoundary := rfl
@[simp] theorem State.setA_eFirst (s : State) (w : Word) :
    (s.setA w).eFirst = s.eFirst := rfl
@[simp] theorem State.setA_mem (s : State) (w : Word) :
    (s.setA w).mem = s.mem := rfl
@[simp] theorem State.setA_fault (s : State) (w : Word) :
    (s.setA w).fault = s.fault := rfl
@[simp] theorem State.setA_result (s : State) (w : Word) :
    (s.setA w).result = s.result := rfl
@[simp] theorem State.setA_printed (s : State) (w : Word) :
    (s.setA w).printed = s.printed := rfl
@[simp] theorem State.setA_memPeek (s : State) (w : Word) (x : Nat) :
    (s.setA w).memPeek x = s.memPeek x := rfl
@[simp] theorem State.setA_positions (s : State) (w : Word) :
    (s.setA w).positions = s.positions := by simp only [State.positions, State.setA_cfg]

/-! `setB` -/

@[simp] theorem State.setB_cfg (s : State) (w : Word) :
    (s.setB w).cfg = s.cfg := rfl
@[simp] theorem State.setB_areg (s : State) (w : Word) :
    (s.setB w).areg = s.areg := rfl
@[simp] theorem State.setB_breg (s : State) (w : Word) :
    (s.setB w).breg = w := rfl
@[simp] theorem State.setB_ireg (s : State) (w : Word) :
    (s.setB w).ireg = s.ireg := rfl
@[simp] theorem State.setB_needsCheckA (s : State) (w : Word) :
    (s.setB w).needsCheckA = s.needsCheckA := rfl
@[simp] theorem State.setB_needsCheckB (s : State) (w : Word) :
    (s.setB w).needsCheckB = true := rfl
@[simp] theorem State.setB_needsCheckI (s : State) (w : Word) :
    (s.setB w).needsCheckI = s.needsCheckI := rfl
@[simp] theorem State.setB_addrA (s : State) (w : Word) :
    (s.setB w).addrA = s.addrA := rfl
@[simp] theorem State.setB_addrB (s : State) (w : Word) :
    (s.setB w).addrB = s.addrB := rfl
@[simp] theorem State.setB_addrI (s : State) (w : Word) :
    (s.setB w).addrI = s.addrI := rfl
@[simp] theorem State.setB_addrS (s : State) (w : Word) :
    (s.setB w).addrS = s.addrS := rfl
@[simp] theorem State.setB_phase (s : State) (w : Word) :
    (s.setB w).phase = s.phase := rfl
@[simp] theorem State.setB_counter (s : State) (w : Word) :
    (s.setB w).counter = s.counter := rfl
@[simp] theorem State.setB_deferred (s : State) (w : Word) :
    (s.setB w).deferred = s.deferred := rfl
@[simp] theorem State.setB_cycleElim (s : State) (w : Word) :
    (s.setB w).cycleElim = s.cycleElim := rfl
@[simp] theorem State.setB_equal (s : State) (w : Word) :
    (s.setB w).equal = s.equal := rfl
@[simp] theorem State.setB_eBoundary (s : State) (w : Word) :
    (s.setB w).eBoundary = s.eBoundary := rfl
@[simp] theorem State.setB_eFirst (s : State) (w : Word) :
    (s.setB w).eFirst = s.eFirst := rfl
@[simp] theorem State.setB_mem (s : State) (w : Word) :
    (s.setB w).mem = s.mem := rfl
@[simp] theorem State.setB_fault (s : State) (w : Word) :
    (s.setB w).fault = s.fault := rfl
@[simp] theorem State.setB_result (s : State) (w : Word) :
    (s.setB w).result = s.result := rfl
@[simp] theorem State.setB_printed (s : State) (w : Word) :
    (s.setB w).printed = s.printed := rfl
@[simp] theorem State.setB_memPeek (s : State) (w : Word) (x : Nat) :
    (s.setB w).memPeek x = s.memPeek x := rfl
@[simp] theorem State.setB_positions (s : State) (w : Word) :
    (s.setB w).positions = s.positions := by simp only [State.positions, State.setB_cfg]

/-! `setI` -/

@[simp] theorem State.setI_cfg (s : State) (w : Word) :
    (s.setI w).cfg = s.cfg := rfl
@[simp] theorem State.setI_areg (s : State) (w : Word) :
    (s.setI w).areg = s.areg := rfl
@[simp] theorem State.setI_breg (s : State) (w : Word) :
    (s.setI w).breg = s.breg := rfl
@[simp] theorem State.setI_ireg (s : State) (w : Word) :
    (s.setI w).ireg = w := rfl
@[simp] theorem State.setI_needsCheckA (s : State) (w : Word) :
    (s.setI w).needsCheckA = s.needsCheckA := rfl
@[simp] theorem State.setI_needsCheckB (s : State) (w : Word) :
    (s.setI w).needsCheckB = s.needsCheckB := rfl
@[simp] theorem State.setI_needsCheckI (s : State) (w : Word) :
    (s.setI w).needsCheckI = true := rfl
@[simp] theorem State.setI_addrA (s : State) (w : Word) :
    (s.setI w).addrA = s.addrA := rfl
@[simp] theorem State.setI_addrB (s : State) (w : Word) :
    (s.setI w).addrB = s.addrB := rfl
@[simp] theorem State.setI_addrI (s : State) (w : Word) :
    (s.setI w).addrI = s.addrI := rfl
@[simp] theorem State.setI_addrS (s : State) (w : Word) :
    (s.setI w).addrS = s.addrS := rfl
@[simp] theorem State.setI_phase (s : State) (w : Word) :
    (s.setI w).phase = s.phase := rfl
@[simp] theorem State.setI_counter (s : State) (w : Word) :
    (s.setI w).counter = s.counter := rfl
@[simp] theorem State.setI_deferred (s : State) (w : Word) :
    (s.setI w).deferred = s.deferred := rfl
@[simp] theorem State.setI_cycleElim (s : State) (w : Word) :
    (s.setI w).cycleElim = s.cycleElim := rfl
@[simp] theorem State.setI_equal (s : State) (w : Word) :
    (s.setI w).equal = s.equal := rfl
@[simp] theorem State.setI_eBoundary (s : State) (w : Word) :
    (s.setI w).eBoundary = s.eBoundary := rfl
@[simp] theorem State.setI_eFirst (s : State) (w : Word) :
    (s.setI w).eFirst = s.eFirst := rfl
@[simp] theorem State.setI_mem (s : State) (w : Word) :
    (s.setI w).mem = s.mem := rfl
@[simp] theorem State.setI_fault (s : State) (w : Word) :
    (s.setI w).fault = s.fault := rfl
@[simp] theorem State.setI_result (s : State) (w : Word) :
    (s.setI w).result = s.result := rfl
@[simp] theorem State.setI_printed (s : State) (w : Word) :
    (s.setI w).printed = s.printed := rfl
@[simp] theorem State.setI_memPeek (s : State) (w : Word) (x : Nat) :
    (s.setI w).memPeek x = s.memPeek x := rfl
@[simp] theorem State.setI_positions (s : State) (w : Word) :
    (s.setI w).positions = s.positions := by simp only [State.positions, State.setI_cfg]

/-! `latchA` -/

@[simp] theorem State.latchA_cfg (s : State) :
    s.latchA.cfg = s.cfg := rfl
@[simp] theorem State.latchA_areg (s : State) :
    s.latchA.areg = s.areg := rfl
@[simp] theorem State.latchA_breg (s : State) :
    s.latchA.breg = s.breg := rfl
@[simp] theorem State.latchA_ireg (s : State) :
    s.latchA.ireg = s.ireg := rfl
@[simp] theorem State.latchA_needsCheckA (s : State) :
    s.latchA.needsCheckA = s.needsCheckA := rfl
@[simp] theorem State.latchA_needsCheckB (s : State) :
    s.latchA.needsCheckB = s.needsCheckB := rfl
@[simp] theorem State.latchA_needsCheckI (s : State) :
    s.latchA.needsCheckI = s.needsCheckI := rfl
@[simp] theorem State.latchA_addrA (s : State) :
    s.latchA.addrA = s.addrA := rfl
@[simp] theorem State.latchA_addrB (s : State) :
    s.latchA.addrB = s.addrB := rfl
@[simp] theorem State.latchA_addrI (s : State) :
    s.latchA.addrI = s.addrI := rfl
@[simp] theorem State.latchA_addrS (s : State) :
    s.latchA.addrS = s.addrA := rfl
@[simp] theorem State.latchA_phase (s : State) :
    s.latchA.phase = s.phase := rfl
@[simp] theorem State.latchA_counter (s : State) :
    s.latchA.counter = s.counter := rfl
@[simp] theorem State.latchA_deferred (s : State) :
    s.latchA.deferred = s.deferred := rfl
@[simp] theorem State.latchA_cycleElim (s : State) :
    s.latchA.cycleElim = s.cycleElim := rfl
@[simp] theorem State.latchA_equal (s : State) :
    s.latchA.equal = s.equal := rfl
@[simp] theorem State.latchA_eBoundary (s : State) :
    s.latchA.eBoundary = s.eBoundary := rfl
@[simp] theorem State.latchA_eFirst (s : State) :
    s.latchA.eFirst = s.eFirst := rfl
@[simp] theorem State.latchA_mem (s : State) :
    s.latchA.mem = s.mem := rfl
@[simp] theorem State.latchA_fault (s : State) :
    s.latchA.fault = s.fault := rfl
@[simp] theorem State.latchA_result (s : State) :
    s.latchA.result = s.result := rfl
@[simp] theorem State.latchA_printed (s : State) :
    s.latchA.printed = s.printed := rfl
@[simp] theorem State.latchA_memPeek (s : State) (x : Nat) :
    s.latchA.memPeek x = s.memPeek x := rfl
@[simp] theorem State.latchA_positions (s : State) :
    s.latchA.positions = s.positions := by simp only [State.positions, State.latchA_cfg]

/-! `latchB` -/

@[simp] theorem State.latchB_cfg (s : State) :
    s.latchB.cfg = s.cfg := rfl
@[simp] theorem State.latchB_areg (s : State) :
    s.latchB.areg = s.areg := rfl
@[simp] theorem State.latchB_breg (s : State) :
    s.latchB.breg = s.breg := rfl
@[simp] theorem State.latchB_ireg (s : State) :
    s.latchB.ireg = s.ireg := rfl
@[simp] theorem State.latchB_needsCheckA (s : State) :
    s.latchB.needsCheckA = s.needsCheckA := rfl
@[simp] theorem State.latchB_needsCheckB (s : State) :
    s.latchB.needsCheckB = s.needsCheckB := rfl
@[simp] theorem State.latchB_needsCheckI (s : State) :
    s.latchB.needsCheckI = s.needsCheckI := rfl
@[simp] theorem State.latchB_addrA (s : State) :
    s.latchB.addrA = s.addrA := rfl
@[simp] theorem State.latchB_addrB (s : State) :
    s.latchB.addrB = s.addrB := rfl
@[simp] theorem State.latchB_addrI (s : State) :
    s.latchB.addrI = s.addrI := rfl
@[simp] theorem State.latchB_addrS (s : State) :
    s.latchB.addrS = s.addrB := rfl
@[simp] theorem State.latchB_phase (s : State) :
    s.latchB.phase = s.phase := rfl
@[simp] theorem State.latchB_counter (s : State) :
    s.latchB.counter = s.counter := rfl
@[simp] theorem State.latchB_deferred (s : State) :
    s.latchB.deferred = s.deferred := rfl
@[simp] theorem State.latchB_cycleElim (s : State) :
    s.latchB.cycleElim = s.cycleElim := rfl
@[simp] theorem State.latchB_equal (s : State) :
    s.latchB.equal = s.equal := rfl
@[simp] theorem State.latchB_eBoundary (s : State) :
    s.latchB.eBoundary = s.eBoundary := rfl
@[simp] theorem State.latchB_eFirst (s : State) :
    s.latchB.eFirst = s.eFirst := rfl
@[simp] theorem State.latchB_mem (s : State) :
    s.latchB.mem = s.mem := rfl
@[simp] theorem State.latchB_fault (s : State) :
    s.latchB.fault = s.fault := rfl
@[simp] theorem State.latchB_result (s : State) :
    s.latchB.result = s.result := rfl
@[simp] theorem State.latchB_printed (s : State) :
    s.latchB.printed = s.printed := rfl
@[simp] theorem State.latchB_memPeek (s : State) (x : Nat) :
    s.latchB.memPeek x = s.memPeek x := rfl
@[simp] theorem State.latchB_positions (s : State) :
    s.latchB.positions = s.positions := by simp only [State.positions, State.latchB_cfg]

/-! `latchI` -/

@[simp] theorem State.latchI_cfg (s : State) :
    s.latchI.cfg = s.cfg := rfl
@[simp] theorem State.latchI_areg (s : State) :
    s.latchI.areg = s.areg := rfl
@[simp] theorem State.latchI_breg (s : State) :
    s.latchI.breg = s.breg := rfl
@[simp] theorem State.latchI_ireg (s : State) :
    s.latchI.ireg = s.ireg := rfl
@[simp] theorem State.latchI_needsCheckA (s : State) :
    s.latchI.needsCheckA = s.needsCheckA := rfl
@[simp] theorem State.latchI_needsCheckB (s : State) :
    s.latchI.needsCheckB = s.needsCheckB := rfl
@[simp] theorem State.latchI_needsCheckI (s : State) :
    s.latchI.needsCheckI = s.needsCheckI := rfl
@[simp] theorem State.latchI_addrA (s : State) :
    s.latchI.addrA = s.addrA := rfl
@[simp] theorem State.latchI_addrB (s : State) :
    s.latchI.addrB = s.addrB := rfl
@[simp] theorem State.latchI_addrI (s : State) :
    s.latchI.addrI = s.addrI := rfl
@[simp] theorem State.latchI_addrS (s : State) :
    s.latchI.addrS = s.addrI := rfl
@[simp] theorem State.latchI_phase (s : State) :
    s.latchI.phase = s.phase := rfl
@[simp] theorem State.latchI_counter (s : State) :
    s.latchI.counter = s.counter := rfl
@[simp] theorem State.latchI_deferred (s : State) :
    s.latchI.deferred = s.deferred := rfl
@[simp] theorem State.latchI_cycleElim (s : State) :
    s.latchI.cycleElim = s.cycleElim := rfl
@[simp] theorem State.latchI_equal (s : State) :
    s.latchI.equal = s.equal := rfl
@[simp] theorem State.latchI_eBoundary (s : State) :
    s.latchI.eBoundary = s.eBoundary := rfl
@[simp] theorem State.latchI_eFirst (s : State) :
    s.latchI.eFirst = s.eFirst := rfl
@[simp] theorem State.latchI_mem (s : State) :
    s.latchI.mem = s.mem := rfl
@[simp] theorem State.latchI_fault (s : State) :
    s.latchI.fault = s.fault := rfl
@[simp] theorem State.latchI_result (s : State) :
    s.latchI.result = s.result := rfl
@[simp] theorem State.latchI_printed (s : State) :
    s.latchI.printed = s.printed := rfl
@[simp] theorem State.latchI_memPeek (s : State) (x : Nat) :
    s.latchI.memPeek x = s.memPeek x := rfl
@[simp] theorem State.latchI_positions (s : State) :
    s.latchI.positions = s.positions := by simp only [State.positions, State.latchI_cfg]

/-! `decA` -/

@[simp] theorem State.decA_cfg (s : State) :
    s.decA.cfg = s.cfg := rfl
@[simp] theorem State.decA_areg (s : State) :
    s.decA.areg = s.areg := rfl
@[simp] theorem State.decA_breg (s : State) :
    s.decA.breg = s.breg := rfl
@[simp] theorem State.decA_ireg (s : State) :
    s.decA.ireg = s.ireg := rfl
@[simp] theorem State.decA_needsCheckA (s : State) :
    s.decA.needsCheckA = s.needsCheckA := rfl
@[simp] theorem State.decA_needsCheckB (s : State) :
    s.decA.needsCheckB = s.needsCheckB := rfl
@[simp] theorem State.decA_needsCheckI (s : State) :
    s.decA.needsCheckI = s.needsCheckI := rfl
@[simp] theorem State.decA_addrA (s : State) :
    s.decA.addrA = decrease s.addrA := rfl
@[simp] theorem State.decA_addrB (s : State) :
    s.decA.addrB = s.addrB := rfl
@[simp] theorem State.decA_addrI (s : State) :
    s.decA.addrI = s.addrI := rfl
@[simp] theorem State.decA_addrS (s : State) :
    s.decA.addrS = s.addrS := rfl
@[simp] theorem State.decA_phase (s : State) :
    s.decA.phase = s.phase := rfl
@[simp] theorem State.decA_counter (s : State) :
    s.decA.counter = s.counter := rfl
@[simp] theorem State.decA_deferred (s : State) :
    s.decA.deferred = s.deferred := rfl
@[simp] theorem State.decA_cycleElim (s : State) :
    s.decA.cycleElim = s.cycleElim := rfl
@[simp] theorem State.decA_equal (s : State) :
    s.decA.equal = s.equal := rfl
@[simp] theorem State.decA_eBoundary (s : State) :
    s.decA.eBoundary = s.eBoundary := rfl
@[simp] theorem State.decA_eFirst (s : State) :
    s.decA.eFirst = s.eFirst := rfl
@[simp] theorem State.decA_mem (s : State) :
    s.decA.mem = s.mem := rfl
@[simp] theorem State.decA_fault (s : State) :
    s.decA.fault = s.fault := rfl
@[simp] theorem State.decA_result (s : State) :
    s.decA.result = s.result := rfl
@[simp] theorem State.decA_printed (s : State) :
    s.decA.printed = s.printed := rfl
@[simp] theorem State.decA_memPeek (s : State) (x : Nat) :
    s.decA.memPeek x = s.memPeek x := rfl
@[simp] theorem State.decA_positions (s : State) :
    s.decA.positions = s.positions := by simp only [State.positions, State.decA_cfg]

/-! `decB` -/

@[simp] theorem State.decB_cfg (s : State) :
    s.decB.cfg = s.cfg := rfl
@[simp] theorem State.decB_areg (s : State) :
    s.decB.areg = s.areg := rfl
@[simp] theorem State.decB_breg (s : State) :
    s.decB.breg = s.breg := rfl
@[simp] theorem State.decB_ireg (s : State) :
    s.decB.ireg = s.ireg := rfl
@[simp] theorem State.decB_needsCheckA (s : State) :
    s.decB.needsCheckA = s.needsCheckA := rfl
@[simp] theorem State.decB_needsCheckB (s : State) :
    s.decB.needsCheckB = s.needsCheckB := rfl
@[simp] theorem State.decB_needsCheckI (s : State) :
    s.decB.needsCheckI = s.needsCheckI := rfl
@[simp] theorem State.decB_addrA (s : State) :
    s.decB.addrA = s.addrA := rfl
@[simp] theorem State.decB_addrB (s : State) :
    s.decB.addrB = decrease s.addrB := rfl
@[simp] theorem State.decB_addrI (s : State) :
    s.decB.addrI = s.addrI := rfl
@[simp] theorem State.decB_addrS (s : State) :
    s.decB.addrS = s.addrS := rfl
@[simp] theorem State.decB_phase (s : State) :
    s.decB.phase = s.phase := rfl
@[simp] theorem State.decB_counter (s : State) :
    s.decB.counter = s.counter := rfl
@[simp] theorem State.decB_deferred (s : State) :
    s.decB.deferred = s.deferred := rfl
@[simp] theorem State.decB_cycleElim (s : State) :
    s.decB.cycleElim = s.cycleElim := rfl
@[simp] theorem State.decB_equal (s : State) :
    s.decB.equal = s.equal := rfl
@[simp] theorem State.decB_eBoundary (s : State) :
    s.decB.eBoundary = s.eBoundary := rfl
@[simp] theorem State.decB_eFirst (s : State) :
    s.decB.eFirst = s.eFirst := rfl
@[simp] theorem State.decB_mem (s : State) :
    s.decB.mem = s.mem := rfl
@[simp] theorem State.decB_fault (s : State) :
    s.decB.fault = s.fault := rfl
@[simp] theorem State.decB_result (s : State) :
    s.decB.result = s.result := rfl
@[simp] theorem State.decB_printed (s : State) :
    s.decB.printed = s.printed := rfl
@[simp] theorem State.decB_memPeek (s : State) (x : Nat) :
    s.decB.memPeek x = s.memPeek x := rfl
@[simp] theorem State.decB_positions (s : State) :
    s.decB.positions = s.positions := by simp only [State.positions, State.decB_cfg]

/-! `incI` -/

@[simp] theorem State.incI_cfg (s : State) :
    s.incI.cfg = s.cfg := rfl
@[simp] theorem State.incI_areg (s : State) :
    s.incI.areg = s.areg := rfl
@[simp] theorem State.incI_breg (s : State) :
    s.incI.breg = s.breg := rfl
@[simp] theorem State.incI_ireg (s : State) :
    s.incI.ireg = s.ireg := rfl
@[simp] theorem State.incI_needsCheckA (s : State) :
    s.incI.needsCheckA = s.needsCheckA := rfl
@[simp] theorem State.incI_needsCheckB (s : State) :
    s.incI.needsCheckB = s.needsCheckB := rfl
@[simp] theorem State.incI_needsCheckI (s : State) :
    s.incI.needsCheckI = s.needsCheckI := rfl
@[simp] theorem State.incI_addrA (s : State) :
    s.incI.addrA = s.addrA := rfl
@[simp] theorem State.incI_addrB (s : State) :
    s.incI.addrB = s.addrB := rfl
@[simp] theorem State.incI_addrI (s : State) :
    s.incI.addrI = increase s.addrI := rfl
@[simp] theorem State.incI_addrS (s : State) :
    s.incI.addrS = s.addrS := rfl
@[simp] theorem State.incI_phase (s : State) :
    s.incI.phase = s.phase := rfl
@[simp] theorem State.incI_counter (s : State) :
    s.incI.counter = s.counter := rfl
@[simp] theorem State.incI_deferred (s : State) :
    s.incI.deferred = s.deferred := rfl
@[simp] theorem State.incI_cycleElim (s : State) :
    s.incI.cycleElim = s.cycleElim := rfl
@[simp] theorem State.incI_equal (s : State) :
    s.incI.equal = s.equal := rfl
@[simp] theorem State.incI_eBoundary (s : State) :
    s.incI.eBoundary = s.eBoundary := rfl
@[simp] theorem State.incI_eFirst (s : State) :
    s.incI.eFirst = s.eFirst := rfl
@[simp] theorem State.incI_mem (s : State) :
    s.incI.mem = s.mem := rfl
@[simp] theorem State.incI_fault (s : State) :
    s.incI.fault = s.fault := rfl
@[simp] theorem State.incI_result (s : State) :
    s.incI.result = s.result := rfl
@[simp] theorem State.incI_printed (s : State) :
    s.incI.printed = s.printed := rfl
@[simp] theorem State.incI_memPeek (s : State) (x : Nat) :
    s.incI.memPeek x = s.memPeek x := rfl
@[simp] theorem State.incI_positions (s : State) :
    s.incI.positions = s.positions := by simp only [State.positions, State.incI_cfg]

/-! `signal` -/

@[simp] theorem State.signal_cfg (s : State) (r : StepResult) :
    (s.signal r).cfg = s.cfg := rfl
@[simp] theorem State.signal_areg (s : State) (r : StepResult) :
    (s.signal r).areg = s.areg := rfl
@[simp] theorem State.signal_breg (s : State) (r : StepResult) :
    (s.signal r).breg = s.breg := rfl
@[simp] theorem State.signal_ireg (s : State) (r : StepResult) :
    (s.signal r).ireg = s.ireg := rfl
@[simp] theorem State.signal_needsCheckA (s : State) (r : StepResult) :
    (s.signal r).needsCheckA = s.needsCheckA := rfl
@[simp] theorem State.signal_needsCheckB (s : State) (r : StepResult) :
    (s.signal r).needsCheckB = s.needsCheckB := rfl
@[simp] theorem State.signal_needsCheckI (s : State) (r : StepResult) :
    (s.signal r).needsCheckI = s.needsCheckI := rfl
@[simp] theorem State.signal_addrA (s : State) (r : StepResult) :
    (s.signal r).addrA = s.addrA := rfl
@[simp] theorem State.signal_addrB (s : State) (r : StepResult) :
    (s.signal r).addrB = s.addrB := rfl
@[simp] theorem State.signal_addrI (s : State) (r : StepResult) :
    (s.signal r).addrI = s.addrI := rfl
@[simp] theorem State.signal_addrS (s : State) (r : StepResult) :
    (s.signal r).addrS = s.addrS := rfl
@[simp] theorem State.signal_phase (s : State) (r : StepResult) :
    (s.signal r).phase = s.phase := rfl
@[simp] theorem State.signal_counter (s : State) (r : StepResult) :
    (s.signal r).counter = s.counter := rfl
@[simp] theorem State.signal_deferred (s : State) (r : StepResult) :
    (s.signal r).deferred = s.deferred := rfl
@[simp] theorem State.signal_cycleElim (s : State) (r : StepResult) :
    (s.signal r).cycleElim = s.cycleElim := rfl
@[simp] theorem State.signal_equal (s : State) (r : StepResult) :
    (s.signal r).equal = s.equal := rfl
@[simp] theorem State.signal_eBoundary (s : State) (r : StepResult) :
    (s.signal r).eBoundary = s.eBoundary := rfl
@[simp] theorem State.signal_eFirst (s : State) (r : StepResult) :
    (s.signal r).eFirst = s.eFirst := rfl
@[simp] theorem State.signal_mem (s : State) (r : StepResult) :
    (s.signal r).mem = s.mem := rfl
@[simp] theorem State.signal_fault (s : State) (r : StepResult) :
    (s.signal r).fault = s.fault := rfl
@[simp] theorem State.signal_result (s : State) (r : StepResult) :
    (s.signal r).result = some r := rfl
@[simp] theorem State.signal_printed (s : State) (r : StepResult) :
    (s.signal r).printed = s.printed := rfl
@[simp] theorem State.signal_memPeek (s : State) (r : StepResult) (x : Nat) :
    (s.signal r).memPeek x = s.memPeek x := rfl
@[simp] theorem State.signal_positions (s : State) (r : StepResult) :
    (s.signal r).positions = s.positions := by simp only [State.positions, State.signal_cfg]

/-! `stay` -/

@[simp] theorem State.stay_cfg (s : State) :
    s.stay.cfg = s.cfg := rfl
@[simp] theorem State.stay_areg (s : State) :
    s.stay.areg = s.areg := rfl
@[simp] theorem State.stay_breg (s : State) :
    s.stay.breg = s.breg := rfl
@[simp] theorem State.stay_ireg (s : State) :
    s.stay.ireg = s.ireg := rfl
@[simp] theorem State.stay_needsCheckA (s : State) :
    s.stay.needsCheckA = s.needsCheckA := rfl
@[simp] theorem State.stay_needsCheckB (s : State) :
    s.stay.needsCheckB = s.needsCheckB := rfl
@[simp] theorem State.stay_needsCheckI (s : State) :
    s.stay.needsCheckI = s.needsCheckI := rfl
@[simp] theorem State.stay_addrA (s : State) :
    s.stay.addrA = s.addrA := rfl
@[simp] theorem State.stay_addrB (s : State) :
    s.stay.addrB = s.addrB := rfl
@[simp] theorem State.stay_addrI (s : State) :
    s.stay.addrI = increase s.addrI := rfl
@[simp] theorem State.stay_addrS (s : State) :
    s.stay.addrS = s.addrS := rfl
@[simp] theorem State.stay_phase (s : State) :
    s.stay.phase = s.phase := rfl
@[simp] theorem State.stay_counter (s : State) :
    s.stay.counter = ⟨min (s.counter.val + 1) 8, by omega⟩ := rfl
@[simp] theorem State.stay_deferred (s : State) :
    s.stay.deferred = s.deferred := rfl
@[simp] theorem State.stay_cycleElim (s : State) :
    s.stay.cycleElim = s.cycleElim := rfl
@[simp] theorem State.stay_equal (s : State) :
    s.stay.equal = s.equal := rfl
@[simp] theorem State.stay_eBoundary (s : State) :
    s.stay.eBoundary = s.eBoundary := rfl
@[simp] theorem State.stay_eFirst (s : State) :
    s.stay.eFirst = s.eFirst := rfl
@[simp] theorem State.stay_mem (s : State) :
    s.stay.mem = s.mem := rfl
@[simp] theorem State.stay_fault (s : State) :
    s.stay.fault = s.fault := rfl
@[simp] theorem State.stay_result (s : State) :
    s.stay.result = some .proceed := rfl
@[simp] theorem State.stay_printed (s : State) :
    s.stay.printed = s.printed := rfl
@[simp] theorem State.stay_memPeek (s : State) (x : Nat) :
    s.stay.memPeek x = s.memPeek x := rfl
@[simp] theorem State.stay_positions (s : State) :
    s.stay.positions = s.positions := by simp only [State.positions, State.stay_cfg]

/-! `enterE` -/

@[simp] theorem State.enterE_cfg (s : State) :
    s.enterE.cfg = s.cfg := rfl
@[simp] theorem State.enterE_areg (s : State) :
    s.enterE.areg = s.areg := rfl
@[simp] theorem State.enterE_breg (s : State) :
    s.enterE.breg = s.breg := rfl
@[simp] theorem State.enterE_ireg (s : State) :
    s.enterE.ireg = s.ireg := rfl
@[simp] theorem State.enterE_needsCheckA (s : State) :
    s.enterE.needsCheckA = s.needsCheckA := rfl
@[simp] theorem State.enterE_needsCheckB (s : State) :
    s.enterE.needsCheckB = s.needsCheckB := rfl
@[simp] theorem State.enterE_needsCheckI (s : State) :
    s.enterE.needsCheckI = s.needsCheckI := rfl
@[simp] theorem State.enterE_addrA (s : State) :
    s.enterE.addrA = s.addrA := rfl
@[simp] theorem State.enterE_addrB (s : State) :
    s.enterE.addrB = s.addrB := rfl
@[simp] theorem State.enterE_addrI (s : State) :
    s.enterE.addrI = s.addrI := rfl
@[simp] theorem State.enterE_addrS (s : State) :
    s.enterE.addrS = s.addrS := rfl
@[simp] theorem State.enterE_phase (s : State) :
    s.enterE.phase = .E := rfl
@[simp] theorem State.enterE_counter (s : State) :
    s.enterE.counter = s.counter := rfl
@[simp] theorem State.enterE_deferred (s : State) :
    s.enterE.deferred = s.deferred := rfl
@[simp] theorem State.enterE_cycleElim (s : State) :
    s.enterE.cycleElim = s.cycleElim := rfl
@[simp] theorem State.enterE_equal (s : State) :
    s.enterE.equal = s.equal := rfl
@[simp] theorem State.enterE_eBoundary (s : State) :
    s.enterE.eBoundary = s.eBoundary := rfl
@[simp] theorem State.enterE_eFirst (s : State) :
    s.enterE.eFirst = s.eFirst := rfl
@[simp] theorem State.enterE_mem (s : State) :
    s.enterE.mem = s.mem := rfl
@[simp] theorem State.enterE_fault (s : State) :
    s.enterE.fault = s.fault := rfl
@[simp] theorem State.enterE_result (s : State) :
    s.enterE.result = some .enterExecution := rfl
@[simp] theorem State.enterE_printed (s : State) :
    s.enterE.printed = s.printed := rfl
@[simp] theorem State.enterE_memPeek (s : State) (x : Nat) :
    s.enterE.memPeek x = s.memPeek x := rfl
@[simp] theorem State.enterE_positions (s : State) :
    s.enterE.positions = s.positions := by simp only [State.positions, State.enterE_cfg]

/-! `stopFetch` -/

@[simp] theorem State.stopFetch_cfg (s : State) :
    s.stopFetch.cfg = s.cfg := rfl
@[simp] theorem State.stopFetch_areg (s : State) :
    s.stopFetch.areg = s.areg := rfl
@[simp] theorem State.stopFetch_breg (s : State) :
    s.stopFetch.breg = s.breg := rfl
@[simp] theorem State.stopFetch_ireg (s : State) :
    s.stopFetch.ireg = s.ireg := rfl
@[simp] theorem State.stopFetch_needsCheckA (s : State) :
    s.stopFetch.needsCheckA = s.needsCheckA := rfl
@[simp] theorem State.stopFetch_needsCheckB (s : State) :
    s.stopFetch.needsCheckB = s.needsCheckB := rfl
@[simp] theorem State.stopFetch_needsCheckI (s : State) :
    s.stopFetch.needsCheckI = s.needsCheckI := rfl
@[simp] theorem State.stopFetch_addrA (s : State) :
    s.stopFetch.addrA = s.addrA := rfl
@[simp] theorem State.stopFetch_addrB (s : State) :
    s.stopFetch.addrB = s.addrB := rfl
@[simp] theorem State.stopFetch_addrI (s : State) :
    s.stopFetch.addrI = s.addrI := rfl
@[simp] theorem State.stopFetch_addrS (s : State) :
    s.stopFetch.addrS = s.addrS := rfl
@[simp] theorem State.stopFetch_phase (s : State) :
    s.stopFetch.phase = s.phase := rfl
@[simp] theorem State.stopFetch_counter (s : State) :
    s.stopFetch.counter = 0 := rfl
@[simp] theorem State.stopFetch_deferred (s : State) :
    s.stopFetch.deferred = s.deferred := rfl
@[simp] theorem State.stopFetch_cycleElim (s : State) :
    s.stopFetch.cycleElim = s.cycleElim := rfl
@[simp] theorem State.stopFetch_equal (s : State) :
    s.stopFetch.equal = s.equal := rfl
@[simp] theorem State.stopFetch_eBoundary (s : State) :
    s.stopFetch.eBoundary = s.eBoundary := rfl
@[simp] theorem State.stopFetch_eFirst (s : State) :
    s.stopFetch.eFirst = s.eFirst := rfl
@[simp] theorem State.stopFetch_mem (s : State) :
    s.stopFetch.mem = s.mem := rfl
@[simp] theorem State.stopFetch_fault (s : State) :
    s.stopFetch.fault = s.fault := rfl
@[simp] theorem State.stopFetch_result (s : State) :
    s.stopFetch.result = some .proceed := rfl
@[simp] theorem State.stopFetch_printed (s : State) :
    s.stopFetch.printed = s.printed := rfl
@[simp] theorem State.stopFetch_memPeek (s : State) (x : Nat) :
    s.stopFetch.memPeek x = s.memPeek x := rfl
@[simp] theorem State.stopFetch_positions (s : State) :
    s.stopFetch.positions = s.positions := by simp only [State.positions, State.stopFetch_cfg]

/-! `returnToI` -/

@[simp] theorem State.returnToI_cfg (s : State) :
    s.returnToI.cfg = s.cfg := rfl
@[simp] theorem State.returnToI_areg (s : State) :
    s.returnToI.areg = s.areg := rfl
@[simp] theorem State.returnToI_breg (s : State) :
    s.returnToI.breg = s.breg := rfl
@[simp] theorem State.returnToI_ireg (s : State) :
    s.returnToI.ireg = s.ireg := rfl
@[simp] theorem State.returnToI_needsCheckA (s : State) :
    s.returnToI.needsCheckA = s.needsCheckA := rfl
@[simp] theorem State.returnToI_needsCheckB (s : State) :
    s.returnToI.needsCheckB = s.needsCheckB := rfl
@[simp] theorem State.returnToI_needsCheckI (s : State) :
    s.returnToI.needsCheckI = s.needsCheckI := rfl
@[simp] theorem State.returnToI_addrA (s : State) :
    s.returnToI.addrA = s.addrA := rfl
@[simp] theorem State.returnToI_addrB (s : State) :
    s.returnToI.addrB = s.addrB := rfl
@[simp] theorem State.returnToI_addrI (s : State) :
    s.returnToI.addrI = s.addrI := rfl
@[simp] theorem State.returnToI_addrS (s : State) :
    s.returnToI.addrS = s.addrS := rfl
@[simp] theorem State.returnToI_phase (s : State) :
    s.returnToI.phase = .I := rfl
@[simp] theorem State.returnToI_counter (s : State) :
    s.returnToI.counter = 0 := rfl
@[simp] theorem State.returnToI_deferred (s : State) :
    s.returnToI.deferred = s.deferred := rfl
@[simp] theorem State.returnToI_cycleElim (s : State) :
    s.returnToI.cycleElim = false := rfl
@[simp] theorem State.returnToI_equal (s : State) :
    s.returnToI.equal = s.equal := rfl
@[simp] theorem State.returnToI_eBoundary (s : State) :
    s.returnToI.eBoundary = none := rfl
@[simp] theorem State.returnToI_eFirst (s : State) :
    s.returnToI.eFirst = none := rfl
@[simp] theorem State.returnToI_mem (s : State) :
    s.returnToI.mem = s.mem := rfl
@[simp] theorem State.returnToI_fault (s : State) :
    s.returnToI.fault = s.fault := rfl
@[simp] theorem State.returnToI_result (s : State) :
    s.returnToI.result = s.result := rfl
@[simp] theorem State.returnToI_printed (s : State) :
    s.returnToI.printed = s.printed := rfl
@[simp] theorem State.returnToI_memPeek (s : State) (x : Nat) :
    s.returnToI.memPeek x = s.memPeek x := rfl
@[simp] theorem State.returnToI_positions (s : State) :
    s.returnToI.positions = s.positions := by simp only [State.positions, State.returnToI_cfg]

/-! `takeA` -/

@[simp] theorem State.takeA_cfg (s : State) (k : Fin 3) :
    (s.takeA k).cfg = s.cfg := rfl
@[simp] theorem State.takeA_areg (s : State) (k : Fin 3) :
    (s.takeA k).areg = s.areg := rfl
@[simp] theorem State.takeA_breg (s : State) (k : Fin 3) :
    (s.takeA k).breg = s.breg := rfl
@[simp] theorem State.takeA_ireg (s : State) (k : Fin 3) :
    (s.takeA k).ireg = s.ireg := rfl
@[simp] theorem State.takeA_needsCheckA (s : State) (k : Fin 3) :
    (s.takeA k).needsCheckA = s.needsCheckA := rfl
@[simp] theorem State.takeA_needsCheckB (s : State) (k : Fin 3) :
    (s.takeA k).needsCheckB = s.needsCheckB := rfl
@[simp] theorem State.takeA_needsCheckI (s : State) (k : Fin 3) :
    (s.takeA k).needsCheckI = s.needsCheckI := rfl
@[simp] theorem State.takeA_addrA (s : State) (k : Fin 3) :
    (s.takeA k).addrA = setElem s.addrA k s.breg := rfl
@[simp] theorem State.takeA_addrB (s : State) (k : Fin 3) :
    (s.takeA k).addrB = if mirrored s.cfg s.ireg then setElem s.addrB k s.breg else s.addrB := rfl
@[simp] theorem State.takeA_addrI (s : State) (k : Fin 3) :
    (s.takeA k).addrI = s.addrI := rfl
@[simp] theorem State.takeA_addrS (s : State) (k : Fin 3) :
    (s.takeA k).addrS = s.addrS := rfl
@[simp] theorem State.takeA_phase (s : State) (k : Fin 3) :
    (s.takeA k).phase = s.phase := rfl
@[simp] theorem State.takeA_counter (s : State) (k : Fin 3) :
    (s.takeA k).counter = s.counter := rfl
@[simp] theorem State.takeA_deferred (s : State) (k : Fin 3) :
    (s.takeA k).deferred = s.deferred := rfl
@[simp] theorem State.takeA_cycleElim (s : State) (k : Fin 3) :
    (s.takeA k).cycleElim = s.cycleElim := rfl
@[simp] theorem State.takeA_equal (s : State) (k : Fin 3) :
    (s.takeA k).equal = s.equal := rfl
@[simp] theorem State.takeA_eBoundary (s : State) (k : Fin 3) :
    (s.takeA k).eBoundary = s.eBoundary := rfl
@[simp] theorem State.takeA_eFirst (s : State) (k : Fin 3) :
    (s.takeA k).eFirst = s.eFirst := rfl
@[simp] theorem State.takeA_mem (s : State) (k : Fin 3) :
    (s.takeA k).mem = s.mem := rfl
@[simp] theorem State.takeA_fault (s : State) (k : Fin 3) :
    (s.takeA k).fault = s.fault := rfl
@[simp] theorem State.takeA_result (s : State) (k : Fin 3) :
    (s.takeA k).result = s.result := rfl
@[simp] theorem State.takeA_printed (s : State) (k : Fin 3) :
    (s.takeA k).printed = s.printed := rfl
@[simp] theorem State.takeA_memPeek (s : State) (k : Fin 3) (x : Nat) :
    (s.takeA k).memPeek x = s.memPeek x := rfl
@[simp] theorem State.takeA_positions (s : State) (k : Fin 3) :
    (s.takeA k).positions = s.positions := by simp only [State.positions, State.takeA_cfg]

/-! `fetchToB` -/

@[simp] theorem State.fetchToB_cfg (s : State) :
    s.fetchToB.cfg = s.cfg := rfl
@[simp] theorem State.fetchToB_areg (s : State) :
    s.fetchToB.areg = s.areg := rfl
@[simp] theorem State.fetchToB_breg (s : State) :
    s.fetchToB.breg = s.memPeek (addrInt s.addrS) := rfl
@[simp] theorem State.fetchToB_ireg (s : State) :
    s.fetchToB.ireg = s.ireg := rfl
@[simp] theorem State.fetchToB_needsCheckA (s : State) :
    s.fetchToB.needsCheckA = s.needsCheckA := rfl
@[simp] theorem State.fetchToB_needsCheckB (s : State) :
    s.fetchToB.needsCheckB = true := rfl
@[simp] theorem State.fetchToB_needsCheckI (s : State) :
    s.fetchToB.needsCheckI = s.needsCheckI := rfl
@[simp] theorem State.fetchToB_addrA (s : State) :
    s.fetchToB.addrA = s.addrA := rfl
@[simp] theorem State.fetchToB_addrB (s : State) :
    s.fetchToB.addrB = s.addrB := rfl
@[simp] theorem State.fetchToB_addrI (s : State) :
    s.fetchToB.addrI = s.addrI := rfl
@[simp] theorem State.fetchToB_addrS (s : State) :
    s.fetchToB.addrS = s.addrS := rfl
@[simp] theorem State.fetchToB_phase (s : State) :
    s.fetchToB.phase = s.phase := rfl
@[simp] theorem State.fetchToB_counter (s : State) :
    s.fetchToB.counter = s.counter := rfl
@[simp] theorem State.fetchToB_deferred (s : State) :
    s.fetchToB.deferred = s.deferred := rfl
@[simp] theorem State.fetchToB_cycleElim (s : State) :
    s.fetchToB.cycleElim = s.cycleElim := rfl
@[simp] theorem State.fetchToB_equal (s : State) :
    s.fetchToB.equal = s.equal := rfl
@[simp] theorem State.fetchToB_eBoundary (s : State) :
    s.fetchToB.eBoundary = s.eBoundary := rfl
@[simp] theorem State.fetchToB_eFirst (s : State) :
    s.fetchToB.eFirst = s.eFirst := rfl
@[simp] theorem State.fetchToB_mem (s : State) :
    s.fetchToB.mem = Memory.write s.positions (Memory.erase s.positions s.mem (addrInt s.addrS)) (addrInt s.addrS) (s.memPeek (addrInt s.addrS)) := rfl
@[simp] theorem State.fetchToB_fault (s : State) :
    s.fetchToB.fault = s.fault := rfl
@[simp] theorem State.fetchToB_result (s : State) :
    s.fetchToB.result = s.result := rfl
@[simp] theorem State.fetchToB_printed (s : State) :
    s.fetchToB.printed = s.printed := rfl
@[simp] theorem State.fetchToB_positions (s : State) :
    s.fetchToB.positions = s.positions := by simp only [State.positions, State.fetchToB_cfg]

/-! `fetchToA` -/

@[simp] theorem State.fetchToA_cfg (s : State) :
    s.fetchToA.cfg = s.cfg := rfl
@[simp] theorem State.fetchToA_areg (s : State) :
    s.fetchToA.areg = s.memPeek (addrInt s.addrS) := rfl
@[simp] theorem State.fetchToA_breg (s : State) :
    s.fetchToA.breg = s.breg := rfl
@[simp] theorem State.fetchToA_ireg (s : State) :
    s.fetchToA.ireg = s.ireg := rfl
@[simp] theorem State.fetchToA_needsCheckA (s : State) :
    s.fetchToA.needsCheckA = true := rfl
@[simp] theorem State.fetchToA_needsCheckB (s : State) :
    s.fetchToA.needsCheckB = s.needsCheckB := rfl
@[simp] theorem State.fetchToA_needsCheckI (s : State) :
    s.fetchToA.needsCheckI = s.needsCheckI := rfl
@[simp] theorem State.fetchToA_addrA (s : State) :
    s.fetchToA.addrA = s.addrA := rfl
@[simp] theorem State.fetchToA_addrB (s : State) :
    s.fetchToA.addrB = s.addrB := rfl
@[simp] theorem State.fetchToA_addrI (s : State) :
    s.fetchToA.addrI = s.addrI := rfl
@[simp] theorem State.fetchToA_addrS (s : State) :
    s.fetchToA.addrS = s.addrS := rfl
@[simp] theorem State.fetchToA_phase (s : State) :
    s.fetchToA.phase = s.phase := rfl
@[simp] theorem State.fetchToA_counter (s : State) :
    s.fetchToA.counter = s.counter := rfl
@[simp] theorem State.fetchToA_deferred (s : State) :
    s.fetchToA.deferred = s.deferred := rfl
@[simp] theorem State.fetchToA_cycleElim (s : State) :
    s.fetchToA.cycleElim = s.cycleElim := rfl
@[simp] theorem State.fetchToA_equal (s : State) :
    s.fetchToA.equal = s.equal := rfl
@[simp] theorem State.fetchToA_eBoundary (s : State) :
    s.fetchToA.eBoundary = s.eBoundary := rfl
@[simp] theorem State.fetchToA_eFirst (s : State) :
    s.fetchToA.eFirst = s.eFirst := rfl
@[simp] theorem State.fetchToA_mem (s : State) :
    s.fetchToA.mem = Memory.write s.positions (Memory.erase s.positions s.mem (addrInt s.addrS)) (addrInt s.addrS) (s.memPeek (addrInt s.addrS)) := rfl
@[simp] theorem State.fetchToA_fault (s : State) :
    s.fetchToA.fault = s.fault := rfl
@[simp] theorem State.fetchToA_result (s : State) :
    s.fetchToA.result = s.result := rfl
@[simp] theorem State.fetchToA_printed (s : State) :
    s.fetchToA.printed = s.printed := rfl
@[simp] theorem State.fetchToA_positions (s : State) :
    s.fetchToA.positions = s.positions := by simp only [State.positions, State.fetchToA_cfg]

/-! `eFetchToA` -/

@[simp] theorem State.eFetchToA_cfg (s : State) :
    s.eFetchToA.cfg = s.cfg := rfl
@[simp] theorem State.eFetchToA_areg (s : State) :
    s.eFetchToA.areg = s.memPeek (encoded s.addrS) := rfl
@[simp] theorem State.eFetchToA_breg (s : State) :
    s.eFetchToA.breg = s.breg := rfl
@[simp] theorem State.eFetchToA_ireg (s : State) :
    s.eFetchToA.ireg = s.ireg := rfl
@[simp] theorem State.eFetchToA_needsCheckA (s : State) :
    s.eFetchToA.needsCheckA = true := rfl
@[simp] theorem State.eFetchToA_needsCheckB (s : State) :
    s.eFetchToA.needsCheckB = s.needsCheckB := rfl
@[simp] theorem State.eFetchToA_needsCheckI (s : State) :
    s.eFetchToA.needsCheckI = s.needsCheckI := rfl
@[simp] theorem State.eFetchToA_addrA (s : State) :
    s.eFetchToA.addrA = s.addrA := rfl
@[simp] theorem State.eFetchToA_addrB (s : State) :
    s.eFetchToA.addrB = s.addrB := rfl
@[simp] theorem State.eFetchToA_addrI (s : State) :
    s.eFetchToA.addrI = s.addrI := rfl
@[simp] theorem State.eFetchToA_addrS (s : State) :
    s.eFetchToA.addrS = s.addrS := rfl
@[simp] theorem State.eFetchToA_phase (s : State) :
    s.eFetchToA.phase = s.phase := rfl
@[simp] theorem State.eFetchToA_counter (s : State) :
    s.eFetchToA.counter = s.counter := rfl
@[simp] theorem State.eFetchToA_deferred (s : State) :
    s.eFetchToA.deferred = s.deferred := rfl
@[simp] theorem State.eFetchToA_cycleElim (s : State) :
    s.eFetchToA.cycleElim = s.cycleElim := rfl
@[simp] theorem State.eFetchToA_equal (s : State) :
    s.eFetchToA.equal = s.equal := rfl
@[simp] theorem State.eFetchToA_eBoundary (s : State) :
    s.eFetchToA.eBoundary = s.eBoundary := rfl
@[simp] theorem State.eFetchToA_eFirst (s : State) :
    s.eFetchToA.eFirst = s.eFirst := rfl
@[simp] theorem State.eFetchToA_mem (s : State) :
    s.eFetchToA.mem = Memory.write s.positions (Memory.erase s.positions s.mem (encoded s.addrS)) (encoded s.addrS) (s.memPeek (encoded s.addrS)) := rfl
@[simp] theorem State.eFetchToA_fault (s : State) :
    s.eFetchToA.fault = s.fault := rfl
@[simp] theorem State.eFetchToA_result (s : State) :
    s.eFetchToA.result = s.result := rfl
@[simp] theorem State.eFetchToA_printed (s : State) :
    s.eFetchToA.printed = s.printed := rfl
@[simp] theorem State.eFetchToA_positions (s : State) :
    s.eFetchToA.positions = s.positions := by simp only [State.positions, State.eFetchToA_cfg]

/-! `eFetchToB` -/

@[simp] theorem State.eFetchToB_cfg (s : State) :
    s.eFetchToB.cfg = s.cfg := rfl
@[simp] theorem State.eFetchToB_areg (s : State) :
    s.eFetchToB.areg = s.areg := rfl
@[simp] theorem State.eFetchToB_breg (s : State) :
    s.eFetchToB.breg = s.memPeek (encoded s.addrS) := rfl
@[simp] theorem State.eFetchToB_ireg (s : State) :
    s.eFetchToB.ireg = s.ireg := rfl
@[simp] theorem State.eFetchToB_needsCheckA (s : State) :
    s.eFetchToB.needsCheckA = s.needsCheckA := rfl
@[simp] theorem State.eFetchToB_needsCheckB (s : State) :
    s.eFetchToB.needsCheckB = true := rfl
@[simp] theorem State.eFetchToB_needsCheckI (s : State) :
    s.eFetchToB.needsCheckI = s.needsCheckI := rfl
@[simp] theorem State.eFetchToB_addrA (s : State) :
    s.eFetchToB.addrA = s.addrA := rfl
@[simp] theorem State.eFetchToB_addrB (s : State) :
    s.eFetchToB.addrB = s.addrB := rfl
@[simp] theorem State.eFetchToB_addrI (s : State) :
    s.eFetchToB.addrI = s.addrI := rfl
@[simp] theorem State.eFetchToB_addrS (s : State) :
    s.eFetchToB.addrS = s.addrS := rfl
@[simp] theorem State.eFetchToB_phase (s : State) :
    s.eFetchToB.phase = s.phase := rfl
@[simp] theorem State.eFetchToB_counter (s : State) :
    s.eFetchToB.counter = s.counter := rfl
@[simp] theorem State.eFetchToB_deferred (s : State) :
    s.eFetchToB.deferred = s.deferred := rfl
@[simp] theorem State.eFetchToB_cycleElim (s : State) :
    s.eFetchToB.cycleElim = s.cycleElim := rfl
@[simp] theorem State.eFetchToB_equal (s : State) :
    s.eFetchToB.equal = s.equal := rfl
@[simp] theorem State.eFetchToB_eBoundary (s : State) :
    s.eFetchToB.eBoundary = s.eBoundary := rfl
@[simp] theorem State.eFetchToB_eFirst (s : State) :
    s.eFetchToB.eFirst = s.eFirst := rfl
@[simp] theorem State.eFetchToB_mem (s : State) :
    s.eFetchToB.mem = Memory.write s.positions (Memory.erase s.positions s.mem (encoded s.addrS)) (encoded s.addrS) (s.memPeek (encoded s.addrS)) := rfl
@[simp] theorem State.eFetchToB_fault (s : State) :
    s.eFetchToB.fault = s.fault := rfl
@[simp] theorem State.eFetchToB_result (s : State) :
    s.eFetchToB.result = s.result := rfl
@[simp] theorem State.eFetchToB_printed (s : State) :
    s.eFetchToB.printed = s.printed := rfl
@[simp] theorem State.eFetchToB_positions (s : State) :
    s.eFetchToB.positions = s.positions := by simp only [State.positions, State.eFetchToB_cfg]

/-! `eReadToB` -/

@[simp] theorem State.eReadToB_cfg (s : State) :
    s.eReadToB.cfg = s.cfg := rfl
@[simp] theorem State.eReadToB_areg (s : State) :
    s.eReadToB.areg = s.areg := rfl
@[simp] theorem State.eReadToB_breg (s : State) :
    s.eReadToB.breg = s.memPeek (encoded s.addrS) := rfl
@[simp] theorem State.eReadToB_ireg (s : State) :
    s.eReadToB.ireg = s.ireg := rfl
@[simp] theorem State.eReadToB_needsCheckA (s : State) :
    s.eReadToB.needsCheckA = s.needsCheckA := rfl
@[simp] theorem State.eReadToB_needsCheckB (s : State) :
    s.eReadToB.needsCheckB = true := rfl
@[simp] theorem State.eReadToB_needsCheckI (s : State) :
    s.eReadToB.needsCheckI = s.needsCheckI := rfl
@[simp] theorem State.eReadToB_addrA (s : State) :
    s.eReadToB.addrA = s.addrA := rfl
@[simp] theorem State.eReadToB_addrB (s : State) :
    s.eReadToB.addrB = s.addrB := rfl
@[simp] theorem State.eReadToB_addrI (s : State) :
    s.eReadToB.addrI = s.addrI := rfl
@[simp] theorem State.eReadToB_addrS (s : State) :
    s.eReadToB.addrS = s.addrS := rfl
@[simp] theorem State.eReadToB_phase (s : State) :
    s.eReadToB.phase = s.phase := rfl
@[simp] theorem State.eReadToB_counter (s : State) :
    s.eReadToB.counter = s.counter := rfl
@[simp] theorem State.eReadToB_deferred (s : State) :
    s.eReadToB.deferred = s.deferred := rfl
@[simp] theorem State.eReadToB_cycleElim (s : State) :
    s.eReadToB.cycleElim = s.cycleElim := rfl
@[simp] theorem State.eReadToB_equal (s : State) :
    s.eReadToB.equal = s.equal := rfl
@[simp] theorem State.eReadToB_eBoundary (s : State) :
    s.eReadToB.eBoundary = s.eBoundary := rfl
@[simp] theorem State.eReadToB_eFirst (s : State) :
    s.eReadToB.eFirst = s.eFirst := rfl
@[simp] theorem State.eReadToB_mem (s : State) :
    s.eReadToB.mem = Memory.erase s.positions s.mem (encoded s.addrS) := rfl
@[simp] theorem State.eReadToB_fault (s : State) :
    s.eReadToB.fault = s.fault := rfl
@[simp] theorem State.eReadToB_result (s : State) :
    s.eReadToB.result = s.result := rfl
@[simp] theorem State.eReadToB_printed (s : State) :
    s.eReadToB.printed = s.printed := rfl
@[simp] theorem State.eReadToB_positions (s : State) :
    s.eReadToB.positions = s.positions := by simp only [State.positions, State.eReadToB_cfg]

/-! `aCycle` -/

@[simp] theorem State.aCycle_cfg (s : State) :
    s.aCycle.cfg = s.cfg := rfl
@[simp] theorem State.aCycle_areg (s : State) :
    s.aCycle.areg = s.memPeek (encoded s.addrA) := rfl
@[simp] theorem State.aCycle_breg (s : State) :
    s.aCycle.breg = s.breg := rfl
@[simp] theorem State.aCycle_ireg (s : State) :
    s.aCycle.ireg = s.ireg := rfl
@[simp] theorem State.aCycle_needsCheckA (s : State) :
    s.aCycle.needsCheckA = true := rfl
@[simp] theorem State.aCycle_needsCheckB (s : State) :
    s.aCycle.needsCheckB = s.needsCheckB := rfl
@[simp] theorem State.aCycle_needsCheckI (s : State) :
    s.aCycle.needsCheckI = s.needsCheckI := rfl
@[simp] theorem State.aCycle_addrA (s : State) :
    s.aCycle.addrA = decrease s.addrA := rfl
@[simp] theorem State.aCycle_addrB (s : State) :
    s.aCycle.addrB = s.addrB := rfl
@[simp] theorem State.aCycle_addrI (s : State) :
    s.aCycle.addrI = s.addrI := rfl
@[simp] theorem State.aCycle_addrS (s : State) :
    s.aCycle.addrS = s.addrA := rfl
@[simp] theorem State.aCycle_phase (s : State) :
    s.aCycle.phase = s.phase := rfl
@[simp] theorem State.aCycle_counter (s : State) :
    s.aCycle.counter = s.counter := rfl
@[simp] theorem State.aCycle_deferred (s : State) :
    s.aCycle.deferred = s.deferred := rfl
@[simp] theorem State.aCycle_cycleElim (s : State) :
    s.aCycle.cycleElim = s.cycleElim := rfl
@[simp] theorem State.aCycle_equal (s : State) :
    s.aCycle.equal = s.equal := rfl
@[simp] theorem State.aCycle_eBoundary (s : State) :
    s.aCycle.eBoundary = s.eBoundary := rfl
@[simp] theorem State.aCycle_eFirst (s : State) :
    s.aCycle.eFirst = s.eFirst := rfl
@[simp] theorem State.aCycle_mem (s : State) :
    s.aCycle.mem = Memory.write s.positions (Memory.erase s.positions s.mem (encoded s.addrA)) (encoded s.addrA) (s.memPeek (encoded s.addrA)) := rfl
@[simp] theorem State.aCycle_fault (s : State) :
    s.aCycle.fault = s.fault := rfl
@[simp] theorem State.aCycle_result (s : State) :
    s.aCycle.result = s.result := rfl
@[simp] theorem State.aCycle_printed (s : State) :
    s.aCycle.printed = s.printed := rfl
@[simp] theorem State.aCycle_positions (s : State) :
    s.aCycle.positions = s.positions := by simp only [State.positions, State.aCycle_cfg]

/-! `readNext` -/

@[simp] theorem State.readNext_cfg (s : State) :
    s.readNext.cfg = s.cfg := rfl
@[simp] theorem State.readNext_areg (s : State) :
    s.readNext.areg = s.areg := rfl
@[simp] theorem State.readNext_breg (s : State) :
    s.readNext.breg = s.memPeek (addrInt s.addrI) := rfl
@[simp] theorem State.readNext_ireg (s : State) :
    s.readNext.ireg = s.ireg := rfl
@[simp] theorem State.readNext_needsCheckA (s : State) :
    s.readNext.needsCheckA = s.needsCheckA := rfl
@[simp] theorem State.readNext_needsCheckB (s : State) :
    s.readNext.needsCheckB = true := rfl
@[simp] theorem State.readNext_needsCheckI (s : State) :
    s.readNext.needsCheckI = s.needsCheckI := rfl
@[simp] theorem State.readNext_addrA (s : State) :
    s.readNext.addrA = s.addrA := rfl
@[simp] theorem State.readNext_addrB (s : State) :
    s.readNext.addrB = s.addrB := rfl
@[simp] theorem State.readNext_addrI (s : State) :
    s.readNext.addrI = s.addrI := rfl
@[simp] theorem State.readNext_addrS (s : State) :
    s.readNext.addrS = s.addrI := rfl
@[simp] theorem State.readNext_phase (s : State) :
    s.readNext.phase = s.phase := rfl
@[simp] theorem State.readNext_counter (s : State) :
    s.readNext.counter = s.counter := rfl
@[simp] theorem State.readNext_deferred (s : State) :
    s.readNext.deferred = s.deferred := rfl
@[simp] theorem State.readNext_cycleElim (s : State) :
    s.readNext.cycleElim = s.cycleElim := rfl
@[simp] theorem State.readNext_equal (s : State) :
    s.readNext.equal = s.equal := rfl
@[simp] theorem State.readNext_eBoundary (s : State) :
    s.readNext.eBoundary = s.eBoundary := rfl
@[simp] theorem State.readNext_eFirst (s : State) :
    s.readNext.eFirst = s.eFirst := rfl
@[simp] theorem State.readNext_mem (s : State) :
    s.readNext.mem = Memory.write s.positions (Memory.erase s.positions s.mem (addrInt s.addrI)) (addrInt s.addrI) (s.memPeek (addrInt s.addrI)) := rfl
@[simp] theorem State.readNext_fault (s : State) :
    s.readNext.fault = s.fault := rfl
@[simp] theorem State.readNext_result (s : State) :
    s.readNext.result = s.result := rfl
@[simp] theorem State.readNext_printed (s : State) :
    s.readNext.printed = s.printed := rfl
@[simp] theorem State.readNext_positions (s : State) :
    s.readNext.positions = s.positions := by simp only [State.positions, State.readNext_cfg]

end Sys2Proof.Machine
end

