-- ==== Sys2Proof/Laws/Memory.lean ====
section
/-!
SUPPORT. What storage reads after each storage operation, and that every one keeps the canonical form.
-/
namespace Sys2Proof.Machine

/-! Reading below every listed position, and what a canonical list says of its tail. -/

theorem Memory.wf_tail {c : Host.Cell} {m : Memory} (h : Memory.wf (c :: m)) : Memory.wf m :=
  ⟨(List.pairwise_cons.mp h.1).2, fun d hd => h.2 d (List.mem_cons_of_mem _ hd)⟩

theorem Memory.get_of_lt_all (m : Memory) (i : Nat) (h : ∀ c ∈ m, i < c.1) : Memory.get m i = blank := by
  induction m with
  | nil => rfl
  | cons c m ih =>
    have hc : i < c.1 := h c (by simp)
    simp only [Memory.get, if_neg (Nat.ne_of_gt hc)]
    exact ih fun d hd => h d (List.mem_cons_of_mem _ hd)

/-- A write is read back at its position and leaves every other position alone. -/
theorem Memory.get_set (m : Memory) (hm : Memory.wf m) (i j : Nat) (v : Word) :
    Memory.get (Memory.set m i v) j = if j = i then v else Memory.get m j := by
  induction m with
  | nil =>
    by_cases hv : v = blank
    · simp [Memory.set, hv, Memory.get]
    · by_cases hji : j = i
      · simp [Memory.set, hv, Memory.get, hji]
      · simp [Memory.set, hv, Memory.get, hji, Ne.symm hji]
  | cons c m ih =>
    obtain ⟨a, w⟩ := c
    have htail := Memory.wf_tail hm
    have hlow : ∀ c ∈ m, a < c.1 := fun c hc => (List.pairwise_cons.mp hm.1).1 c hc
    simp only [Memory.set]
    split
    · next hlt =>
      have hbelow : Memory.get ((a, w) :: m) i = blank := by
        apply Memory.get_of_lt_all
        intro c hc
        rcases List.mem_cons.mp hc with rfl | hc
        · exact hlt
        · exact Nat.lt_trans hlt (hlow c hc)
      split
      · next hv =>
        by_cases hji : j = i
        · simp [hji, hbelow, hv]
        · simp [hji]
      · by_cases hji : j = i
        · simp [hji, Memory.get]
        · rw [if_neg hji, Memory.get, if_neg (Ne.symm hji)]
    · split
      · next hge heq =>
        subst heq
        split
        · next hv =>
          by_cases hji : j = i
          · simp [hji, hv, Memory.get_of_lt_all m i hlow]
          · simp [hji, Memory.get, Ne.symm hji]
        · by_cases hji : j = i
          · simp [hji, Memory.get]
          · simp [hji, Memory.get, Ne.symm hji]
      · next hge hne =>
        simp only [Memory.get, ih htail]
        by_cases haj : a = j
        · subst haj
          simp [Ne.symm hne]
        · simp [haj]

theorem Memory.mem_set {m : Memory} {i : Nat} {v : Word} {c : Host.Cell}
    (h : c ∈ Memory.set m i v) : c = (i, v) ∧ v ≠ blank ∨ c ∈ m := by
  induction m with
  | nil =>
    simp only [Memory.set] at h
    split at h
    · simp at h
    · next hv => exact .inl ⟨by simpa using h, hv⟩
  | cons d m ih =>
    obtain ⟨a, w⟩ := d
    simp only [Memory.set] at h
    repeat' split at h
    · exact .inr h
    · next hv => exact (List.mem_cons.mp h).imp (⟨·, hv⟩) id
    · exact .inr (List.mem_cons_of_mem _ h)
    · next hv => exact (List.mem_cons.mp h).imp (⟨·, hv⟩) (List.mem_cons_of_mem _)
    · rcases List.mem_cons.mp h with rfl | h
      · exact .inr (by simp)
      · exact (ih h).imp id (List.mem_cons_of_mem _)

/-- A write keeps the canonical form. -/
theorem Memory.set_wf {m : Memory} (hm : Memory.wf m) (i : Nat) (v : Word) :
    Memory.wf (Memory.set m i v) := by
  refine ⟨?_, fun c hc => ?_⟩
  · induction m with
    | nil => simp only [Memory.set]; split <;> simp
    | cons d m ih =>
      obtain ⟨a, w⟩ := d
      have hlow := (List.pairwise_cons.mp hm.1).1
      have htail := Memory.wf_tail hm
      simp only [Memory.set]
      split
      · next hlt =>
        split
        · exact hm.1
        · refine List.pairwise_cons.mpr ⟨fun c hc => ?_, hm.1⟩
          rcases List.mem_cons.mp hc with rfl | hc
          · exact hlt
          · exact Nat.lt_trans hlt (hlow c hc)
      · split
        · next hge heq =>
          subst heq
          split
          · exact htail.1
          · exact List.pairwise_cons.mpr ⟨hlow, htail.1⟩
        · next hge hne =>
          refine List.pairwise_cons.mpr ⟨fun c hc => ?_, ih htail⟩
          rcases Memory.mem_set hc with ⟨rfl, -⟩ | hc
          · exact Nat.lt_of_le_of_ne (Nat.le_of_not_lt hge) (Ne.symm hne)
          · exact hlow c hc
  · rcases Memory.mem_set hc with ⟨rfl, hv⟩ | hc
    · exact hv
    · exact hm.2 c hc

/-- Two canonical lists that read alike everywhere are the same list. -/
theorem Memory.ext_get {m m' : Memory} (hm : Memory.wf m) (hm' : Memory.wf m')
    (h : ∀ i, Memory.get m i = Memory.get m' i) : m = m' := by
  induction m generalizing m' with
  | nil =>
    cases m' with
    | nil => rfl
    | cons d m' =>
      have := h d.1
      simp only [Memory.get, if_true] at this
      exact absurd this.symm (hm'.2 d (by simp))
  | cons c m ih =>
    obtain ⟨a, w⟩ := c
    have hw : w ≠ blank := hm.2 (a, w) (by simp)
    have hlow := (List.pairwise_cons.mp hm.1).1
    cases m' with
    | nil =>
      have := h a
      simp only [Memory.get, if_true] at this
      exact absurd this hw
    | cons d m' =>
      obtain ⟨b, x⟩ := d
      have hx : x ≠ blank := hm'.2 (b, x) (by simp)
      have hlow' := (List.pairwise_cons.mp hm'.1).1
      have hab : a = b := by
        rcases Nat.lt_trichotomy a b with hlt | heq | hgt
        · have := h a
          simp only [Memory.get, if_true, if_neg (Nat.ne_of_gt hlt)] at this
          rw [Memory.get_of_lt_all m' a fun c hc => Nat.lt_trans hlt (hlow' c hc)] at this
          exact absurd this hw
        · exact heq
        · have := h b
          simp only [Memory.get, if_true, if_neg (Nat.ne_of_gt hgt)] at this
          rw [Memory.get_of_lt_all m b fun c hc => Nat.lt_trans hgt (hlow c hc)] at this
          exact absurd this.symm hx
      subst hab
      have hwx : w = x := by simpa [Memory.get] using h a
      subst hwx
      congr 1
      refine ih (Memory.wf_tail hm) (Memory.wf_tail hm') fun i => ?_
      by_cases hai : a = i
      · subst hai
        rw [Memory.get_of_lt_all m a hlow, Memory.get_of_lt_all m' a hlow']
      · simpa [Memory.get, hai] using h i

/-! The canonical form under the storage primitives. -/

theorem Memory.erase_wf {m : Memory} (hm : Memory.wf m) (n i : Nat) : Memory.wf (Memory.erase n m i) := by
  unfold Memory.erase; split
  · exact Memory.set_wf hm _ _
  · exact hm

theorem Memory.write_wf {m : Memory} (hm : Memory.wf m) (n i : Nat) (v : Word) :
    Memory.wf (Memory.write n m i v) := by
  unfold Memory.write; split
  · split <;> exact Memory.set_wf hm _ _
  · exact hm

theorem Memory.mutate_wf {m : Memory} (hm : Memory.wf m) (n : Nat) (f : Word → Word) (i : Nat) :
    Memory.wf (Memory.mutate n f m i) := by
  unfold Memory.mutate; split
  · exact Memory.set_wf hm _ _
  · exact hm

/-! No primitive lists a position the machine does not have. -/

theorem Memory.erase_bound {n : Nat} {m : Memory} (hm : ∀ c ∈ m, c.1 < n) (i : Nat) :
    ∀ c ∈ Memory.erase n m i, c.1 < n := by
  unfold Memory.erase; split
  · intro c hc
    rcases Memory.mem_set hc with ⟨rfl, -⟩ | hc
    · assumption
    · exact hm c hc
  · exact hm

theorem Memory.write_bound {n : Nat} {m : Memory} (hm : ∀ c ∈ m, c.1 < n) (i : Nat) (v : Word) :
    ∀ c ∈ Memory.write n m i v, c.1 < n := by
  unfold Memory.write; split
  · intro c hc
    split at hc <;> rcases Memory.mem_set hc with ⟨rfl, -⟩ | hc
    · assumption
    · exact hm c hc
    · assumption
    · exact hm c hc
  · exact hm

theorem Memory.mutate_bound {n : Nat} {f : Word → Word} {m : Memory} (hm : ∀ c ∈ m, c.1 < n) (i : Nat) :
    ∀ c ∈ Memory.mutate n f m i, c.1 < n := by
  unfold Memory.mutate; split
  · intro c hc
    rcases Memory.mem_set hc with ⟨rfl, -⟩ | hc
    · assumption
    · exact hm c hc
  · exact hm

/-! What storage reads after each primitive. -/

theorem Memory.peek_of_lt {n i : Nat} (h : i < n) (m : Memory) : Memory.peek n m i = Memory.get m i :=
  if_pos h

theorem Memory.peek_of_ge {n i : Nat} (h : n ≤ i) (m : Memory) : Memory.peek n m i = 0x00#8 :=
  if_neg (Nat.not_lt.mpr h)

theorem Memory.peek_erase {m : Memory} (hm : Memory.wf m) (n i j : Nat) :
    Memory.peek n (Memory.erase n m i) j = if j = i ∧ i < n then blank else Memory.peek n m j := by
  unfold Memory.peek Memory.erase
  by_cases hi : i < n
  · rw [if_pos hi, Memory.get_set m hm]
    by_cases hji : j = i
    · subst hji; simp [hi]
    · simp [hji]
  · simp [hi]

theorem Memory.peek_write {m : Memory} (hm : Memory.wf m) (n i j : Nat) (v : Word) :
    Memory.peek n (Memory.write n m i v) j =
      if j = i ∧ i < n then if hasWM (Memory.peek n m i) then setWordMark v else v
      else Memory.peek n m j := by
  unfold Memory.peek Memory.write
  by_cases hi : i < n
  · rw [if_pos hi, if_pos hi]
    by_cases hji : j = i
    · subst hji
      by_cases hw : hasWM (Memory.get m j) <;> simp [hi, hw, Memory.get_set m hm]
    · by_cases hw : hasWM (Memory.get m i) <;> simp [hw, hji, Memory.get_set m hm]
  · simp [hi]

theorem Memory.peek_mutate {m : Memory} (hm : Memory.wf m) (n : Nat) (f : Word → Word) (i j : Nat) :
    Memory.peek n (Memory.mutate n f m i) j =
      if j = i ∧ i < n then f (Memory.peek n m i) else Memory.peek n m j := by
  unfold Memory.peek Memory.mutate
  by_cases hi : i < n
  · rw [if_pos hi, if_pos hi, Memory.get_set m hm]
    by_cases hji : j = i
    · subst hji; simp [hi]
    · simp [hji]
  · simp [hi]

/-! The read-restore cycle (R57): storage is the same list afterwards. -/

theorem hasWM_blank : hasWM blank = false := by decide

theorem hasWM_zero : hasWM (0x00#8) = false := by decide

theorem Memory.write_erase_self {m : Memory} (hm : Memory.wf m) (n i : Nat) :
    Memory.write n (Memory.erase n m i) i (Memory.peek n m i) = m := by
  by_cases hi : i < n
  · refine Memory.ext_get (Memory.write_wf (Memory.erase_wf hm n i) n i _) hm fun j => ?_
    have hg : Memory.get (Memory.set m i blank) i = blank := by
      rw [Memory.get_set m hm, if_pos rfl]
    simp only [Memory.write, Memory.erase, Memory.peek, if_pos hi, hg, hasWM_blank, Bool.false_eq_true,
      if_false]
    rw [Memory.get_set _ (Memory.set_wf hm i blank), Memory.get_set m hm]
    by_cases hji : j = i <;> simp [hji]
  · simp [Memory.write, Memory.erase, hi]

/-- `Fetch` gives the character and leaves the state alone (R57), where storage is canonical. -/
theorem State.fetch_eq (s : State) (hm : s.mem.wf) (i : Nat) : s.fetch i = (s.memPeek i, s) := by
  have h := Memory.write_erase_self hm s.positions i
  refine Prod.ext rfl ?_
  exact congrArg (fun m => { s with mem := m }) h

end Sys2Proof.Machine
end

