-- ==== Sys2Proof/Laws/Ops.lean ====
section
/-!
SUPPORT. What each shared operation can do, said once: the storage reads after it, the state after a
read-restore, and the passes of a handler's loop.
-/
namespace Sys2Proof.Machine

/-! Storage as the state reads it. -/

theorem State.memPeek_congr {s t : State} (hc : t.positions = s.positions) (hm : t.mem = s.mem) (i : Nat) :
    t.memPeek i = s.memPeek i := by
  simp only [State.memPeek, hc, hm]

theorem State.memPeek_memErase (s : State) (hm : s.mem.wf) (i j : Nat) :
    (s.memErase i).memPeek j = if j = i ∧ i < s.positions then blank else s.memPeek j := by
  exact Memory.peek_erase hm s.positions i j

theorem State.memPeek_memWrite (s : State) (hm : s.mem.wf) (i j : Nat) (v : Word) :
    (s.memWrite i v).memPeek j =
      if j = i ∧ i < s.positions then if hasWM (s.memPeek i) then setWordMark v else v
      else s.memPeek j := by
  exact Memory.peek_write hm s.positions i j v

theorem State.memPeek_memSetWM (s : State) (hm : s.mem.wf) (i j : Nat) :
    (s.memSetWM i).memPeek j =
      if j = i ∧ i < s.positions then setWordMark (s.memPeek i) else s.memPeek j := by
  exact Memory.peek_mutate hm s.positions setWordMark i j

theorem State.memPeek_memClearWM (s : State) (hm : s.mem.wf) (i j : Nat) :
    (s.memClearWM i).memPeek j =
      if j = i ∧ i < s.positions then clearWordMark (s.memPeek i) else s.memPeek j := by
  exact Memory.peek_mutate hm s.positions clearWordMark i j

theorem State.memPeek_of_ge (s : State) {i : Nat} (h : s.positions ≤ i) : s.memPeek i = 0x00#8 :=
  Memory.peek_of_ge h s.mem

/-! Storage stays canonical and within the machine. -/

theorem State.storageOk_congr {s t : State} (hc : t.positions = s.positions) (hm : t.mem = s.mem)
    (h : s.storageOk) : t.storageOk := by
  unfold State.storageOk; rw [hm, hc]; exact h

theorem State.memErase_storageOk {s : State} (h : s.storageOk) (i : Nat) : (s.memErase i).storageOk :=
  ⟨Memory.erase_wf h.1 _ i, Memory.erase_bound h.2 i⟩

theorem State.memWrite_storageOk {s : State} (h : s.storageOk) (i : Nat) (v : Word) :
    (s.memWrite i v).storageOk :=
  ⟨Memory.write_wf h.1 _ i v, Memory.write_bound h.2 i v⟩

theorem State.memSetWM_storageOk {s : State} (h : s.storageOk) (i : Nat) : (s.memSetWM i).storageOk :=
  ⟨Memory.mutate_wf h.1 _ _ i, Memory.mutate_bound h.2 i⟩

theorem State.memClearWM_storageOk {s : State} (h : s.storageOk) (i : Nat) : (s.memClearWM i).storageOk :=
  ⟨Memory.mutate_wf h.1 _ _ i, Memory.mutate_bound h.2 i⟩

theorem State.memSetC_storageOk {s : State} (h : s.storageOk) (i : Nat) : (s.memSetC i).storageOk :=
  ⟨Memory.mutate_wf h.1 _ _ i, Memory.mutate_bound h.2 i⟩

/-! The reads through STAR, where storage is canonical. -/

theorem State.fetchToB_eq (s : State) (hm : s.mem.wf) :
    s.fetchToB = s.setB (s.memPeek (addrInt s.addrS)) := by
  unfold State.fetchToB; rw [State.fetch_eq s hm]

theorem State.eFetchToA_eq (s : State) (hm : s.mem.wf) :
    s.eFetchToA = s.setA (s.memPeek (encoded s.addrS)) := by
  unfold State.eFetchToA; rw [State.fetch_eq s hm]

theorem State.eFetchToB_eq (s : State) (hm : s.mem.wf) :
    s.eFetchToB = s.setB (s.memPeek (encoded s.addrS)) := by
  unfold State.eFetchToB; rw [State.fetch_eq s hm]

theorem State.eReadToB_eq (s : State) :
    s.eReadToB = (s.memErase (encoded s.addrS)).setB (s.memPeek (encoded s.addrS)) := rfl

theorem State.fetchToA_eq (s : State) (hm : s.mem.wf) :
    s.fetchToA = s.setA (s.memPeek (addrInt s.addrS)) := by
  unfold State.fetchToA; rw [State.fetch_eq s hm]

/-- `ReadNext()` (R121) leaves storage alone. -/
theorem State.readNext_eq (s : State) (hm : s.mem.wf) :
    s.readNext =
      { s with addrS := s.addrI, breg := s.memPeek (addrInt s.addrI), needsCheckB := true } :=
  State.fetchToB_eq s.latchI hm

/-- The A-cycle (R160) leaves storage alone. -/
theorem State.aCycle_eq (s : State) (hm : s.mem.wf) :
    s.aCycle = { s with
      addrS := s.addrA
      areg := s.memPeek (encoded s.addrA)
      needsCheckA := true
      addrA := decrease s.addrA } :=
  congrArg State.decA (State.eFetchToA_eq s.latchA hm)

/-! The passes of a loop. -/

theorem passes_succ (body : State → State × Bool) (k : Nat) (s : State) :
    passes body (k + 1) s = { (body (passes body k s)).1 with eFirst := some false } := by
  induction k generalizing s with
  | zero => rfl
  | succ k ih => rw [passes, ih]; rfl

/-- The loop gives no state exactly when no pass within the bound ends it. -/
theorem iterate_eq_none_iff (body : State → State × Bool) (n : Nat) (s : State) :
    iterate body n s = none ↔ ∀ k < n, (body (passes body k s)).2 = false := by
  induction n generalizing s with
  | zero => simp [iterate]
  | succ n ih =>
    simp only [iterate]
    cases hb : (body s).2 with
    | true =>
      simp only [if_true]
      constructor
      · intro h; cases h
      · intro h; have := h 0 (by omega); simp [passes, hb] at this
    | false =>
      simp only [Bool.false_eq_true, if_false, ih]
      constructor
      · intro h k hk
        cases k with
        | zero => exact hb
        | succ k => exact h k (by omega)
      · intro h k hk; exact h (k + 1) (by omega)

/-- The loop ends with the pass that first ends it. -/
theorem iterate_eq_some (body : State → State × Bool) (n k : Nat) (s : State) (hk : k < n)
    (hgo : ∀ j < k, (body (passes body j s)).2 = false) (hend : (body (passes body k s)).2 = true) :
    iterate body n s = some (passes body (k + 1) s) := by
  induction k generalizing n s with
  | zero =>
    obtain ⟨n, rfl⟩ : ∃ m, n = m + 1 := ⟨n - 1, by omega⟩
    simp only [passes] at hend
    simp [iterate, hend, passes]
  | succ k ih =>
    obtain ⟨n, rfl⟩ : ∃ m, n = m + 1 := ⟨n - 1, by omega⟩
    have h0 : (body s).2 = false := hgo 0 (by omega)
    simp only [iterate, h0, Bool.false_eq_true, if_false]
    rw [ih n _ (by omega) (fun j hj => hgo (j + 1) (by omega)) hend]
    rfl

/-- Whatever every pass keeps, the loop keeps. -/
theorem iterate_keeps {P : State → Prop} {body : State → State × Bool}
    (hbody : ∀ s, P s → P { (body s).1 with eFirst := some false }) {n : Nat} {s t : State}
    (hs : P s) (h : iterate body n s = some t) : P t := by
  induction n generalizing s with
  | zero => cases h
  | succ n ih =>
    simp only [iterate] at h
    split at h
    · cases h; exact hbody s hs
    · exact ih (hbody s hs) h

/-- What a looping handler can answer: the state its loop ends in, with Continue, or a hang. -/
theorem runLoop_cases (body : State → State × Bool) (s : State) :
    (∃ u, iterate body loopFuel { s with eFirst := some true } = some u ∧
      runLoop body s = .next (u.signal .proceed)) ∨
    (iterate body loopFuel { s with eFirst := some true } = none ∧ runLoop body s = .fault .hang) := by
  unfold runLoop
  cases h : iterate body loopFuel { s with eFirst := some true } with
  | some u => exact .inl ⟨u, rfl, rfl⟩
  | none => exact .inr ⟨rfl, rfl⟩

/-- Whatever every pass and the result port keep, a looping handler keeps. -/
theorem runLoop_keeps {P : State → Prop} {body : State → State × Bool}
    (hbody : ∀ s, P s → P { (body s).1 with eFirst := some false })
    (hsignal : ∀ s, P s → P (s.signal .proceed)) {s t : State}
    (hs : P { s with eFirst := some true }) (h : runLoop body s = .next t) : P t := by
  rcases runLoop_cases body s with ⟨u, hu, hr⟩ | ⟨-, hr⟩
  · rw [hr] at h
    cases h
    exact hsignal u (iterate_keeps hbody hs hu)
  · rw [hr] at h; cases h

end Sys2Proof.Machine
end

