-- ==== Sys2Proof/Laws/Fetch.lean ====
section
/-!
SUPPORT. Which function a step runs, and the micro-cycle each counter value selects.
-/
namespace Sys2Proof.Machine

/-- A step of the I-phase is the micro-cycle. -/
theorem step_of_I {s : State} (hf : s.fault = none) (hp : s.phase = .I) : step s = iStep s := by
  simp [step, hf, hp]

/-- A step of the E-phase is the handler and the return. -/
theorem step_of_E {s : State} (hf : s.fault = none) (hp : s.phase = .E) : step s = eStep s := by
  simp [step, hf, hp]

theorem step_of_fault {s : State} {name : FaultName} (hf : s.fault = some name) :
    step s = .fault (.stuck name) := by
  simp [step, hf]

/-- A step that gives a state had no fault mark, and was one of the two phases' steps. -/
theorem step_next_cases {s t : State} (h : step s = .next t) :
    s.fault = none ∧ (s.phase = .I ∧ iStep s = .next t ∨ s.phase = .E ∧ eStep s = .next t) := by
  unfold step at h
  split at h
  · cases h
  · next hf =>
    split at h
    · next hp => exact ⟨hf, .inl ⟨hp, h⟩⟩
    · next hp => exact ⟨hf, .inr ⟨hp, h⟩⟩

theorem iStep_zero {s : State} (hc : s.counter = 0) : iStep s = .next (cycle0 s) := by
  unfold iStep; rw [hc]; rfl

theorem iStep_address {s : State} {k : Fin 3} (hc : s.counter.val = k.val + 1) :
    iStep s = .next (cycleA k s) := by
  unfold iStep; rw [hc]; fin_cases k <;> rfl

theorem iStep_four {s : State} (hc : s.counter = 4) : iStep s = .next (cycle4 s) := by
  unfold iStep; rw [hc]; rfl

theorem iStep_five {s : State} (hc : s.counter = 5) : iStep s = .next (cycle5 s) := by
  unfold iStep; rw [hc]; rfl

theorem iStep_six {s : State} (hc : s.counter = 6) : iStep s = .next (cycle6 s) := by
  unfold iStep; rw [hc]; rfl

theorem iStep_seven {s : State} (hc : s.counter = 7) : iStep s = .next (cycle7 s) := by
  unfold iStep; rw [hc]; rfl

theorem iStep_eight {s : State} (hc : s.counter = 8) : iStep s = cycle8 s := by
  unfold iStep; rw [hc]; rfl

/-- What a micro-cycle that gives a state can be. -/
theorem iStep_next_cases {s t : State} (h : iStep s = .next t) :
    (s.counter = 0 ∧ t = cycle0 s) ∨
    (∃ k : Fin 3, s.counter.val = k.val + 1 ∧ t = cycleA k s) ∨
    (s.counter = 4 ∧ t = cycle4 s) ∨ (s.counter = 5 ∧ t = cycle5 s) ∨ (s.counter = 6 ∧ t = cycle6 s) ∨
    (s.counter = 7 ∧ t = cycle7 s) ∨
    (s.counter = 8 ∧ hasWM s.latchI.fetchToA.areg = false ∧
      t = s.latchI.fetchToA.incI.signal .proceed) := by
  generalize hc : s.counter = c at h ⊢
  fin_cases c
  · rw [iStep_zero (by exact hc)] at h; cases h; exact .inl ⟨rfl, rfl⟩
  · rw [iStep_address (k := 0) (by rw [hc]; rfl)] at h; cases h; exact .inr (.inl ⟨0, rfl, rfl⟩)
  · rw [iStep_address (k := 1) (by rw [hc]; rfl)] at h; cases h; exact .inr (.inl ⟨1, rfl, rfl⟩)
  · rw [iStep_address (k := 2) (by rw [hc]; rfl)] at h; cases h; exact .inr (.inl ⟨2, rfl, rfl⟩)
  · rw [iStep_four (by exact hc)] at h; cases h; exact .inr (.inr (.inl ⟨rfl, rfl⟩))
  · rw [iStep_five (by exact hc)] at h; cases h; exact .inr (.inr (.inr (.inl ⟨rfl, rfl⟩)))
  · rw [iStep_six (by exact hc)] at h; cases h; exact .inr (.inr (.inr (.inr (.inl ⟨rfl, rfl⟩))))
  · rw [iStep_seven (by exact hc)] at h; cases h
    exact .inr (.inr (.inr (.inr (.inr (.inl ⟨rfl, rfl⟩)))))
  · rw [iStep_eight (by exact hc)] at h
    unfold cycle8 at h
    cases hw : hasWM s.latchI.fetchToA.areg
    · simp only [hw] at h; cases h
      exact .inr (.inr (.inr (.inr (.inr (.inr ⟨rfl, rfl, rfl⟩)))))
    · simp only [hw] at h; cases h

/-- What an E-phase step that gives a state can be. -/
theorem eStep_next_cases {s t : State} (h : eStep s = .next t) :
    (∃ i u, decode s.cfg s.ireg = .ok i ∧ exec i s = .next u ∧ t = u.returnToI) ∨
    (∃ e, decode s.cfg s.ireg = .error e ∧ t = (unimplemented s).returnToI) := by
  unfold eStep at h
  split at h
  · next i hi =>
    cases he : exec i s with
    | next u => rw [he] at h; cases h; exact .inl ⟨i, u, hi, he, rfl⟩
    | fault f => rw [he] at h; cases h
    | refused r => rw [he] at h; cases h
  · next e he => cases h; exact .inr ⟨e, he, rfl⟩

end Sys2Proof.Machine
end

