-- ==== Sys2Proof/Laws/PerInstr.lean ====
section
/-!
SUPPORT. The statement made of every opcode as syntax, and its proof for each constructor.
-/
namespace Sys2Proof.Laws.OpcodeChar

/-- R84, R97: under the default table the opcode has a code; all four Words of that code, whatever their
word-mark and check bit, decode to the opcode; the text of the bare opcode is well formed, and its encoding
is one of those Words, word-marked and of odd parity. -/
def Statement (i : Instr) : Prop :=
  ∃ c, opCode Config.default i = some c ∧
    (∀ control : BitVec 2, decode Config.default (control ++ c) = .ok i) ∧
    Text.wellFormed ⟨i, []⟩ = true ∧
    ∃ w, encode Config.default ⟨i, []⟩ = some [w] ∧ code6 w = c ∧ hasWM w = true ∧ parityCheck w = true

theorem swm : Statement .swm := ⟨0x1B#6, by decide, by decide, by decide, 0xDB#8, by decide⟩
theorem cwm : Statement .cwm := ⟨0x3C#6, by decide, by decide, by decide, 0xFC#8, by decide⟩
theorem cs : Statement .cs := ⟨0x11#6, by decide, by decide, by decide, 0xD1#8, by decide⟩
theorem move : Statement .move := ⟨0x24#6, by decide, by decide, by decide, 0xE4#8, by decide⟩
theorem md : Statement .md := ⟨0x34#6, by decide, by decide, by decide, 0xB4#8, by decide⟩
theorem mz : Statement .mz := ⟨0x18#6, by decide, by decide, by decide, 0xD8#8, by decide⟩
theorem load : Statement .load := ⟨0x23#6, by decide, by decide, by decide, 0xA3#8, by decide⟩
theorem halt : Statement .halt := ⟨0x3B#6, by decide, by decide, by decide, 0xBB#8, by decide⟩
theorem nop : Statement .nop := ⟨0x25#6, by decide, by decide, by decide, 0xA5#8, by decide⟩
theorem print : Statement .print := ⟨0x02#6, by decide, by decide, by decide, 0x82#8, by decide⟩
theorem read : Statement .read := ⟨0x01#6, by decide, by decide, by decide, 0x81#8, by decide⟩
theorem cmp : Statement .cmp := ⟨0x33#6, by decide, by decide, by decide, 0xF3#8, by decide⟩
theorem br : Statement .br := ⟨0x32#6, by decide, by decide, by decide, 0xB2#8, by decide⟩

end Sys2Proof.Laws.OpcodeChar
end

