-- ==== Sys2Proof/Tests/Slice0.lean ====
section
/-!
SUPPORT. The author's own tests: decoding of words written out from the spec's encoding, the checks of
well-formedness, at most two single-step vectors of 95_test_vectors.md per instruction, and a witness for
the hypotheses of every statement that has some.
-/
namespace Sys2Proof.Tests

open Sys2Proof.Machine

/-! Helpers. -/

/-- A property of the next state; false where there is none. -/
def after (o : Host.Outcome State Fault Refusal) (p : State → Bool) : Bool :=
  match o with
  | .next t => p t
  | .fault _ => false
  | .refused _ => false

/-- The reset state with the given positions, rising and none of them blank. -/
def stored (cells : Memory) : State := { State.reset with mem := cells }

/-- The state at the E-phase of the opcode character `w`, entered at cycle 7. -/
def inE (w : Word) (a b : Nat) (cells : Memory) : State :=
  { stored cells with
    phase := .E
    counter := 7
    ireg := stripControl w
    addrA := addrEnc (a : Int)
    addrB := addrEnc (b : Int)
    addrI := addrEnc (100 : Int) }

/-- The state at cycle `c` of the opcode character `w`, `addrI` at 10. -/
def inI (c : Fin 9) (w : Word) (cells : Memory) : State :=
  { stored cells with counter := c, ireg := stripControl w, addrI := addrEnc (10 : Int) }

/-! Decoding: the opcode characters of R97, written out as word-mark, check bit, zone and digit. -/

theorem test_decode_swm : decode Config.default 0b11011011#8 = .ok .swm := by decide
theorem test_decode_cwm : decode Config.default 0b11111100#8 = .ok .cwm := by decide
theorem test_decode_cs : decode Config.default 0b11010001#8 = .ok .cs := by decide
theorem test_decode_move : decode Config.default 0b11100100#8 = .ok .move := by decide
theorem test_decode_md : decode Config.default 0b10110100#8 = .ok .md := by decide
theorem test_decode_mz : decode Config.default 0b11011000#8 = .ok .mz := by decide
theorem test_decode_load : decode Config.default 0b10100011#8 = .ok .load := by decide
theorem test_decode_halt : decode Config.default 0b10111011#8 = .ok .halt := by decide
theorem test_decode_nop : decode Config.default 0b10100101#8 = .ok .nop := by decide
theorem test_decode_print : decode Config.default 0b10000010#8 = .ok .print := by decide
theorem test_decode_read : decode Config.default 0b10000001#8 = .ok .read := by decide
theorem test_decode_cmp : decode Config.default 0b11110011#8 = .ok .cmp := by decide
theorem test_decode_br : decode Config.default 0b10110010#8 = .ok .br := by decide

/-- A blank names no opcode (R98). -/
theorem test_decode_blank : decode Config.default 0x40#8 = .error (.noHandler 0) := by decide

/-- `M123456` and a word-marked 'X' (R95, F20). -/
theorem test_decode_text_move :
    decodeText Config.default [0xE4, 0x01, 0x02, 0x43, 0x04, 0x45, 0x46, 0xD7] =
      .ok (⟨.move, [0x01, 0x02, 0x43, 0x04, 0x45, 0x46]⟩, [0xD7]) := by decide

/-- `B123456`: '4' is `isBlank`, so the text is `B123` (F9). -/
theorem test_decode_text_branch :
    decodeText Config.default [0xB2, 0x01, 0x02, 0x43, 0x04, 0x45] =
      .ok (⟨.br, [0x01, 0x02, 0x43]⟩, [0x04, 0x45]) := by decide

/-- `/332299Q` with no word-mark on 'Q' (F15). -/
theorem test_decode_text_clear :
    decodeText Config.default [0xD1, 0x43, 0x43, 0x02, 0x02, 0x49, 0x49, 0x68] =
      .ok (⟨.cs, [0x43, 0x43, 0x02, 0x02, 0x49, 0x49]⟩, [0x68]) := by decide

/-- `M123456D` runs into cycle 8 (F25). -/
theorem test_decode_text_long :
    decodeText Config.default [0xE4, 0x01, 0x02, 0x43, 0x04, 0x45, 0x46, 0x34, 0xD7] = .error .longForm := by
  decide

/-! Well-formedness: a term for each check, refused. -/

theorem test_wellFormed_accepts : Text.wellFormed ⟨.br, [0x01, 0x02, 0x43, 0x62]⟩ = true := by decide

theorem test_wellFormed_length : Text.wellFormed ⟨.move, [1, 2, 1, 2, 1, 2, 1]⟩ = false := by decide

theorem test_wellFormed_mark : Text.wellFormed ⟨.swm, [0x01, 0x82]⟩ = false := by decide

theorem test_wellFormed_branch : Text.wellFormed ⟨.br, [0x01, 0x02, 0x43, 0x04]⟩ = false := by decide

theorem test_config_wellFormed : Config.default.wellFormed := by decide

theorem test_config_wellFormed_refuses :
    ¬ Config.wellFormed { Config.default with table := (0x1B, '#') :: Config.default.table } := by decide

/-! Characters, addresses and storage (95_test_vectors.md sections 2.1 to 2.3). -/

/-- B3, B4, B9, B10. -/
theorem test_parity : oddParity 0x00 = 0x40 ∧ setWordMark 0x4A = 0xCA ∧ setWordMark 0x0A = 0xCA ∧
    setCheckBit 0x01 = 0x01 := by decide

/-- B14: '5', 'N', 'E', 'V', '0'. -/
theorem test_decoded : decoded Config.default 0x45 = 5 ∧ decoded Config.default 0x25 = -5 ∧
    decoded Config.default 0x75 = -5 ∧ decoded Config.default 0x15 = 5 ∧ decoded Config.default 0x4A = 0 := by
  decide

/-- A7, A11, A14. -/
theorem test_addrEnc : addrEnc 1000 = ⟨0x1A, 0x4A, 0x4A⟩ ∧ addrEnc 2999 = ⟨0x29, 0x49, 0x49⟩ ∧
    addrEnc 1532 = ⟨0x15, 0x43, 0x02⟩ := by decide

/-- A17, A18, A22. -/
theorem test_addrInt : addrInt ⟨0x4A, 0x61, 0x45⟩ = 15 ∧ addrInt ⟨0x62, 0x40, 0x40⟩ = 2200 ∧
    increase ⟨0x4A, 0x49, 0x49⟩ = ⟨0x01, 0x4A, 0x4A⟩ := by decide

/-- S1, S3, S6. -/
theorem test_storage :
    ((stored [(5, 0x31)]).memRead 5).2.memPeek 5 = 0x40 ∧
    ((stored [(5, 0xC0)]).memWrite 5 0x31).memPeek 5 = 0xB1 ∧
    (stored []).memPeek 1400 = 0x00 ∧ ((stored []).memWrite 1400 0x31).mem = [] := by decide

/-! The fetch (95_test_vectors.md section 2.4). -/

/-- F26: a redirected opcode fetch. -/
theorem test_fetch_redirected :
    after (step { inI 0 0x40 [(30, 0x3B)] with deferred := true, addrA := addrEnc 30 })
      (fun t => t.ireg == 0x3B && t.addrI == addrEnc 11 && t.addrA == addrEnc 30 && !t.deferred) = true := by
  decide

/-- F3: NO-OP stops at cycle 2. -/
theorem test_fetch_nop_stop :
    after (step (inI 2 0x25 [(10, 0xD7)]))
      (fun t => t.counter == 0 && t.phase == .I && t.addrI == addrEnc 10 && t.result == some .proceed) = true := by
  decide

/-- F9: BRANCH stops at cycle 4 on '4', which is `isBlank`. -/
theorem test_fetch_branch_stop :
    after (step (inI 4 0x32 [(10, 0x04)])) (fun t => t.counter == 0 && t.phase == .I) = true := by decide

/-- F11: BRANCH of five characters with bit 0 of the A-register set. -/
theorem test_fetch_branch_deferred :
    after (step { inI 5 0x32 [(10, 0xD7)] with areg := 0x01 })
      (fun t => t.deferred && t.phase == .E && t.counter == 5) = true := by decide

/-- F15: CLEAR STORAGE does not test the eighth character. -/
theorem test_fetch_clear_forced :
    after (step (inI 7 0x11 [(10, 0x68)])) (fun t => t.deferred && t.phase == .E && t.counter == 7) = true := by
  decide

/-- F25: the word-mark of cycle 8 is the fault, recorded with its position and character. -/
theorem test_fetch_cycle8 :
    (match step (inI 8 0x24 [(10, 0xD7)]) with
      | .fault (.iPhaseCycle8Stop m) =>
        m.addrI == addrEnc 10 && m.areg == 0xD7 && m.fault == some .iPhaseCycle8Stop
      | _ => false) = true := by decide

/-! One step of each instruction (95_test_vectors.md sections 2.5 to 2.7). -/

/-- M1. -/
theorem test_move_field :
    after (exec .move (inE 0x24 12 23 [(9, 0xD7), (10, 0x58), (11, 0x19), (20, 0x31), (21, 0x32), (22, 0x73)]))
      (fun t => t.memPeek 20 == 0x57 && t.memPeek 21 == 0x58 && t.memPeek 22 == 0x19 &&
        t.addrA == addrEnc 9 && t.addrB == addrEnc 20 && t.areg == 0xD7 && t.breg == 0x31) = true := by decide

/-- M5: an out-of-bounds source under a sticky word-mark. -/
theorem test_move_out_of_bounds :
    after (exec .move (inE 0x24 1500 21 [(20, 0xE8)]))
      (fun t => t.memPeek 20 == 0xC0 && t.addrA == addrEnc 1499 && t.areg == 0x00) = true := by decide

/-- D2. -/
theorem test_md_keeps_mark :
    after (exec .md (inE 0x34 10 21 [(9, 0x87), (20, 0xB2)])) (fun t => t.memPeek 20 == 0xB7) = true := by decide

/-- Z2. -/
theorem test_mz_takes_mark :
    after (exec .mz (inE 0x18 10 21 [(9, 0xA5), (20, 0x04)])) (fun t => t.memPeek 20 == 0xE4) = true := by decide

/-- Z4: the word-mark of B is lost. -/
theorem test_mz_loses_mark :
    after (exec .mz (inE 0x18 10 21 [(9, 0x45), (20, 0xF5)])) (fun t => t.memPeek 20 == 0x45) = true := by decide

/-- L2: even parity stored. -/
theorem test_load_strips_check :
    after (exec .load (inE 0x23 10 23 [(8, 0xC3), (9, 0x4A)]))
      (fun t => t.memPeek 21 == 0x83 && t.memPeek 22 == 0x0A && t.addrB == addrEnc 21) = true := by decide

/-- L4: a sticky word-mark repairs the parity. -/
theorem test_load_sticky :
    after (exec .load (inE 0x23 10 23 [(8, 0xB1), (9, 0x43), (20, 0x57), (21, 0x58), (22, 0x99)]))
      (fun t => t.memPeek 20 == 0x57 && t.memPeek 21 == 0xB1 && t.memPeek 22 == 0xC3) = true := by decide

/-- W-S1. -/
theorem test_swm :
    after (exec .swm (inE 0x1B 10 21 [(9, 0x68), (20, 0x29)]))
      (fun t => t.memPeek 9 == 0xE8 && t.memPeek 20 == 0xA9 && t.areg == 0x29 && t.addrA == addrEnc 10 &&
        t.addrB == addrEnc 20) = true := by decide

/-- W-C1. -/
theorem test_cwm :
    after (exec .cwm (inE 0x3C 10 21 [(9, 0xE8), (20, 0xA9)]))
      (fun t => t.memPeek 9 == 0x68 && t.memPeek 20 == 0x29 && t.areg == 0xA9) = true := by decide

/-- C2: one position. -/
theorem test_cs_one :
    after (exec .cs (inE 0x11 0 300 [(298, 0x31), (299, 0xB1), (300, 0x31)]))
      (fun t => t.mem == [(298, 0x31), (300, 0x31)] && t.addrB == addrEnc 299 && t.addrS == addrEnc 300) = true := by
  decide

/-- C4: down to index 0. -/
theorem test_cs_zero :
    after (exec .cs (inE 0x11 0 3 [(0, 0x81), (2, 0x31), (3, 0x31)]))
      (fun t => t.mem == [(3, 0x31)] && t.breg == 0x40 && t.addrS == addrEnc 0) = true := by decide

/-- H1, H2. -/
theorem test_halt :
    after (exec .halt { inE 0x3B 0 0 [] with counter := 1 })
      (fun t => !t.deferred && t.result == some .systemHalt) = true ∧
    after (exec .halt { inE 0x3B 0 0 [] with counter := 4 })
      (fun t => t.deferred && t.result == some .systemHalt) = true := by decide

/-- N1. -/
theorem test_nop : after (exec .nop (inE 0x25 0 0 [])) (fun t => t.result == some .proceed) = true := by decide

/-- P2v: a word-marked 'A' prints as its code. -/
theorem test_print :
    after (exec .print { inE 0x02 0 0 [(205, 0xB1)] with
      cfg := { Config.default with printStart := 203, printLen := 3 } })
      (fun t => t.printed == [[0x00, 0x00, 0x31]]) = true := by decide

/-- R1. -/
theorem test_read : after (exec .read (inE 0x01 0 0 [])) (fun t => t.result == some .needCard) = true := by decide

/-- K1, K2. -/
theorem test_cmp :
    after (exec .cmp (inE 0x33 10 22 [(8, 0xB1), (9, 0x32), (20, 0xB1), (21, 0x32)]))
      (fun t => t.equal && t.addrA == addrEnc 8 && t.addrB == addrEnc 20) = true ∧
    after (exec .cmp (inE 0x33 10 22 [(8, 0xB1), (9, 0x32), (20, 0xB1), (21, 0x73)])) (fun t => !t.equal) = true := by
  decide

/-- U2. -/
theorem test_br :
    after (step (inE 0x32 0 0 []))
      (fun t => t.result == some (.unimplemented 0x32) && t.addrI == addrEnc 100 && t.phase == .I) = true := by decide

/-- Z4 of section 2.8: `load` of "CARD TWO." over word-marks at 0, 8 and 9. -/
theorem test_load_port :
    ((stored [(0, 0xC0), (8, 0xC0), (9, 0xC0)]).load
      [0x73, 0x31, 0x29, 0x34, 0x40, 0x13, 0x16, 0x26, 0x3B]).mem =
      [(0, 0xF3), (1, 0x31), (2, 0x29), (3, 0x34), (5, 0x13), (6, 0x16), (7, 0x26), (8, 0xBB), (9, 0xC0)] := by
  decide

/-- The opcode the host places is run by the very next step. -/
theorem test_withFetchWord :
    after (step (State.reset.withFetchWord 8 0x1B)) (fun t => t.phase == .I && t.areg == 0xDB) = true ∧
    after (step (State.reset.withFetchWord 8 0x01)) (fun t => t.result == some .needCard) = true ∧
    after (step (State.reset.withFetchWord 8 0x24)) (fun t => t.areg == 0xE4) = true := by decide

/-- Every row of the opcode table decodes from its word, and runs as the first instruction after reset. -/
theorem test_every_row :
    ([0x1B, 0x3C, 0x11, 0x24, 0x34, 0x18, 0x23, 0x3B, 0x25, 0x02, 0x01, 0x33, 0x32].map (decodeTableWord 8)) =
      Instr.all.map some ∧
    ([0x1B, 0x3C, 0x11, 0x24, 0x34, 0x18, 0x23, 0x3B, 0x25, 0x02, 0x01, 0x33, 0x32].all fun w =>
      after (step (State.reset.withFetchWord 8 w)) fun t => t.phase == .I) = true := by decide

end Sys2Proof.Tests
end

