-- ==== Sys2Proof/Tests/Witness.lean ====
section
/-!
SUPPORT. For every statement with hypotheses, a concrete state and operands that meet all of them together,
one for each clause; named after the statement.
-/
namespace Sys2Proof.Tests

open Sys2Proof.Machine

/-- A next state with a property, out of a closed check. -/
theorem exists_next {o : Host.Outcome State Fault Refusal} {p : State → Bool} (h : after o p = true) :
    ∃ t, o = .next t ∧ p t = true := by
  cases o with
  | next t => exact ⟨t, rfl, h⟩
  | fault f => cases h
  | refused r => cases h

/-! Characters, texts, addresses, storage. -/

theorem witness_DecodeMatchesOpcodeCode :
    Config.default.wellFormed ∧ opCode Config.default .cwm = some (code6 0xFC) ∧
      ∀ i, opCode Config.default i ≠ some (code6 0x40) := by
  refine ⟨by decide, by decide, fun i => ?_⟩
  cases i <;> decide

theorem witness_DecodeTextInvertsEncode :
    (Text.wellFormed ⟨.move, [0x01]⟩ = true ∧ hasWM 0xD7 = true) ∧
    (Text.wellFormed ⟨.cs, [1, 2, 1, 2, 1, 2]⟩ = true ∧ [1, 2, 1, 2, 1, 2].length = 6) ∧
    (Text.wellFormed ⟨.br, [1, 2, 1]⟩ = true ∧ isBlank 0x04 = true) := by decide

theorem witness_DecodedTextIsWellFormed :
    decodeText Config.default [0xBB, 0xD7] = .ok (⟨.halt, []⟩, [0xD7]) := by decide

theorem witness_ParityOfCharacters : popcount7 0x31 % 2 = 1 ∧ popcount7 0x0A % 2 = 0 := by decide

theorem witness_IncreaseAndDecrease :
    addrInt ⟨0x79, 0x49, 0x08⟩ < 3999 ∧ 3999 ≤ addrInt ⟨0x79, 0x49, 0x49⟩ ∧
      1 ≤ addrInt ⟨0x4A, 0x4A, 0x01⟩ ∧ addrInt ⟨0x79, 0x49, 0x49⟩ ≤ 4000 ∧ addrInt zeroAddress = 0 := by decide

theorem witness_DestructiveRead :
    (stored [(5, 0x31)]).mem.wf ∧ 1399 < (stored []).positions ∧ (stored []).positions ≤ 1400 := by decide

theorem witness_StickyWrite : (stored [(5, 0xB1)]).mem.wf ∧ hasWM ((stored [(5, 0xB1)]).memPeek 5) = true ∧
    hasWM ((stored [(5, 0xB1)]).memPeek 4) = false := by decide

/-! The step and the fetch. -/

theorem witness_StepRunsDecodedInstruction :
    ((inE 0x24 3 3 []).fault = none ∧ (inE 0x24 3 3 []).phase = .E ∧
      decode Config.default (inE 0x24 3 3 []).ireg = .ok .move) ∧
    ((inE 0x31 3 3 []).phase = .E ∧ decode Config.default (inE 0x31 3 3 []).ireg = .error (.noHandler 0x31)) := by
  decide

theorem witness_OpcodeFetchCycle :
    (State.reset.fault = none ∧ State.reset.mem.wf ∧ State.reset.phase = .I ∧ State.reset.counter = 0) := by decide

theorem witness_AddressCharacterCycles :
    ((inI 1 0x24 []).fault = none ∧ (inI 1 0x24 []).mem.wf ∧ (inI 1 0x24 []).phase = .I ∧
      (inI 1 0x24 []).counter.val = 0 + 1) ∧ (inI 3 0x24 []).counter.val = 2 + 1 := by decide

theorem witness_CycleFour :
    (inI 4 0x11 [(10, 0xD7)]).fault = none ∧ (inI 4 0x11 [(10, 0xD7)]).mem.wf ∧
      (inI 4 0x11 [(10, 0xD7)]).phase = .I ∧ (inI 4 0x11 [(10, 0xD7)]).counter = 4 := by decide

theorem witness_CyclesFiveAndSix :
    ((inI 5 0x32 [(10, 0xD7)]).mem.wf ∧ (inI 5 0x32 [(10, 0xD7)]).phase = .I ∧ (inI 5 0x32 []).counter = 5) ∧
    ((inI 6 0x24 []).fault = none ∧ (inI 6 0x24 []).phase = .I ∧ (inI 6 0x24 []).counter = 6) := by decide

theorem witness_CycleSeven :
    ((inI 7 0x1B [(10, 0x68)]).fault = none ∧ (inI 7 0x1B [(10, 0x68)]).mem.wf ∧
      (inI 7 0x1B [(10, 0x68)]).phase = .I ∧ (inI 7 0x1B [(10, 0x68)]).counter = 7) ∧
    (inI 7 0x11 []).isOp .cs = true ∧ (inI 7 0x11 []).deferred = false ∧
      ∃ t, step (inI 7 0x11 []) = .next t ∧ t.deferred = true :=
  ⟨by decide, by decide, by decide, exists_next (by decide)⟩

theorem witness_CycleEightStop :
    (inI 8 0x24 [(10, 0xD7)]).fault = none ∧ (inI 8 0x24 [(10, 0xD7)]).mem.wf ∧
      (inI 8 0x24 [(10, 0xD7)]).phase = .I ∧ (inI 8 0x24 [(10, 0xD7)]).counter = 8 ∧
      hasWM ((inI 8 0x24 [(10, 0xD7)]).memPeek (addrInt (inI 8 0x24 []).addrI)) = true ∧
      hasWM ((inI 8 0x24 []).memPeek (addrInt (inI 8 0x24 []).addrI)) = false := by decide

/-- `M` and a word-marked 'X'; `M123456` and a word-marked 'X'; `/332299` and an unmarked 'Q'. -/
theorem witness_FetchRunsText :
    (StandsAt (stored [(0, 0xE4), (1, 0xD7)]) ⟨.move, []⟩ ∧
      hasWM ((stored [(0, 0xE4), (1, 0xD7)]).memPeek 1) = true) ∧
    (StandsAt (stored [(0, 0xE4), (1, 0x01), (2, 0x02), (3, 0x43), (4, 0x04), (5, 0x45), (6, 0x46), (7, 0xD7)])
        ⟨.move, [0x01, 0x02, 0x43, 0x04, 0x45, 0x46]⟩ ∧
      addrInt State.reset.addrI + textLength ⟨.move, [0x01, 0x02, 0x43, 0x04, 0x45, 0x46]⟩ ≤ 3999 ∧
      Text.wellFormed ⟨.move, [0x01, 0x02, 0x43, 0x04, 0x45, 0x46]⟩ = true) ∧
    (StandsAt (stored [(0, 0xD1), (1, 0x43), (2, 0x43), (3, 0x02), (4, 0x02), (5, 0x49), (6, 0x49), (7, 0x68)])
        ⟨.cs, [0x43, 0x43, 0x02, 0x02, 0x49, 0x49]⟩ ∧
      textLength ⟨.cs, [0x43, 0x43, 0x02, 0x02, 0x49, 0x49]⟩ = 7 ∧
      Text.wellFormed ⟨.cs, [0x43, 0x43, 0x02, 0x02, 0x49, 0x49]⟩ = true) :=
  ⟨⟨⟨by decide, by decide⟩, by decide⟩, ⟨⟨by decide, by decide⟩, by decide⟩,
    ⟨⟨by decide, by decide⟩, by decide⟩⟩

/-- `N5` and a word-marked 'X'; `B123` and the `isBlank` '4'. -/
theorem witness_NopAndBranchEndInFetch :
    (StandsAt (stored [(0, 0xA5), (1, 0x45), (2, 0xD7)]) ⟨.nop, [0x45]⟩ ∧ textLength ⟨.nop, [0x45]⟩ ≤ 2 ∧
      hasWM ((stored [(0, 0xA5), (1, 0x45), (2, 0xD7)]).memPeek 2) = true) ∧
    (StandsAt (stored [(0, 0xB2), (1, 0x01), (2, 0x02), (3, 0x43), (4, 0x04)]) ⟨.br, [0x01, 0x02, 0x43]⟩ ∧
      Text.wellFormed ⟨.br, [0x01, 0x02, 0x43]⟩ = true ∧
      isBlank ((stored [(0, 0xB2), (1, 0x01), (2, 0x02), (3, 0x43), (4, 0x04)]).memPeek 4) = true) :=
  ⟨⟨⟨by decide, by decide⟩, by decide⟩, ⟨⟨by decide, by decide⟩, by decide⟩⟩

theorem witness_PlacedOpcodeIsFetched :
    State.reset.mem.wf ∧ addrInt State.reset.addrI + 1 < State.reset.positions ∧
      addrInt State.reset.addrI + 1 ≤ 3999 ∧ isOpCode State.reset.cfg (BitVec.ofNat 8 0x32) .nop = false := by decide

/-! Instructions. -/

/-- "XYZ" onto "ABC" above it (M1), and one position onto a lower field. -/
theorem witness_MoveMovesField :
    ((fun s : State => s.mem.wf ∧ 3 ≤ addrInt s.addrA ∧ addrInt s.addrA ≤ addrInt s.addrB ∧
        addrInt s.addrB ≤ 4000 ∧ (∀ k < 2, hasWM (aChar s k) = false ∧ hasWM (bChar s k) = false) ∧
        hasWM (aChar s 2) = true)
      (inE 0x24 12 23 [(9, 0xD7), (10, 0x58), (11, 0x19), (20, 0x31), (21, 0x32), (22, 0x73)])) ∧
    ((fun s : State => s.mem.wf ∧ 1 ≤ addrInt s.addrB ∧ addrInt s.addrB + 1 ≤ addrInt s.addrA ∧
        hasWM (bChar s 0) = true)
      (inE 0x24 23 12 [(11, 0xD7), (22, 0x31)])) := by decide

theorem witness_MoveDigitCombines : (inE 0x34 10 21 [(9, 0x87), (20, 0xB2)]).mem.wf := by decide

theorem witness_MoveZoneCombines : (inE 0x18 10 21 [(9, 0x45), (20, 0xF5)]).mem.wf := by decide

theorem witness_LoadCopiesField :
    ((fun s : State => s.mem.wf ∧ 2 ≤ addrInt s.addrA ∧ addrInt s.addrA ≤ addrInt s.addrB ∧
        addrInt s.addrB ≤ 4000 ∧ (∀ k, k + 1 < 2 → hasWM (aChar s k) = false) ∧ hasWM (aChar s 1) = true)
      (inE 0x23 10 23 [(8, 0xC3), (9, 0x4A)])) ∧
    ((fun s : State => addrInt s.addrB + 1 ≤ addrInt s.addrA ∧ hasWM (aChar s 0) = true)
      (inE 0x23 10 9 [(9, 0xCA)])) := by
  refine ⟨⟨by decide, by decide, by decide, by decide, fun k hk => ?_, by decide⟩, by decide⟩
  obtain rfl : k = 0 := by omega
  decide

theorem witness_SetWordMarkMarksBoth : (inE 0x1B 10 10 [(9, 0x68)]).mem.wf := by decide

theorem witness_ClearWordMarkClearsBoth : (inE 0x3C 10 21 [(9, 0xE8), (20, 0xA9)]).mem.wf := by decide

/-- One position (address 300) and a hundred (address 199). -/
theorem witness_ClearStorageClearsDownToBoundary :
    (((300 : Nat) : Int) = 100 * decoded Config.default (inE 0x11 0 300 []).addrB.e0 ∧
      300 ≤ addrInt (inE 0x11 0 300 []).addrB ∧ addrInt (inE 0x11 0 300 []).addrB ≤ 4000) ∧
    (((100 : Nat) : Int) = 100 * decoded Config.default (inE 0x11 0 199 []).addrB.e0 ∧
      100 ≤ addrInt (inE 0x11 0 199 []).addrB) := by decide

theorem witness_ClearStorageToZero :
    (inE 0x11 0 9 [(0, 0x81)]).mem.wf ∧ decoded Config.default (inE 0x11 0 9 []).addrB.e0 = 0 ∧
      addrInt (inE 0x11 0 9 []).addrB ≤ 4000 ∧ decoded Config.default (inE 0x11 0 0 []).addrB.e0 = 0 ∧
      addrInt (inE 0x11 0 0 []).addrB = 0 := by decide

theorem witness_HaltSignals :
    9 < (digit (inE 0x3A 0 0 []).ireg).toNat ∧ (digit (inE 0x39 0 0 []).ireg).toNat ≤ 9 := by decide

theorem witness_CompareComparesFields :
    (fun s : State => s.mem.wf ∧ 2 ≤ addrInt s.addrA ∧ addrInt s.addrA ≤ 4000 ∧ 2 ≤ addrInt s.addrB ∧
        addrInt s.addrB ≤ 4000 ∧ hasWM (aChar s 0) = false ∧ hasWM (bChar s 0) = false ∧ hasWM (aChar s 1) = true)
      (inE 0x33 10 22 [(8, 0xB1), (9, 0x32), (20, 0xB1), (21, 0x73)]) := by decide

/-! A hang: storage without any word-mark, whatever `ADDR_OOR` is. -/

theorem hasWM_stripCheck (w : Word) : hasWM (stripCheck w) = hasWM w := by
  revert w; decide

/-- Canonical storage without a word-mark. -/
def noMarks (s : State) : Prop := s.mem.wf ∧ ∀ i, hasWM (s.memPeek i) = false

theorem loadBody_noMarks {s : State} (h : noMarks s) : noMarks (loadBody s).1 ∧ (loadBody s).2 = false := by
  obtain ⟨hm, hw⟩ := h
  have ha : s.aCycle.areg = s.memPeek (encoded s.addrA) := rfl
  have hmem : s.aCycle.mem = s.mem := by rw [State.aCycle_eq s hm]
  have hm1 : s.aCycle.latchB.mem.wf := by rw [State.latchB_mem, hmem]; exact hm
  refine ⟨⟨Memory.write_wf hm1 _ _ _, fun i => ?_⟩, hw _⟩
  have hpeek : ∀ j, s.aCycle.latchB.memPeek j = s.memPeek j := State.memPeek_congr rfl hmem
  show hasWM ((s.aCycle.latchB.memWrite _ (stripCheck s.aCycle.latchB.areg)).memPeek i) = false
  rw [State.memPeek_memWrite _ hm1]
  split
  · rw [if_neg (by rw [hpeek, hw]; decide), hasWM_stripCheck]
    exact hw _
  · rw [hpeek]; exact hw i

theorem loadPasses_noMarks {s : State} (h : noMarks s) (k : Nat) : noMarks (passes loadBody k s) := by
  induction k generalizing s with
  | zero => exact h
  | succ k ih => exact ih (loadBody_noMarks h).1

theorem witness_OnlyEndlessLoopsStop : exec .load (inE 0x23 3 3 []) = .fault .hang := by
  have h : noMarks { inE 0x23 3 3 [] with eFirst := some true } := by
    refine ⟨⟨List.Pairwise.nil, fun c hc => by cases hc⟩, fun i => ?_⟩
    show hasWM (Memory.peek 1400 [] i) = false
    unfold Memory.peek
    split
    · exact hasWM_blank
    · exact hasWM_zero
  rcases runLoop_cases loadBody (inE 0x23 3 3 []) with ⟨u, hu, -⟩ | ⟨-, hr⟩
  · rw [(iterate_eq_none_iff _ _ _).mpr fun k _ => (loadBody_noMarks (loadPasses_noMarks h k)).2] at hu
    cases hu
  · exact hr

/-- Overlapping fields, the A side reading what the B side wrote, and addresses no position answers to. -/
theorem witness_EachPassOfALoop :
    (inE 0x24 12 11 [(9, 0xB1), (10, 0x32)]).mem.wf ∧ (inE 0x24 1500 0 []).mem.wf ∧
      (inE 0x11 3 100 []).mem.wf := by decide

theorem witness_LoopsRunUntilTheirTestEnds :
    (inE 0x24 12 11 [(9, 0xB1), (10, 0x32)]).mem.wf ∧
    (∃ t, exec .move (inE 0x24 12 11 [(9, 0xB1), (10, 0x32)]) = .next t ∧ (t.areg == 0x31) = false) ∧
    (∃ t, exec .load (inE 0x23 3 3 [(2, 0x81)]) = .next t ∧ (t.areg == 0x81) = true) ∧
    (∃ t, exec .cmp (inE 0x33 3 3 [(2, 0x81)]) = .next t ∧ t.equal = true) ∧
    (∃ t, exec .cs (inE 0x11 3 100 []) = .next t ∧ (t.eBoundary == some 100) = true) := by
  refine ⟨by decide, ?_, exists_next (by decide), exists_next (by decide), exists_next (by decide)⟩
  obtain ⟨t, h, hp⟩ := exists_next (p := fun t => !(t.areg == 0x31))
    (o := exec .move (inE 0x24 12 11 [(9, 0xB1), (10, 0x32)])) (by decide)
  exact ⟨t, h, by simpa using hp⟩

theorem witness_FieldLoopsHangExactlyWithoutMark :
    (inE 0x24 3 3 []).mem.wf ∧ exec .load (inE 0x23 3 3 []) = .fault .hang :=
  ⟨by decide, witness_OnlyEndlessLoopsStop⟩

/-- 'N32' (address 2532): the boundary is -500. -/
theorem witness_ClearStorageHangsExactlyAboveBoundary :
    decoded Config.default (inE 0x11 0 2532 []).addrB.e0 < 0 := by decide

/-! Frames and the whole machine. -/

theorem witness_HandlersLeaveUnchanged :
    (∃ t, exec .swm (inE 0x1B 3 3 []) = .next t) ∧ (∃ t, exec .cs (inE 0x11 3 100 []) = .next t) ∧
    (∃ t, exec .cmp (inE 0x33 3 3 [(2, 0x81)]) = .next t) ∧ (inE 0x33 3 3 [(2, 0x81)]).mem.wf := by
  refine ⟨?_, ?_, ?_, by decide⟩
  · obtain ⟨t, h, -⟩ := exists_next (p := fun _ => true) (o := exec .swm (inE 0x1B 3 3 [])) (by decide)
    exact ⟨t, h⟩
  · obtain ⟨t, h, -⟩ := exists_next (p := fun _ => true) (o := exec .cs (inE 0x11 3 100 [])) (by decide)
    exact ⟨t, h⟩
  · obtain ⟨t, h, -⟩ := exists_next (p := fun _ => true) (o := exec .cmp (inE 0x33 3 3 [(2, 0x81)])) (by decide)
    exact ⟨t, h⟩

theorem witness_FetchLeavesStorage :
    ∃ t, (inI 4 0x24 [(10, 0xD7)]).mem.wf ∧ (inI 4 0x24 [(10, 0xD7)]).phase = .I ∧
      step (inI 4 0x24 [(10, 0xD7)]) = .next t := by
  obtain ⟨t, h, -⟩ := exists_next (p := fun _ => true) (o := step (inI 4 0x24 [(10, 0xD7)])) (by decide)
  exact ⟨t, by decide, by decide, h⟩

/-- A CLEAR STORAGE of four characters about to enter the E-phase, and one in it. -/
theorem witness_StepKeepsInvariant :
    Inv (inI 4 0x11 [(10, 0xD7)]) ∧ (∃ t, step (inI 4 0x11 [(10, 0xD7)]) = .next t) ∧
    Inv { inE 0x11 3 300 [(299, 0x81)] with counter := 4, cycleElim := true } := by
  refine ⟨⟨by decide, by decide, by decide, by decide, by decide, by decide, by decide, by decide, by decide⟩, ?_,
    ⟨by decide, by decide, by decide, by decide, by decide, by decide, by decide, by decide, by decide⟩⟩
  obtain ⟨t, h, -⟩ := exists_next (p := fun _ => true) (o := step (inI 4 0x11 [(10, 0xD7)])) (by decide)
  exact ⟨t, h⟩

theorem witness_PortsKeepInvariant :
    Inv (inI 4 0x11 [(10, 0xD7)]) ∧
      (∃ t, act (.load [0x31]) (inI 4 0x11 [(10, 0xD7)]) = .next t) ∧
      ∃ t, act .reset (inI 4 0x11 [(10, 0xD7)]) = .next t :=
  ⟨witness_StepKeepsInvariant.1, ⟨_, rfl⟩, ⟨_, rfl⟩⟩

theorem witness_LoadPortCopiesCard :
    (stored [(1, 0xC3)]).mem.wf ∧ 1 < [(0x31 : Word), 0x32].length ∧ 1 < (stored [(1, 0xC3)]).positions ∧
      0 < [(0x31 : Word)].length := by decide

/-- A halting HALT, a READ-CARD, a BRANCH, an unlisted code, and the entry of an E-phase. -/
theorem witness_ResultsAndTheirCauses :
    (∃ t, step (inE 0x3B 3 3 []) = .next t ∧ (t.result == some .systemHalt) = true) ∧
    (∃ t, step (inE 0x01 3 3 []) = .next t ∧ (t.result == some .needCard) = true) ∧
    (∃ t, step (inE 0x32 3 3 []) = .next t ∧ (t.result == some (.unimplemented 0x32)) = true) ∧
    (∃ t, step (inE 0x00 3 3 []) = .next t ∧ (t.result == some (.unimplemented 0x00)) = true) ∧
    (∃ t, step (inI 6 0x24 [(10, 0xD7)]) = .next t ∧ (t.result == some .enterExecution) = true) :=
  ⟨exists_next (by decide), exists_next (by decide), exists_next (by decide), exists_next (by decide),
    exists_next (by decide)⟩

theorem witness_NoResultLatchesAStop :
    ∃ t, step (inE 0x3B 3 3 []) = .next t ∧ ((inE 0x3B 3 3 []).phase == .E) = true :=
  exists_next (p := fun _ => (inE 0x3B 3 3 []).phase == .E) (by decide)

theorem witness_FaultMarkSticks :
    ({ State.reset with fault := some .iPhaseCycle8Stop } : State).fault = some .iPhaseCycle8Stop := rfl

theorem witness_IRegisterWrittenByCycleZero :
    (∃ t, step (inI 0 0x00 [(10, 0xE4)]) = .next t ∧ (t.ireg == 0x24) = true) ∧
    (∃ t, step (inE 0x24 3 3 [(2, 0x81)]) = .next t ∧ (t.ireg == 0x24) = true) :=
  ⟨exists_next (by decide), exists_next (by decide)⟩

theorem witness_DeferredWriters :
    (∃ t, step { inI 0 0x00 [] with deferred := true } = .next t ∧ (!t.deferred) = true) ∧
    (∃ t, step { inI 5 0x32 [(10, 0xD7)] with areg := 0x01 } = .next t ∧ t.deferred = true) ∧
    (∃ t, step (inI 7 0x11 []) = .next t ∧ t.deferred = true) ∧
    (∃ t, step { inE 0x3B 3 3 [] with counter := 4 } = .next t ∧ t.deferred = true) :=
  ⟨exists_next (by decide), exists_next (by decide), exists_next (by decide), exists_next (by decide)⟩

theorem witness_EqualWrittenByCompare :
    ∃ t, step (inE 0x33 3 3 [(2, 0x81)]) = .next t ∧ (t.equal != (inE 0x33 3 3 []).equal) = true :=
  exists_next (by decide)

theorem witness_WordMarkRemovers :
    ((inE 0x3C 10 21 [(9, 0xE8), (20, 0xA9)]).mem.wf ∧
      hasWM ((inE 0x3C 10 21 [(9, 0xE8), (20, 0xA9)]).memPeek 9) = true) ∧
    (∃ t, step (inE 0x3C 10 21 [(9, 0xE8), (20, 0xA9)]) = .next t ∧ (!hasWM (t.memPeek 9)) = true) ∧
    (∃ t, step (inE 0x18 10 21 [(9, 0x45), (20, 0xF5)]) = .next t ∧ (!hasWM (t.memPeek 20)) = true) :=
  ⟨by decide, exists_next (by decide), exists_next (by decide)⟩

theorem witness_ConfigurationAndPrintedLinesStay :
    ∃ t, act .reset { stored [] with printed := [[0x31]] } = .next t ∧ t.printed = [[0x31]] := ⟨_, rfl, rfl⟩

theorem witness_HaltRedirectsNextOpcode :
    (fun s : State => s.fault = none ∧ s.mem.wf ∧ s.phase = .E ∧ s.isOp .halt = true ∧
        9 < (digit s.ireg).toNat ∧ s.deferred = false)
      (inE 0x3B 30 3 [(30, 0x3B)]) ∧
    (fun s : State => s.phase = .E ∧ s.isOp .halt = true ∧ ¬ 4 ≤ s.counter.val)
      { inE 0x3B 30 3 [(30, 0x3B)] with counter := 3 } := by decide

end Sys2Proof.Tests
end

section
/-! The state after reset (10_state.md R38). -/
namespace Sys2Proof.Machine

/-- Storage that lists no position reads as the blank wherever there is one (R50). -/
theorem State.memPeek_of_mem_nil {s : State} (hm : s.mem = []) {i : Nat} (hi : i < s.positions) :
    s.memPeek i = blank := by
  rw [State.memPeek, hm, Memory.peek_of_lt hi]
  rfl

/-- R89 at 0: the reset value of the address registers is the encoding of the integer 0. -/
theorem addrEnc_zero : addrEnc 0 = zeroAddress := by decide

/-- Settles O43: storage lists no position, so every one reads blank; the address registers hold
`zeroAddress`, which is `addrEnc 0`; the other rows are the fields of `State.reset`. -/
theorem resetValues : Obligations.ResetValues := by
  unfold Obligations.ResetValues
  have hblank : ∀ i < State.reset.positions, State.reset.memPeek i = 0x40#8 :=
    fun _ hi => State.memPeek_of_mem_nil rfl hi
  rw [addrEnc_zero]
  exact ⟨hblank, rfl, rfl, rfl, rfl, rfl, rfl, rfl, rfl, rfl, rfl, rfl, rfl, rfl, rfl, rfl, rfl, rfl⟩

end Sys2Proof.Machine
end

section
/-! The storage primitives (20_memory.md R51, R52, R54). -/
namespace Sys2Proof.Machine

/-- Out of bounds a destructive read changes nothing (R52). -/
theorem State.memErase_of_ge (s : State) {i : Nat} (h : s.positions ≤ i) : s.memErase i = s :=
  congrArg (fun m => { s with mem := m }) (if_neg (Nat.not_lt.mpr h))

/-- Out of bounds a write is ignored (R52). -/
theorem State.memWrite_of_ge (s : State) {i : Nat} (h : s.positions ≤ i) (v : Word) :
    s.memWrite i v = s :=
  congrArg (fun m => { s with mem := m }) (if_neg (Nat.not_lt.mpr h))

/-- A destructive read leaves the blank at its position (R51). -/
theorem State.memPeek_memErase_self (s : State) (hm : s.mem.wf) {i : Nat} (hi : i < s.positions) :
    (s.memErase i).memPeek i = blank := by
  rw [State.memPeek_memErase s hm, if_pos ⟨rfl, hi⟩]

/-- Where no word-mark stands, the position holds the written value itself (R54). -/
theorem State.memPeek_memWrite_of_unmarked (s : State) (hm : s.mem.wf) {i : Nat} (hi : i < s.positions)
    (hw : hasWM (s.memPeek i) = false) (v : Word) : (s.memWrite i v).memPeek i = v := by
  rw [State.memPeek_memWrite s hm, if_pos ⟨rfl, hi⟩, hw, if_neg Bool.false_ne_true]

/-- A write that follows a destructive read of its position is plain: the read left the blank there, which
has no word-mark (R51, R54). -/
theorem State.memPeek_memWrite_memErase (s : State) (hm : s.mem.wf) {i : Nat} (hi : i < s.positions)
    (v : Word) : ((s.memErase i).memWrite i v).memPeek i = v := by
  have hwf : (s.memErase i).mem.wf := Memory.erase_wf hm s.positions i
  have hunmarked : hasWM ((s.memErase i).memPeek i) = false := by
    rw [State.memPeek_memErase_self s hm hi, hasWM_blank]
  exact State.memPeek_memWrite_of_unmarked _ hwf hi hunmarked v

/-- Settles O9: `memRead` gives `memPeek` and the state `memErase` leaves, so a second read gives what
`memPeek` finds after `memErase`. -/
theorem destructiveRead : Obligations.DestructiveRead := by
  unfold Obligations.DestructiveRead
  intro s i hm
  refine ⟨rfl, ⟨_, rfl⟩, ?eachPosition, ?secondRead, ?outOfBounds⟩
  case eachPosition => exact State.memPeek_memErase s hm i
  case secondRead => exact State.memPeek_memErase_self s hm
  case outOfBounds => exact fun h => ⟨State.memPeek_of_ge s h, State.memErase_of_ge s h⟩

/-- Settles O10: what every position holds after the write, the plain write after a destructive read, and
the ignored write out of bounds. -/
theorem stickyWrite : Obligations.StickyWrite := by
  unfold Obligations.StickyWrite
  intro s i v hm
  refine ⟨⟨_, rfl⟩, ?eachPosition, ?afterRead, ?outOfBounds⟩
  case eachPosition => exact fun j => State.memPeek_memWrite s hm i j v
  case afterRead => exact fun hi => State.memPeek_memWrite_memErase s hm hi v
  case outOfBounds => exact fun h => State.memWrite_of_ge s h v

end Sys2Proof.Machine
end

section
/-! The parity of characters (30_encoding.md R81). -/
namespace Sys2Proof

/-- Only the seven low bits count (R11). -/
theorem popcount7_congr {v w : Word} (h : ∀ i < 7, v.getLsbD i = w.getLsbD i) : popcount7 v = popcount7 w := by
  unfold popcount7
  rw [List.map_congr_left fun i hi => congrArg Bool.toNat (h i (List.mem_range.mp hi))]

/-- The ones are those of the code and the check bit. -/
theorem popcount7_eq_add_checkBit (w : Word) :
    popcount7 w = ((List.range 6).map fun i => (w.getLsbD i).toNat).sum + (w.getLsbD 6).toNat := by
  simp [popcount7, List.range_succ, Nat.add_assoc]

/-- The mask `0x40` is the check bit alone. -/
theorem getLsbD_xor_checkBit (w : Word) (i : Nat) :
    (w ^^^ 0x40#8).getLsbD i = (w.getLsbD i ^^ decide (i = 6)) := by
  have hmask : 0x40#8 = BitVec.twoPow 8 6 := rfl
  simp [hmask, BitVec.getLsbD_twoPow, eq_comm]

/-- The mask `0x80` is the word-mark alone. -/
theorem getLsbD_or_wordMark (w : Word) (i : Nat) :
    (w ||| 0x80#8).getLsbD i = (w.getLsbD i || decide (i = 7)) := by
  have hmask : 0x80#8 = BitVec.twoPow 8 7 := rfl
  simp [hmask, BitVec.getLsbD_twoPow, eq_comm]

/-- Flipping the check bit changes the parity. -/
theorem popcount7_xor_checkBit (w : Word) : popcount7 (w ^^^ 0x40#8) % 2 = (popcount7 w + 1) % 2 := by
  have hcode : ∀ i ∈ List.range 6, ((w ^^^ 0x40#8).getLsbD i).toNat = (w.getLsbD i).toNat := by
    intro i hi
    have hne : i ≠ 6 := (List.mem_range.mp hi).ne
    rw [getLsbD_xor_checkBit, decide_eq_false hne, Bool.xor_false]
  rw [popcount7_eq_add_checkBit, popcount7_eq_add_checkBit w, List.map_congr_left hcode, getLsbD_xor_checkBit]
  cases w.getLsbD 6 with
  | false => rfl
  | true => simp [Nat.add_assoc]

theorem oddParity_eq (w : Word) : oddParity w = if popcount7 w % 2 = 1 then w else w ^^^ 0x40#8 := by
  simp only [oddParity, parityCheck, beq_iff_eq]

theorem oddParity_of_odd {w : Word} (h : popcount7 w % 2 = 1) : oddParity w = w := by
  rw [oddParity_eq, if_pos h]

theorem oddParity_of_even {w : Word} (h : popcount7 w % 2 = 0) : oddParity w = w ^^^ 0x40#8 := by
  rw [oddParity_eq, if_neg (by omega)]

/-- What `oddParity` answers has odd parity. -/
theorem popcount7_oddParity (w : Word) : popcount7 (oddParity w) % 2 = 1 := by
  rcases Nat.mod_two_eq_zero_or_one (popcount7 w) with h | h
  · rw [oddParity_of_even h, popcount7_xor_checkBit]
    omega
  · rw [oddParity_of_odd h, h]

/-- `oddParity` leaves every bit but the check bit as it is. -/
theorem getLsbD_oddParity {i : Nat} (hi : i ≠ 6) (w : Word) : (oddParity w).getLsbD i = w.getLsbD i := by
  rw [oddParity_eq]
  split
  · rfl
  · rw [getLsbD_xor_checkBit, decide_eq_false hi, Bool.xor_false]

/-- A field below the check bit is kept. -/
theorem extractLsb'_oddParity {start len : Nat} (h : start + len ≤ 6) (w : Word) :
    (oddParity w).extractLsb' start len = w.extractLsb' start len := by
  ext j hj
  simp only [BitVec.getElem_extractLsb', getLsbD_oddParity (show start + j ≠ 6 by omega)]

@[simp] theorem code6_oddParity (w : Word) : code6 (oddParity w) = code6 w := extractLsb'_oddParity (by decide) w

@[simp] theorem digit_oddParity (w : Word) : digit (oddParity w) = digit w := extractLsb'_oddParity (by decide) w

@[simp] theorem zone_oddParity (w : Word) : zone (oddParity w) = zone w := extractLsb'_oddParity (by decide) w

@[simp] theorem hasWM_oddParity (w : Word) : hasWM (oddParity w) = hasWM w := getLsbD_oddParity (by decide) w

@[simp] theorem popcount7_or_wordMark (w : Word) : popcount7 (w ||| 0x80#8) = popcount7 w :=
  popcount7_congr fun i hi => by rw [getLsbD_or_wordMark, decide_eq_false hi.ne, Bool.or_false]

/-- A Word that has a word-mark is not changed by one more. -/
theorem or_wordMark_of_hasWM {w : Word} (h : hasWM w = true) : w ||| 0x80#8 = w := by
  refine BitVec.eq_of_getLsbD_eq fun i _ => ?_
  rw [getLsbD_or_wordMark]
  by_cases hi : i = 7
  · subst hi; simpa [hasWM] using h
  · simp [hi]

@[simp] theorem hasWM_setWordMark (w : Word) : hasWM (setWordMark w) = true := by
  rw [setWordMark, hasWM_oddParity, hasWM, getLsbD_or_wordMark]
  simp

@[simp] theorem code6_setWordMark (w : Word) : code6 (setWordMark w) = code6 w := by
  rw [setWordMark, code6_oddParity]
  ext j hj
  have hne : 0 + j ≠ 7 := by omega
  simp only [code6, BitVec.getElem_extractLsb', getLsbD_or_wordMark, decide_eq_false hne, Bool.or_false]

theorem popcount7_setWordMark (w : Word) : popcount7 (setWordMark w) % 2 = 1 := popcount7_oddParity _

/-- The second time the word-mark stands already and the parity is odd already. -/
theorem setWordMark_setWordMark (w : Word) : setWordMark (setWordMark w) = setWordMark w := by
  calc setWordMark (setWordMark w)
      = oddParity (setWordMark w) := congrArg oddParity (or_wordMark_of_hasWM (hasWM_setWordMark w))
    _ = setWordMark w := oddParity_of_odd (popcount7_setWordMark w)

/-- Settles O5: the word-mark is none of the seven bits that count, so `setWordMark` flips the check bit
exactly where `oddParity` would; the bits other than the check bit show the rest. -/
theorem parityOfCharacters : Obligations.ParityOfCharacters := by
  unfold Obligations.ParityOfCharacters
  intro w
  refine ⟨oddParity_eq w, rfl, ?odd, ?even, popcount7_setWordMark w, hasWM_setWordMark w,
    code6_setWordMark w, setWordMark_setWordMark w⟩
  case odd => exact fun h => oddParity_of_odd ((popcount7_or_wordMark w).symm ▸ h)
  case even => exact fun h => oddParity_of_even ((popcount7_or_wordMark w).symm ▸ h)

end Sys2Proof
end

section
/-! Addresses and the integers they denote (30_encoding.md R88 to R92). -/
namespace Sys2Proof.Machine

/-- The digit of the character of a code is the code's low four bits: parity is not seen in it. -/
@[simp] theorem digit_charWord (c : Code) : digit (charWord c) = c.extractLsb' 0 4 :=
  (digit_oddParity _).trans (BitVec.extractLsb'_setWidth_of_le (by decide))

@[simp] theorem zone_charWord (c : Code) : zone (charWord c) = c.extractLsb' 4 2 :=
  (zone_oddParity _).trans (BitVec.extractLsb'_setWidth_of_le (by decide))

/-- R89 against R85: the digit of `dcode(d)` has the value `d`, where 0 is the punch code 10. -/
theorem digitValue_digitCode : ∀ d < 10, digitValue ((digitCode d).extractLsb' 0 4) = d := by decide

theorem zone_digitCode : ∀ d < 10, (digitCode d).extractLsb' 4 2 = 0#2 := by decide

/-- The thousands, multiplied by 16, lie above the digit of the hundreds character. -/
theorem digit_thousands (t : Nat) : (BitVec.ofNat 6 (16 * t)).extractLsb' 0 4 = 0#4 := by
  apply BitVec.eq_of_toNat_eq
  rw [BitVec.extractLsb'_toNat, BitVec.toNat_ofNat, Nat.shiftRight_zero, BitVec.toNat_ofNat]
  omega

/-- The thousands, multiplied by 16, are the zone of the hundreds character. -/
theorem zone_thousands (t : Nat) : (BitVec.ofNat 6 (16 * t)).extractLsb' 4 2 = BitVec.ofNat 2 t := by
  apply BitVec.eq_of_toNat_eq
  rw [BitVec.extractLsb'_toNat, BitVec.toNat_ofNat, Nat.shiftRight_eq_div_pow, BitVec.toNat_ofNat]
  omega

/-- A tens or units character denotes its digit. -/
theorem digitValue_charWord {d : Nat} (hd : d < 10) : digitValue (digit (charWord (digitCode d))) = d := by
  rw [digit_charWord, digitValue_digitCode d hd]

/-- A hundreds character denotes its digit, whatever thousands its zone holds. -/
theorem digitValue_hundredsWord (t : Nat) {h : Nat} (hh : h < 10) :
    digitValue (digit (charWord (BitVec.ofNat 6 (16 * t) ||| digitCode h))) = h := by
  rw [digit_charWord, BitVec.extractLsb'_or, digit_thousands, BitVec.zero_or, digitValue_digitCode h hh]

/-- The zone of a hundreds character selects its thousands, whatever its digit is. -/
theorem zoneThousands_hundredsWord {t h : Nat} (ht : t < 4) (hh : h < 10) :
    zoneThousands (zone (charWord (BitVec.ofNat 6 (16 * t) ||| digitCode h))) = 1000 * t := by
  rw [zone_charWord, BitVec.extractLsb'_or, zone_thousands, zone_digitCode h hh, BitVec.or_zero, zoneThousands,
    BitVec.toNat_ofNat, Nat.mod_eq_of_lt ht]

/-- R92 for the encoding of 0..3999: its characters denote the decimal digits. -/
theorem addrInt_addrEncIn {v : Nat} (hv : v ≤ 3999) : addrInt (addrEncIn v) = v := by
  have ht : v / 1000 < 4 := by omega
  have hdigit : ∀ n, n % 10 < 10 := fun n => Nat.mod_lt n (by decide)
  calc addrInt (addrEncIn v)
      = 1000 * (v / 1000) + 100 * (v / 100 % 10) + 10 * (v / 10 % 10) + v % 10 := by
        simp only [addrInt, addrEncIn, zoneThousands_hundredsWord ht (hdigit _),
          digitValue_hundredsWord _ (hdigit _), digitValue_charWord (hdigit _)]
    _ = v := by omega

/-- In range the open value `ADDR_OOR` is not used (R89, R91). -/
theorem addrEnc_of_le {v : Nat} (hv : v ≤ 3999) : addrEnc (v : Int) = addrEncIn v := if_pos hv

/-- R92: decoding gives back the integer encoded. -/
theorem addrInt_addrEnc {v : Nat} (hv : v ≤ 3999) : addrInt (addrEnc (v : Int)) = v := by
  rw [addrEnc_of_le hv, addrInt_addrEncIn hv]

/-- Settles O6: the round trip, and the two addresses of R92 whose characters an encoding never has: blanks
for the digit 0, and a zone over a tens character. -/
theorem addressRoundTrip : Obligations.AddressRoundTrip := by
  unfold Obligations.AddressRoundTrip
  refine ⟨?roundTrip, ?blanks, ?zoned, ?blanksNotEncoded, ?zonedNotEncoded⟩
  case roundTrip => exact fun _ => addrInt_addrEnc
  case blanks | zoned | blanksNotEncoded | zonedNotEncoded => decide

end Sys2Proof.Machine
end

section
/-! The micro-cycles of the I-phase, one by one (40_fetch_fsm.md R123 to R133). A cycle and its statement are
two decision chains, compared test by test and branch by branch with `if_congr`; the goals left open are the
tests and the states that are not the same expression already. -/
namespace Sys2Proof.Machine

/-- `isOp` is the decoder's answer (R11, R84). -/
theorem State.isOp_iff {s : State} {i : Instr} : s.isOp i = true ↔ decode s.cfg s.ireg = .ok i := by
  unfold State.isOp isOpCode
  cases decode s.cfg s.ireg <;> simp

/-- The I-register holds one opcode at most. -/
theorem State.isOp_unique {s : State} {i j : Instr} (hi : s.isOp i = true) (hj : s.isOp j = true) : i = j :=
  Except.ok.inj ((State.isOp_iff.mp hi).symm.trans (State.isOp_iff.mp hj))

@[simp] theorem State.readNext_isOp (s : State) (i : Instr) : s.readNext.isOp i = s.isOp i := rfl

/-! The flags the fetch sets: each is set by its condition and kept otherwise. -/

theorem or_eq_ite (flag cond : Bool) : (flag || cond) = if cond = true then true else flag := by
  cases cond <;> simp

theorem cycleElimAtFour_eq_ite (s : State) :
    cycleElimAtFour s.cfg s.cycleElim s.ireg = if s.isOp .cs = true then true else s.cycleElim :=
  or_eq_ite s.cycleElim (s.isOp .cs)

theorem deferredAtFive_eq_ite (s : State) :
    deferredAtFive s.cfg s.deferred s.ireg s.areg =
      if s.isOp .br = true ∧ s.areg.getLsbD 0 = true then true else s.deferred :=
  (or_eq_ite s.deferred (s.isOp .br && s.areg.getLsbD 0)).trans
    (if_congr Bool.and_eq_true_iff rfl rfl)

theorem deferredAtSeven_eq_ite (s : State) :
    deferredAtSeven s.cfg s.deferred s.ireg = if s.isOp .cs = true then true else s.deferred :=
  or_eq_ite s.deferred (s.isOp .cs)

/-- `Stay()` (R121) with the counter it leads to. -/
theorem State.stay_eq {s : State} {c : Fin 9} (hc : c.val = s.counter.val + 1) :
    s.stay = { s with addrI := increase s.addrI, counter := c, result := some .proceed } := by
  have hmin : min (s.counter.val + 1) 8 = c.val := by omega
  have hcounter : s.stay.counter = c := Fin.ext hmin
  rw [← hcounter]
  rfl

/-! Cycle 0. -/

/-- Cycle 0 latches one of the two addresses, and `deferred` is clear either way (R123). -/
theorem cycle0_latch_eq (s : State) :
    (if s.deferred then { s.latchA with deferred := false } else s.latchI) =
      { s with addrS := if s.deferred then s.addrA else s.addrI, deferred := false } := by
  cases hd : s.deferred with
  | true => rfl
  | false => exact congrArg (fun d => { s.latchI with deferred := d }) hd

/-- Settles O12: the latched address is the one the character is read through, and `addrI` advances from its
own value. -/
theorem opcodeFetchCycle : Obligations.OpcodeFetchCycle := by
  unfold Obligations.OpcodeFetchCycle
  intro s hf hm hp hc
  refine ⟨_, _, rfl, rfl, ?_⟩
  rw [step_of_I hf hp, iStep_zero hc]
  simp only [cycle0, cycle0_latch_eq]
  rw [State.fetchToB_eq _ (by exact hm), State.stay_eq (c := 1) (by simp [hc])]
  rfl

/-! Cycles 1 to 7, each after `readNext`. -/

/-- Settles O13: the two ends of R125 under a word-mark, and the filled elements of R124 without one. -/
theorem addressCharacterCycles : Obligations.AddressCharacterCycles := by
  unfold Obligations.AddressCharacterCycles
  intro s k hf hm hp hc
  refine ⟨_, s.readNext, rfl, State.readNext_eq s hm, ?_⟩
  rw [step_of_I hf hp, iStep_address hc]
  refine congrArg Host.Outcome.next (if_congr Iff.rfl (if_congr ?nopStop rfl rfl) ?stay)
  case nopStop =>
    have hk : k.val < 2 ↔ k.val = 0 ∨ k.val = 1 := by omega
    simp [hk]
  case stay =>
    have hnext : (Fin.ofNat 9 (k.val + 2)).val = s.counter.val + 1 := by
      rw [Fin.val_ofNat, Nat.mod_eq_of_lt (by omega), hc]
    exact State.stay_eq hnext

/-- Settles O14: the BRANCH stop, then the word-mark, then the fresh `addrB`. -/
theorem cycleFour : Obligations.CycleFour := by
  unfold Obligations.CycleFour
  intro s hf hm hp hc
  refine ⟨_, s.readNext, rfl, State.readNext_eq s hm, ?_⟩
  rw [step_of_I hf hp, iStep_four hc]
  refine congrArg Host.Outcome.next (if_congr ?brStop rfl (if_congr Iff.rfl ?enter ?stay))
  case brStop => simp
  case enter => rw [cycleElimAtFour_eq_ite]; rfl
  case stay => exact State.stay_eq (by simp [hc])

/-- Settles O15: the word-mark and the filled element at both counters, BRANCH's flag at counter 5. -/
theorem cyclesFiveAndSix : Obligations.CyclesFiveAndSix := by
  unfold Obligations.CyclesFiveAndSix
  intro s hf hm hp
  refine ⟨_, s.readNext, rfl, State.readNext_eq s hm, ?five, ?six⟩
  case five =>
    intro hc
    rw [step_of_I hf hp, iStep_five hc]
    refine congrArg Host.Outcome.next (if_congr Iff.rfl ?enter ?stay)
    case enter => rw [deferredAtFive_eq_ite]; rfl
    case stay => exact State.stay_eq (by simp [hc])
  case six =>
    intro hc
    rw [step_of_I hf hp, iStep_six hc]
    exact congrArg Host.Outcome.next (if_congr Iff.rfl rfl (State.stay_eq (by simp [hc])))

/-! What a step does to `deferred` (R31); a cycle 7 with CLEAR STORAGE is left to `cycleSeven`. -/

theorem cycle0_deferred (s : State) : (cycle0 s).deferred = false := by
  cases hd : s.deferred <;> simp [cycle0, hd]

theorem cycleA_deferred (k : Fin 3) (s : State) : (cycleA k s).deferred = s.deferred := by
  simp only [cycleA]
  split_ifs <;> rfl

theorem cycle4_deferred (s : State) : (cycle4 s).deferred = s.deferred := by
  simp only [cycle4]
  split_ifs <;> rfl

/-- Only BRANCH sets `deferred` in cycle 5 (R130). -/
theorem cycle5_deferred_of_not_br {s : State} (h : s.isOp .br = false) : (cycle5 s).deferred = s.deferred := by
  simp only [cycle5]
  split_ifs
  · simp [deferredAtFive_eq_ite, h]
  · rfl

theorem cycle6_deferred (s : State) : (cycle6 s).deferred = s.deferred := by
  simp only [cycle6]
  split_ifs <;> rfl

/-- CLEAR STORAGE does not write `deferred`: no pass of its loop does (R192). -/
theorem execCs_deferred {s t : State} (h : execCs s = .next t) : t.deferred = s.deferred := by
  refine runLoop_keeps (P := fun u => u.deferred = s.deferred) (body := clearBody)
    (fun _ hu => hu) (fun _ hu => hu) ?_ h
  rfl

/-- With CLEAR STORAGE in the I-register no micro-cycle but cycle 7 sets `deferred`. -/
theorem iStep_deferred_of_cs {s t : State} (hcs : s.isOp .cs = true) (hc : s.counter ≠ 7)
    (h : iStep s = .next t) (hd : s.deferred = false) : t.deferred = false := by
  have hbr : s.isOp .br = false := Bool.eq_false_iff.mpr fun hbr => nomatch State.isOp_unique hcs hbr
  rcases iStep_next_cases h with
    ⟨-, rfl⟩ | ⟨k, -, rfl⟩ | ⟨-, rfl⟩ | ⟨-, rfl⟩ | ⟨-, rfl⟩ | ⟨h7, -⟩ | ⟨-, -, rfl⟩
  · exact cycle0_deferred s
  · rw [cycleA_deferred, hd]
  · rw [cycle4_deferred, hd]
  · rw [cycle5_deferred_of_not_br hbr, hd]
  · rw [cycle6_deferred, hd]
  · exact absurd h7 hc
  · simp [hd]

/-- The E-phase of CLEAR STORAGE keeps `deferred`. -/
theorem eStep_deferred_of_cs {s t : State} (hcs : s.isOp .cs = true) (h : eStep s = .next t) :
    t.deferred = s.deferred := by
  have hdecode := State.isOp_iff.mp hcs
  rcases eStep_next_cases h with ⟨i, u, hi, hexec, rfl⟩ | ⟨e, he, -⟩
  · cases hdecode.symm.trans hi
    rw [State.returnToI_deferred, execCs_deferred hexec]
  · cases hdecode.symm.trans he

/-- R132's last sentence: with CLEAR STORAGE in the I-register only cycle 7 sets `deferred`. -/
theorem deferred_set_under_cs {s t : State} (hcs : s.isOp .cs = true) (h : step s = .next t)
    (hd : s.deferred = false) (hset : t.deferred = true) : s.phase = .I ∧ s.counter = 7 := by
  obtain ⟨-, ⟨hp, hi⟩ | ⟨-, he⟩⟩ := step_next_cases h
  · refine ⟨hp, by_contra fun hc => ?_⟩
    exact Bool.false_ne_true ((iStep_deferred_of_cs hcs hc hi hd).symm.trans hset)
  · have hkept := eStep_deferred_of_cs hcs he
    exact absurd (hd.symm.trans (hkept.symm.trans hset)) Bool.false_ne_true

/-- Settles O16: the forced entry, then the word-mark, then the way on to cycle 8; what other steps do to
`deferred` is `deferred_set_under_cs`. -/
theorem cycleSeven : Obligations.CycleSeven := by
  unfold Obligations.CycleSeven
  refine ⟨fun s hf hm hp hc => ?_, fun _ _ => deferred_set_under_cs⟩
  refine ⟨_, s.readNext, rfl, State.readNext_eq s hm, ?_⟩
  rw [step_of_I hf hp, iStep_seven hc]
  refine congrArg Host.Outcome.next (if_congr ?forced ?enter (if_congr Iff.rfl rfl ?stay))
  case forced => simp
  case enter => rw [deferredAtSeven_eq_ite]; rfl
  case stay => exact State.stay_eq (by simp [hc])

/-! Cycle 8. -/

/-- The read of cycle 8 (R133) leaves storage alone. -/
theorem State.latchI_fetchToA_eq (s : State) (hm : s.mem.wf) :
    s.latchI.fetchToA =
      { s with addrS := s.addrI, areg := s.memPeek (addrInt s.addrI), needsCheckA := true } :=
  State.fetchToA_eq s.latchI hm

/-- Settles O17: the word-mark decides between the next state and the fault, and the state the fault carries
has its mark set, so that a step of it is stuck. -/
theorem cycleEightStop : Obligations.CycleEightStop := by
  unfold Obligations.CycleEightStop
  intro s hf hm hp hc
  have hstep : step s = cycle8 s := (step_of_I hf hp).trans (iStep_eight hc)
  have hcycle := State.latchI_fetchToA_eq s hm
  refine ⟨_, rfl, ?unmarked, ?marked⟩
  case unmarked =>
    intro hw
    simp [hstep, cycle8, hcycle, hw, State.incI, State.signal]
  case marked =>
    intro hw
    refine ⟨_, ?_, rfl, step_of_fault rfl⟩
    simp [hstep, cycle8, hcycle, hw, raiseCycle8Stop]

end Sys2Proof.Machine
end

section
/-! MOVE-DIGIT and MOVE-ZONE (41_data_move.md R163, R165). -/
namespace Sys2Proof.Machine

/-- A destructive read and the write that follows it put the written Word at their position, whatever stood
there, and leave every other position alone; out of bounds nothing changes (R51, R52, R54). -/
theorem State.memPeek_memWrite_memErase_eq_ite (s : State) (hm : s.mem.wf) (i : Nat) (v : Word) (j : Nat) :
    ((s.memErase i).memWrite i v).memPeek j = if j = i ∧ i < s.positions then v else s.memPeek j := by
  by_cases h : j = i ∧ i < s.positions
  · obtain ⟨rfl, hi⟩ := h
    rw [if_pos ⟨rfl, hi⟩, State.memPeek_memWrite_memErase s hm hi]
  · have hwf : (s.memErase i).mem.wf := Memory.erase_wf hm s.positions i
    rw [if_neg h, State.memPeek_memWrite _ hwf, State.memErase_positions, if_neg h,
      State.memPeek_memErase s hm, if_neg h]

/-- The A-cycle and the destructive B read (R160, R163, R165): both characters are in their registers, as
storage held them before, and the B position is blank. -/
theorem State.aCycle_latchB_eReadToB_eq (s : State) (hm : s.mem.wf) :
    s.aCycle.latchB.eReadToB = { s with
      areg := s.memPeek (encoded s.addrA)
      needsCheckA := true
      breg := s.memPeek (encoded s.addrB)
      needsCheckB := true
      addrA := decrease s.addrA
      addrS := s.addrB
      mem := (s.memErase (encoded s.addrB)).mem } := by
  rw [State.aCycle_eq s hm]
  rfl

/-- What MOVE-DIGIT and MOVE-ZONE leave of `s` when the Word they combine is `v`: the two instructions differ
in that Word alone (R163, R165). -/
def State.combined (s : State) (v : Word) : State :=
  { s with
    areg := s.memPeek (encoded s.addrA)
    needsCheckA := true
    breg := s.memPeek (encoded s.addrB)
    needsCheckB := true
    addrA := decrease s.addrA
    addrB := decrease s.addrB
    addrS := s.addrB
    mem := ((s.memErase (encoded s.addrB)).memWrite (encoded s.addrB) v).mem
    result := some .proceed }

theorem execMd_eq (s : State) (hm : s.mem.wf) :
    execMd s = .next (s.combined
      (combineDigit (s.memPeek (encoded s.addrB)) (s.memPeek (encoded s.addrA)))) := by
  rw [execMd, State.aCycle_latchB_eReadToB_eq s hm]
  rfl

theorem execMz_eq (s : State) (hm : s.mem.wf) :
    execMz s = .next (s.combined
      (combineDigit (s.memPeek (encoded s.addrA)) (s.memPeek (encoded s.addrB)))) := by
  rw [execMz, State.aCycle_latchB_eReadToB_eq s hm]
  rfl

/-- Settles O22: `execMd_eq` gives the state; its storage is that of a write after a destructive read of the
B position. -/
theorem moveDigitCombines : Obligations.MoveDigitCombines := by
  unfold Obligations.MoveDigitCombines
  intro s hm
  exact ⟨_, _, _, _, _, rfl, rfl, rfl, rfl, execMd_eq s hm,
    State.memPeek_memWrite_memErase_eq_ite s hm (encoded s.addrB) _⟩

/-- Settles O23: as MOVE-DIGIT. B's own word-mark is lost because the destructive read took it before the
write. -/
theorem moveZoneCombines : Obligations.MoveZoneCombines := by
  unfold Obligations.MoveZoneCombines
  intro s hm
  exact ⟨_, _, _, _, _, rfl, rfl, rfl, rfl, execMz_eq s hm,
    State.memPeek_memWrite_memErase_eq_ite s hm (encoded s.addrB) _⟩

end Sys2Proof.Machine
end

section
/-! The load and reset ports (70_reset_and_hazards.md R270, R272, R273). -/
namespace Sys2Proof.Machine

/-! Copying a card from an index on, under the sticky rule. -/

/-- The copy changes storage alone (R273). -/
theorem State.copyFrom_eq (s : State) (k : Nat) (bs : List Word) :
    s.copyFrom k bs = { s with mem := (s.copyFrom k bs).mem } := by
  induction bs generalizing s k with
  | nil => rfl
  | cons b bs ih => exact ih (s.memWrite k b) (k + 1)

/-- The copy keeps the canonical form. -/
theorem State.copyFrom_wf {s : State} (hm : s.mem.wf) (k : Nat) (bs : List Word) :
    (s.copyFrom k bs).mem.wf := by
  induction bs generalizing s k with
  | nil => exact hm
  | cons b bs ih => exact ih (s := s.memWrite k b) (Memory.write_wf hm s.positions k b) (k + 1)

/-- A write leaves every other position alone (R54). -/
theorem State.memPeek_memWrite_of_ne (s : State) (hm : s.mem.wf) {i j : Nat} (h : j ≠ i) (v : Word) :
    (s.memWrite i v).memPeek j = s.memPeek j := by
  rw [State.memPeek_memWrite s hm, if_neg fun hji => h hji.1]

/-- Positions before the first copied byte and after the last one are left alone. -/
theorem State.memPeek_copyFrom_of_outside (s : State) (hm : s.mem.wf) {k j : Nat} {bs : List Word}
    (h : j < k ∨ k + bs.length ≤ j) : (s.copyFrom k bs).memPeek j = s.memPeek j := by
  induction bs generalizing s k with
  | nil => rfl
  | cons b bs ih =>
    rw [List.length_cons] at h
    calc (s.copyFrom k (b :: bs)).memPeek j
        = (s.memWrite k b).memPeek j :=
          ih (s.memWrite k b) (Memory.write_wf hm s.positions k b) (by omega)
      _ = s.memPeek j := State.memPeek_memWrite_of_ne s hm (by omega) b

/-- Each copied byte stands at its own position, under the word-mark that stood there before the copy: every
position is written once, so no earlier byte decides over its mark (R54, R273). -/
theorem State.memPeek_copyFrom_of_inside (s : State) (hm : s.mem.wf) {k i : Nat} {bs : List Word}
    (hi : i < bs.length) (hpos : k + i < s.positions) :
    (s.copyFrom k bs).memPeek (k + i) =
      if hasWM (s.memPeek (k + i)) then setWordMark bs[i] else bs[i] := by
  induction bs generalizing s k i with
  | nil => exact absurd hi (Nat.not_lt_zero i)
  | cons b bs ih =>
    have hwf : (s.memWrite k b).mem.wf := Memory.write_wf hm s.positions k b
    cases i with
    | zero =>
      calc (s.copyFrom k (b :: bs)).memPeek k
          = (s.memWrite k b).memPeek k :=
            State.memPeek_copyFrom_of_outside _ hwf (.inl (Nat.lt_succ_self k))
        _ = if hasWM (s.memPeek k) then setWordMark b else b := by
            rw [State.memPeek_memWrite s hm, if_pos ⟨rfl, hpos⟩]
    | succ i =>
      have hidx : k + (i + 1) = k + 1 + i := by omega
      have hkept : (s.memWrite k b).memPeek (k + 1 + i) = s.memPeek (k + 1 + i) :=
        State.memPeek_memWrite_of_ne s hm (by omega) b
      rw [hidx, ← hkept]
      exact ih (s.memWrite k b) hwf (Nat.lt_of_succ_lt_succ hi) (hidx ▸ hpos)

/-! The load port: the copy from index 0, then the word-mark at 0. -/

/-- Every capacity has a position 0 (R7). -/
theorem State.positions_pos (s : State) : 0 < s.positions := by
  unfold State.positions
  cases s.cfg.size <;> decide

theorem State.load_eq (s : State) (bytes : List Word) :
    s.load bytes = { s with mem := (s.load bytes).mem } := by
  rw [State.load, State.copyFrom_eq]
  rfl

@[simp] theorem State.load_positions (s : State) (bytes : List Word) :
    (s.load bytes).positions = s.positions := by
  rw [State.load_eq]
  rfl

theorem State.memPeek_load_zero (s : State) (hm : s.mem.wf) (bytes : List Word) :
    (s.load bytes).memPeek 0 = setWordMark ((s.copyFrom 0 bytes).memPeek 0) := by
  rw [State.load, State.memPeek_memSetWM _ (State.copyFrom_wf hm 0 bytes),
    if_pos ⟨rfl, State.positions_pos _⟩]

theorem State.memPeek_load_of_pos (s : State) (hm : s.mem.wf) (bytes : List Word) {k : Nat} (hk : 1 ≤ k) :
    (s.load bytes).memPeek k = (s.copyFrom 0 bytes).memPeek k := by
  rw [State.load, State.memPeek_memSetWM _ (State.copyFrom_wf hm 0 bytes), if_neg (by omega)]

/-- Settles O45: the copy gives every position; position 0 holds the same Word whether or not a word-mark stood
there before, since `setWordMark` twice is `setWordMark` once. -/
theorem loadPortCopiesCard : Obligations.LoadPortCopiesCard := by
  unfold Obligations.LoadPortCopiesCard
  intro s bytes hm
  have hpeek : ∀ k, Memory.peek s.positions (s.load bytes).mem k = (s.load bytes).memPeek k := fun k => by
    rw [State.memPeek, State.load_positions]
  refine ⟨(s.load bytes).mem, congrArg Host.Outcome.next (State.load_eq s bytes), ?_⟩
  simp only [hpeek]
  refine ⟨?copied, ?first, ?noCard, ?past⟩
  case copied =>
    intro k h hk hpos
    have hcopy := State.memPeek_copyFrom_of_inside s hm (k := 0) h (by omega)
    rw [Nat.zero_add] at hcopy
    rw [State.memPeek_load_of_pos s hm bytes hk, hcopy]
  case first =>
    intro h
    rw [State.memPeek_load_zero s hm,
      State.memPeek_copyFrom_of_inside s hm (k := 0) h (State.positions_pos s)]
    split
    · exact setWordMark_setWordMark _
    · rfl
  case noCard =>
    rintro rfl
    exact State.memPeek_load_zero s hm []
  case past =>
    intro k hk hlen
    rw [State.memPeek_load_of_pos s hm bytes hk,
      State.memPeek_copyFrom_of_outside s hm (.inr (by omega))]

/-! The reset port. -/

/-- After the reset port the next step is cycle 0: there is no fault mark, and the FSM stands at its start
(R270). -/
theorem step_resetPort (s : State) : step s.resetPort = .next (cycle0 s.resetPort) :=
  (step_of_I rfl rfl).trans (iStep_zero rfl)

/-- Settles O44: `resetPort` lists no position, so storage reads blank whatever the configuration, and its
next step is cycle 0. -/
theorem resetPortRestores : Obligations.ResetPortRestores := by
  unfold Obligations.ResetPortRestores
  intro s
  exact ⟨s.resetPort, rfl, rfl, fun _ hi => State.memPeek_of_mem_nil rfl hi, _, step_resetPort s⟩

end Sys2Proof.Machine
end

section
/-! The bits no rule reads (10_state.md R24, R32, R33): every operation gives the same result, up to these bits,
from a state and from the state without them. -/
namespace Sys2Proof.Machine

/-! The I-phase. Each micro-cycle is a chain of tests on what `forget` keeps, and its branches write nothing
that depends on the forgotten bits, so branch by branch the two sides are the same expression. -/

theorem cycle0_forget (s : State) : (cycle0 s).forget = (cycle0 s.forget).forget := by
  simp only [cycle0, cycle0_latch_eq]
  rfl

theorem cycleA_forget (k : Fin 3) (s : State) : (cycleA k s).forget = (cycleA k s.forget).forget := by
  simp only [cycleA, apply_ite State.forget]
  exact if_congr Iff.rfl (if_congr Iff.rfl rfl rfl) rfl

theorem cycle4_forget (s : State) : (cycle4 s).forget = (cycle4 s.forget).forget := by
  simp only [cycle4, apply_ite State.forget]
  exact if_congr Iff.rfl rfl (if_congr Iff.rfl rfl rfl)

theorem cycle5_forget (s : State) : (cycle5 s).forget = (cycle5 s.forget).forget := by
  simp only [cycle5, apply_ite State.forget]
  exact if_congr Iff.rfl rfl rfl

theorem cycle6_forget (s : State) : (cycle6 s).forget = (cycle6 s.forget).forget := by
  simp only [cycle6, apply_ite State.forget]
  exact if_congr Iff.rfl rfl rfl

theorem cycle7_forget (s : State) : (cycle7 s).forget = (cycle7 s.forget).forget := by
  simp only [cycle7, apply_ite State.forget]
  exact if_congr Iff.rfl rfl (if_congr Iff.rfl rfl rfl)

theorem cycle8_forget (s : State) : forgetOutcome (cycle8 s) = forgetOutcome (cycle8 s.forget) := by
  simp only [cycle8, apply_ite forgetOutcome]
  exact if_congr Iff.rfl rfl rfl

theorem iStep_forget (s : State) : forgetOutcome (iStep s) = forgetOutcome (iStep s.forget) := by
  have hcounter : s.forget.counter = s.counter := rfl
  unfold iStep
  rw [hcounter]
  split
  · exact congrArg Host.Outcome.next (cycle0_forget s)
  · exact congrArg Host.Outcome.next (cycleA_forget 0 s)
  · exact congrArg Host.Outcome.next (cycleA_forget 1 s)
  · exact congrArg Host.Outcome.next (cycleA_forget 2 s)
  · exact congrArg Host.Outcome.next (cycle4_forget s)
  · exact congrArg Host.Outcome.next (cycle5_forget s)
  · exact congrArg Host.Outcome.next (cycle6_forget s)
  · exact congrArg Host.Outcome.next (cycle7_forget s)
  · exact cycle8_forget s

/-! The loops of the E-phase. -/

/-- One pass of a loop neither reads the forgotten bits nor lets them decide whether it ends. -/
def ForgetsBits (body : State → State × Bool) : Prop :=
  ∀ s, (body s).1.forget = (body s.forget).1.forget ∧ (body s).2 = (body s.forget).2

theorem moveBody_forgetsBits : ForgetsBits moveBody := by
  intro s
  have hread : s.forget.aCycle.latchB.eReadToB.breg = s.aCycle.latchB.eReadToB.breg := rfl
  simp only [moveBody, hread]
  split
  · exact ⟨rfl, rfl⟩
  · exact ⟨rfl, rfl⟩

theorem loadBody_forgetsBits : ForgetsBits loadBody := fun _ => ⟨rfl, rfl⟩

theorem compareBody_forgetsBits : ForgetsBits compareBody := fun _ => ⟨rfl, rfl⟩

theorem clearBody_forgetsBits : ForgetsBits clearBody := fun _ => ⟨rfl, rfl⟩

theorem iterate_forget {body : State → State × Bool} (hbody : ForgetsBits body) (n : Nat) {s t : State}
    (h : s.forget = t.forget) :
    (iterate body n s).map State.forget = (iterate body n t).map State.forget := by
  induction n generalizing s t with
  | zero => rfl
  | succ n ih =>
    obtain ⟨hs, hsEnds⟩ := hbody s
    obtain ⟨ht, htEnds⟩ := hbody t
    have hpass : (body s).1.forget = (body t).1.forget := by rw [hs, ht, h]
    have hends : (body s).2 = (body t).2 := by rw [hsEnds, htEnds, h]
    have hnext : State.forget { (body s).1 with eFirst := some false } =
        State.forget { (body t).1 with eFirst := some false } :=
      congrArg (fun u : State => { u with eFirst := some false }) hpass
    simp only [iterate, hends]
    split
    · exact congrArg some hnext
    · exact ih hnext

theorem runLoop_forget {body : State → State × Bool} (hbody : ForgetsBits body) {s t : State}
    (h : s.forget = t.forget) : forgetOutcome (runLoop body s) = forgetOutcome (runLoop body t) := by
  have hstart : State.forget { s with eFirst := some true } = State.forget { t with eFirst := some true } :=
    congrArg (fun u : State => { u with eFirst := some true }) h
  have hloop := iterate_forget hbody loopFuel hstart
  rcases runLoop_cases body s with ⟨u, hu, hs⟩ | ⟨hu, hs⟩ <;>
    rcases runLoop_cases body t with ⟨v, hv, ht⟩ | ⟨hv, ht⟩ <;>
    rw [hu, hv] at hloop <;> rw [hs, ht]
  · have huv : u.forget = v.forget := Option.some.inj hloop
    exact congrArg (fun w : State => Host.Outcome.next (w.signal .proceed)) huv
  · cases hloop
  · cases hloop

/-! The E-phase. -/

theorem execHalt_forget (s : State) : forgetOutcome (execHalt s) = forgetOutcome (execHalt s.forget) := by
  simp only [execHalt, apply_ite forgetOutcome]
  exact if_congr Iff.rfl rfl rfl

theorem exec_forget (i : Instr) (s : State) : forgetOutcome (exec i s) = forgetOutcome (exec i s.forget) := by
  cases i with
  | move => exact runLoop_forget moveBody_forgetsBits rfl
  | load => exact runLoop_forget loadBody_forgetsBits rfl
  | cmp => exact runLoop_forget compareBody_forgetsBits rfl
  | cs => exact runLoop_forget clearBody_forgetsBits rfl
  | halt => exact execHalt_forget s
  | swm | cwm | md | mz | nop | print | read | br => rfl

/-- The return to the I-phase reads none of the bits. -/
theorem afterHandler_forget {o p : Host.Outcome State Fault Refusal} (h : forgetOutcome o = forgetOutcome p) :
    forgetOutcome (afterHandler o) = forgetOutcome (afterHandler p) := by
  have hreturn : ∀ q, forgetOutcome (afterHandler q) = forgetOutcome (afterHandler (forgetOutcome q)) := by
    intro q
    cases q with
    | next t => rfl
    | fault f => cases f <;> rfl
    | refused r => rfl
  rw [hreturn o, hreturn p, h]

theorem eStep_forget (s : State) : forgetOutcome (eStep s) = forgetOutcome (eStep s.forget) := by
  have hdecode : decode s.forget.cfg s.forget.ireg = decode s.cfg s.ireg := rfl
  unfold eStep
  rw [hdecode]
  split
  · next i _ => exact afterHandler_forget (exec_forget i s)
  · rfl

/-- Settles O51: the fault mark, the phase and the counter choose the same micro-cycle or handler, and each of
them gives the same outcome up to the forgotten bits. -/
theorem housekeepingBitsAreNeverRead : Obligations.HousekeepingBitsAreNeverRead := by
  unfold Obligations.HousekeepingBitsAreNeverRead
  intro s
  have hfault : s.forget.fault = s.fault := rfl
  have hphase : s.forget.phase = s.phase := rfl
  unfold step
  rw [hfault, hphase]
  split
  · rfl
  · split
    · exact iStep_forget s
    · exact eStep_forget s

end Sys2Proof.Machine
end

section
/-! The opcode of a character (30_encoding.md R84, R97, R98) and the text of an instruction (R94, R95). -/
namespace Sys2Proof

/-! The character table, read either way. -/

/-- Where the values of `f` on a list differ, nothing before an element has the value of `f` on it. -/
theorem exists_append_of_mem_of_nodup_map {α β : Type} {f : α → β} {l : List α} (hl : (l.map f).Nodup) {e : α}
    (he : e ∈ l) : ∃ l₁ l₂, l = l₁ ++ e :: l₂ ∧ ∀ p ∈ l₁, f p ≠ f e := by
  obtain ⟨l₁, l₂, rfl⟩ := List.append_of_mem he
  refine ⟨l₁, l₂, rfl, fun p hp => ?_⟩
  rw [List.map_append, List.nodup_append] at hl
  exact hl.2.2 (f p) (List.mem_map_of_mem hp) (f e) (by simp)

theorem charOf_eq_some_iff {cfg : Config} (hcodes : (cfg.table.map (·.1)).Nodup) {w : Word} {ch : Char} :
    charOf cfg w = some ch ↔ (code6 w, ch) ∈ cfg.table := by
  rw [charOf, List.lookup_eq_some_iff]
  constructor
  · rintro ⟨l₁, l₂, h, -⟩
    simp [h]
  · intro h
    obtain ⟨l₁, l₂, heq, hne⟩ := exists_append_of_mem_of_nodup_map hcodes h
    exact ⟨l₁, l₂, heq, fun p hp => bne_iff_ne.mpr (hne p hp).symm⟩

theorem codeOfChar_eq_some_iff {cfg : Config} (hchars : (cfg.table.map (·.2)).Nodup) {ch : Char} {c : Code} :
    codeOfChar cfg ch = some c ↔ (c, ch) ∈ cfg.table := by
  rw [codeOfChar, Option.map_eq_some_iff]
  constructor
  · rintro ⟨⟨c', ch'⟩, hfind, rfl⟩
    obtain rfl : ch' = ch := by simpa using List.find?_some hfind
    exact List.mem_of_find?_eq_some hfind
  · intro h
    obtain ⟨l₁, l₂, heq, hne⟩ := exists_append_of_mem_of_nodup_map hchars h
    refine ⟨(c, ch), List.find?_eq_some_iff_append.mpr ⟨by simp, l₁, l₂, heq, fun p hp => ?_⟩, rfl⟩
    simpa using hne p hp

/-! The opcode of a character. -/

theorem opOfChar_opChar (i : Instr) : opOfChar (opChar i) = some i := by
  cases i <;> decide

/-- R97: an opcode has one character, and no two share one. -/
theorem opOfChar_eq_some_iff {ch : Char} {i : Instr} : opOfChar ch = some i ↔ ch = opChar i := by
  constructor
  · intro h
    exact (by simpa using List.find?_some h : opChar i = ch).symm
  · rintro rfl
    exact opOfChar_opChar i

theorem decode_eq_ok_iff {cfg : Config} {w : Word} {i : Instr} :
    decode cfg w = .ok i ↔ charOf cfg w = some (opChar i) := by
  have hbind : (charOf cfg w).bind opOfChar = some i ↔ charOf cfg w = some (opChar i) := by
    simp [Option.bind_eq_some_iff, opOfChar_eq_some_iff]
  rw [← hbind, decode]
  cases (charOf cfg w).bind opOfChar <;> simp

/-- R98: where no opcode is decoded the rejection names the code. -/
theorem decode_eq_error_of_ne_ok {cfg : Config} {w : Word} (h : ∀ i, decode cfg w ≠ .ok i) :
    decode cfg w = .error (.noHandler (code6 w)) := by
  unfold decode at h ⊢
  cases hop : (charOf cfg w).bind opOfChar with
  | none => rfl
  | some i => exact absurd (by rw [hop]) (h i)

/-- Word-mark and check bit are ignored (R84). -/
theorem decode_congr {cfg : Config} {v w : Word} (h : code6 v = code6 w) : decode cfg v = decode cfg w := by
  simp only [decode, charOf, h]

theorem decode_eq_ok_iff_opCode {cfg : Config} (hcfg : cfg.wellFormed) {w : Word} {i : Instr} :
    decode cfg w = .ok i ↔ opCode cfg i = some (code6 w) := by
  obtain ⟨hcodes, hchars, -⟩ := hcfg
  rw [decode_eq_ok_iff, charOf_eq_some_iff hcodes, opCode, codeOfChar_eq_some_iff hchars]

/-- Settles O2: both sides say that the table pairs the code with the opcode's character. -/
theorem decodeMatchesOpcodeCode : Obligations.DecodeMatchesOpcodeCode := by
  unfold Obligations.DecodeMatchesOpcodeCode
  intro cfg hcfg w
  have hiff : ∀ i, decode cfg w = .ok i ↔ opCode cfg i = some (code6 w) :=
    fun _ => decode_eq_ok_iff_opCode hcfg
  exact ⟨hiff, fun h => decode_eq_error_of_ne_ok fun i hi => h i ((hiff i).mp hi)⟩

/-- Settles O1: closed words under the default table. -/
theorem opcodeWordsDecode : Obligations.OpcodeWordsDecode := by
  unfold Obligations.OpcodeWordsDecode
  decide

/-! The text of an instruction. -/

/-- The character `w`, met after `k` operand characters, is no part of the instruction: the forced end of R132,
a word-mark (R94), or the `isBlank` stop of BRANCH (R127). -/
abbrev endsText (op : Instr) (k : Nat) (w : Word) : Prop :=
  (k = 6 ∧ forcedAtSeven op = true) ∨ hasWM w = true ∨ (op = .br ∧ k = 3 ∧ isBlank w = true)

theorem forcedAtSeven_iff {op : Instr} : forcedAtSeven op = true ↔ op = .swm ∨ op = .cs := by
  simp [forcedAtSeven]

/-- A text is well formed when it has at most six operand characters and none of them ends it. -/
theorem wellFormed_iff (t : Text) : t.wellFormed = true ↔
    t.operands.length ≤ 6 ∧ ∀ k (h : k < t.operands.length), ¬ endsText t.op k t.operands[k] := by
  have hmark : t.noMark = true ↔ ∀ k (h : k < t.operands.length), hasWM t.operands[k] = false := by
    simp [Text.noMark, List.forall_mem_iff_forall_getElem]
  have hbranch : t.branchOk = true ↔
      (t.op = .br → ∀ h : 3 < t.operands.length, isBlank t.operands[3] = false) := by
    by_cases h : 3 < t.operands.length <;> simp [Text.branchOk, h, imp_iff_not_or]
  simp only [Text.wellFormed, Bool.and_eq_true, hmark, hbranch, Text.lengthOk, decide_eq_true_eq, and_assoc]
  refine and_congr_right fun hlen => ⟨?_, fun h => ⟨fun k hk => ?_, fun hop hk => ?_⟩⟩
  · rintro ⟨hwm, hbr⟩ k hk (⟨rfl, -⟩ | hw | ⟨hop, rfl, hblank⟩)
    · omega
    · exact Bool.false_ne_true ((hwm k hk).symm.trans hw)
    · exact Bool.false_ne_true ((hbr hop hk).symm.trans hblank)
  · exact Bool.eq_false_iff.mpr fun hw => h k hk (.inr (.inl hw))
  · exact Bool.eq_false_iff.mpr fun hblank => h 3 hk (.inr (.inr ⟨hop, rfl, hblank⟩))

/-- A character that ends the instruction is left where it is. -/
theorem splitOperands_of_endsText {op : Instr} {k : Nat} {w : Word} (h : endsText op k w) (ws : List Word) :
    splitOperands op k (w :: ws) = .ok ([], w :: ws) := by
  rw [splitOperands]
  split_ifs with hforced hmark hblank hlong
  · rfl
  · rfl
  · rfl
  · simp [endsText, hforced, hmark, hblank] at h
  · simp [endsText, hforced, hmark, hblank] at h

/-- A character that does not end it is the next operand character, unless it is the eighth one. -/
theorem splitOperands_of_not_endsText {op : Instr} {k : Nat} {w : Word} (h : ¬ endsText op k w) (ws : List Word) :
    splitOperands op k (w :: ws) =
      if k = 6 then .error .longForm
      else (splitOperands op (k + 1) ws).map fun p => (w :: p.1, p.2) := by
  obtain ⟨hforced, hmark, hblank⟩ : ¬(k = 6 ∧ forcedAtSeven op = true) ∧ ¬ hasWM w = true ∧
      ¬(op = .br ∧ k = 3 ∧ isBlank w = true) := by simpa only [endsText, not_or] using h
  rw [splitOperands, if_neg hforced, if_neg hmark, if_neg hblank]
  refine if_congr Iff.rfl rfl ?_
  cases splitOperands op (k + 1) ws <;> rfl

/-- Operand characters that do not end the instruction, and a character that does, are told apart. -/
theorem splitOperands_append {op : Instr} {x : Word} (rest : List Word) {k : Nat} {taken : List Word}
    (hlen : k + taken.length ≤ 6) (htaken : ∀ j (h : j < taken.length), ¬ endsText op (k + j) taken[j])
    (hx : endsText op (k + taken.length) x) :
    splitOperands op k (taken ++ x :: rest) = .ok (taken, x :: rest) := by
  induction taken generalizing k with
  | nil => exact splitOperands_of_endsText hx rest
  | cons w ws ih =>
    rw [List.length_cons] at hlen hx
    have htail : splitOperands op (k + 1) (ws ++ x :: rest) = .ok (ws, x :: rest) := by
      refine ih (by omega) (fun j hj => ?_) (by rwa [Nat.add_assoc, Nat.add_comm 1])
      have hnot := htaken (j + 1) (Nat.succ_lt_succ hj)
      rwa [List.getElem_cons_succ, ← Nat.add_assoc, Nat.add_right_comm] at hnot
    have hw : ¬ endsText op k w := htaken 0 (Nat.succ_pos _)
    rw [List.cons_append, splitOperands_of_not_endsText hw, if_neg (by omega), htail]
    rfl

/-- What `splitOperands` answers is a splitting of the list, and no character it took ends the instruction. -/
theorem splitOperands_ok {op : Instr} {ws taken rest : List Word} {k : Nat} (hk : k ≤ 6)
    (h : splitOperands op k ws = .ok (taken, rest)) :
    ws = taken ++ rest ∧ k + taken.length ≤ 6 ∧
      ∀ j (hj : j < taken.length), ¬ endsText op (k + j) taken[j] := by
  induction ws generalizing k taken with
  | nil =>
    rw [splitOperands] at h
    split_ifs at h
    cases h
    exact ⟨rfl, hk, fun j hj => absurd hj (Nat.not_lt_zero j)⟩
  | cons w ws ih =>
    by_cases hw : endsText op k w
    · rw [splitOperands_of_endsText hw] at h
      cases h
      exact ⟨rfl, hk, fun j hj => absurd hj (Nat.not_lt_zero j)⟩
    · rw [splitOperands_of_not_endsText hw] at h
      split_ifs at h with hk6
      cases htail : splitOperands op (k + 1) ws with
      | error e => rw [htail] at h; cases h
      | ok p =>
        rw [htail] at h
        cases h
        obtain ⟨hws, hlen, hnot⟩ := ih (by omega) htail
        refine ⟨by rw [hws, List.cons_append], by rw [List.length_cons]; omega, fun j hj => ?_⟩
        cases j with
        | zero => exact hw
        | succ j =>
          have := hnot j (Nat.lt_of_succ_lt_succ hj)
          rwa [Nat.add_assoc, Nat.add_comm 1] at this

/-- The opcode character of an encoding decodes to the opcode. -/
theorem decode_encoded_opcode {cfg : Config} (hcfg : cfg.wellFormed) {i : Instr} {c : Code}
    (hc : opCode cfg i = some c) : decode cfg (setWordMark (charWord c)) = .ok i := by
  have hcode : code6 (setWordMark (charWord c)) = c := by
    rw [code6_setWordMark, charWord, code6_oddParity]
    exact BitVec.extractLsb'_setWidth_of_le (by decide) |>.trans BitVec.extractLsb'_eq_self
  rw [decode_eq_ok_iff_opCode hcfg, hcode, hc]

/-- A well-formed table has a code for every opcode (R97). -/
theorem exists_opCode {cfg : Config} (hcfg : cfg.wellFormed) (i : Instr) : ∃ c, opCode cfg i = some c := by
  obtain ⟨-, hchars, hall⟩ := hcfg
  have hi : i ∈ Instr.all := by cases i <;> decide
  obtain ⟨⟨c, ch⟩, he, rfl⟩ := List.mem_map.mp (hall i hi)
  exact ⟨c, (codeOfChar_eq_some_iff hchars).mpr he⟩

/-- Settles O3: the opcode character decodes back, and none of a well-formed text's operand characters ends it
before the character that follows. -/
theorem decodeTextInvertsEncode : Obligations.DecodeTextInvertsEncode := by
  unfold Obligations.DecodeTextInvertsEncode
  intro cfg t hcfg hwf
  obtain ⟨hlen, hnot⟩ := (wellFormed_iff t).mp hwf
  obtain ⟨c, hc⟩ := exists_opCode hcfg t.op
  refine ⟨_, by rw [encode, hc]; rfl, fun x rest hx => ?_⟩
  have hends : endsText t.op (0 + t.operands.length) x := by
    rw [Nat.zero_add, endsText, forcedAtSeven_iff]
    tauto
  have hsplit : splitOperands t.op 0 (t.operands ++ x :: rest) = .ok (t.operands, x :: rest) := by
    refine splitOperands_append rest (by omega) (fun j hj => ?_) hends
    rw [Nat.zero_add]
    exact hnot j hj
  simp only [List.cons_append, decodeText, decode_encoded_opcode hcfg hc, hsplit]

/-- Settles O4: the operand characters are those `splitOperands` took. -/
theorem decodedTextIsWellFormed : Obligations.DecodedTextIsWellFormed := by
  unfold Obligations.DecodedTextIsWellFormed
  intro cfg ws rest t h
  cases ws with
  | nil => cases h
  | cons c ws =>
    rw [decodeText] at h
    split at h
    · cases h
    · next op hop =>
      split at h
      · next operands left hsplit =>
        cases h
        obtain ⟨hws, hlen, hnot⟩ := splitOperands_ok (Nat.zero_le 6) hsplit
        simp only [Nat.zero_add] at hlen hnot
        exact ⟨(wellFormed_iff _).mpr ⟨hlen, hnot⟩, c, hop, by rw [hws]⟩
      · cases h

end Sys2Proof

namespace Sys2Proof.Machine

/-! The opcodes kept out of `addrB` (40_fetch_fsm.md R126). -/

/-- The two opcodes two positions choose: one of the ten candidates, and one of the nine left. -/
def candidatePair (a : Fin 10) (b : Fin 9) : List Instr :=
  (mirrorCandidates[a.val]?).toList ++ ((mirrorCandidates.eraseIdx a.val)[b.val]?).toList

theorem noMirrorExtra_eq : noMirrorExtra = candidatePair Config.noMirrorFirst Config.noMirrorSecond := rfl

/-- Whichever the positions are, the two are different candidates. -/
theorem candidatePair_spec : ∀ a b, (candidatePair a b).length = 2 ∧ (candidatePair a b).Nodup ∧
    ∀ i ∈ candidatePair a b, i ∈ mirrorCandidates := by
  decide

theorem noMirrorExtra_ne {i : Instr} (h : i ∈ noMirrorExtra) : i ≠ .move ∧ i ≠ .load ∧ i ≠ .cs := by
  have hcandidate : ∀ i ∈ mirrorCandidates, i ≠ .move ∧ i ≠ .load ∧ i ≠ .cs := by decide
  exact hcandidate i ((candidatePair_spec _ _).2.2 i h)

theorem mirrored_eq_false_iff (cfg : Config) (w : Word) : mirrored cfg w = false ↔
    ∃ i, decode cfg w = .ok i ∧ (i = .move ∨ i = .load ∨ i ∈ noMirrorExtra) := by
  have hcs : Instr.cs ∉ noMirrorExtra := fun h => (noMirrorExtra_ne h).2.2 rfl
  unfold mirrored
  cases decode cfg w with
  | error e => simp
  | ok i => cases i <;> simp [hcs]

/-- Settles O8: `mirrored` opcode by opcode, and what every choice of two candidates has. -/
theorem mirroringExceptions : Obligations.MirroringExceptions := by
  unfold Obligations.MirroringExceptions
  obtain ⟨hlen, hnodup, -⟩ := candidatePair_spec Config.noMirrorFirst Config.noMirrorSecond
  exact ⟨mirrored_eq_false_iff, hlen, hnodup, fun _ => noMirrorExtra_ne⟩

/-- Codes are mirrored alike whatever their control bits. -/
theorem mirrored_congr {cfg : Config} {v w : Word} (h : code6 v = code6 w) : mirrored cfg v = mirrored cfg w := by
  simp only [mirrored, decode_congr h]

end Sys2Proof.Machine
end

section
/-! The neighbours of an address (30_encoding.md R89 to R91). -/
namespace Sys2Proof

/-- The character of a code has no word-mark. -/
@[simp] theorem hasWM_charWord (c : Code) : hasWM (charWord c) = false := by
  rw [charWord, hasWM_oddParity, hasWM, BitVec.getLsbD_setWidth, BitVec.getLsbD_of_ge c 7 (by decide),
    Bool.and_false]

theorem parityCheck_charWord (c : Code) : parityCheck (charWord c) = true :=
  beq_iff_eq.mpr (popcount7_oddParity _)

end Sys2Proof

namespace Sys2Proof.Machine

/-- Outside 0..3999 an encoding is the open `ADDR_OOR` (R91). -/
theorem addrEnc_of_out {v : Int} (h : v < 0 ∨ 3999 < v) : addrEnc v = Config.addrOor v := by
  cases v with
  | ofNat n => exact if_neg (by simp only [Int.ofNat_eq_natCast] at h; omega)
  | negSucc n => rfl

theorem increase_of_lt {a : Address} (h : addrInt a < 3999) : addrInt (increase a) = addrInt a + 1 :=
  addrInt_addrEnc (v := addrInt a + 1) (by omega)

/-- One less than a positive integer, encoded (R91). -/
theorem decrease_eq {a : Address} (h : 1 ≤ addrInt a) : decrease a = addrEnc ((addrInt a - 1 : Nat) : Int) := by
  rw [decrease, Nat.cast_sub h, Nat.cast_one]

theorem addrInt_decrease {a : Address} (h : 1 ≤ addrInt a) (hle : addrInt a ≤ 4000) :
    addrInt (decrease a) = addrInt a - 1 := by
  rw [decrease_eq h, addrInt_addrEnc (by omega)]

/-- The characters of an encoding have no word-mark and odd parity, and no zone in the tens and the units. -/
theorem addrEnc_elements {v : Nat} (hv : v ≤ 3999) : zone (addrEnc v).e1 = 0#2 ∧ zone (addrEnc v).e2 = 0#2 ∧
    ∀ w ∈ [(addrEnc v).e0, (addrEnc v).e1, (addrEnc v).e2], hasWM w = false ∧ parityCheck w = true := by
  have hzone : ∀ n, zone (charWord (digitCode (n % 10))) = 0#2 := fun n => by
    rw [zone_charWord, zone_digitCode _ (Nat.mod_lt n (by decide))]
  rw [addrEnc_of_le hv]
  refine ⟨hzone _, hzone _, ?_⟩
  simp [addrEncIn, parityCheck_charWord]

/-- Settles O7: each boundary is a case of the encoding of the neighbour. -/
theorem increaseAndDecrease : Obligations.IncreaseAndDecrease := by
  unfold Obligations.IncreaseAndDecrease
  intro a
  refine ⟨rfl, rfl, increase_of_lt, fun h => ?above, fun ⟨h, hle⟩ => addrInt_decrease h hle, fun h => ?below,
    fun v => addrEnc_elements⟩
  case above => exact addrEnc_of_out (.inr (by omega))
  case below => exact addrEnc_of_out (by omega)

end Sys2Proof.Machine
end

section
/-! The fetch of an instruction text, from the opcode to the character that ends it (40_fetch_fsm.md,
30_encoding.md R94 to R96). -/
namespace Sys2Proof

/-- The mask `0x3F` keeps the code. -/
@[simp] theorem code6_stripControl (w : Word) : code6 (stripControl w) = code6 w := by
  ext j hj
  have hmask : (0x3F#8).getLsbD j = true := by
    revert j
    decide
  simp [code6, stripControl, hmask]

end Sys2Proof

namespace Sys2Proof.Machine

/-! The E-phase step of a decoded opcode. -/

theorem step_of_decode_ok {s : State} (hf : s.fault = none) (hp : s.phase = .E) {i : Instr}
    (hi : decode s.cfg s.ireg = .ok i) : step s = afterHandler (exec i s) := by
  rw [step_of_E hf hp, eStep, hi]

theorem step_of_decode_error {s : State} (hf : s.fault = none) (hp : s.phase = .E) {e : DecodeError}
    (he : decode s.cfg s.ireg = .error e) : step s = .next (unimplemented s).returnToI := by
  rw [step_of_E hf hp, eStep, he]
  rfl

/-- Settles O11: the decoder's answer is the only choice an E-phase step makes. -/
theorem stepRunsDecodedInstruction : Obligations.StepRunsDecodedInstruction := by
  unfold Obligations.StepRunsDecodedInstruction
  exact fun s hf hp => ⟨fun _ => step_of_decode_ok hf hp, fun _ => step_of_decode_error hf hp⟩

/-! Runs. -/

/-- One step more, at the end of a run. -/
theorem run_succ_of_next {M : Host.Core} {k : Nat} {s u : M.State} (h : M.run k s = .next u) :
    M.run (k + 1) s = M.step u := by
  induction k generalizing s with
  | zero =>
    cases h
    rw [Host.Core.run]
    cases M.step u <;> rfl
  | succ k ih =>
    rw [Host.Core.run] at h ⊢
    cases hs : M.step s with
    | next v => rw [hs] at h; exact ih h
    | fault r => rw [hs] at h; cases h
    | refused r => rw [hs] at h; cases h

/-- Cycle 0 (R123) from canonical storage. -/
theorem cycle0_eq (s : State) (hm : s.mem.wf) (hc : s.counter = 0) : cycle0 s = { s with
    addrS := if s.deferred then s.addrA else s.addrI
    deferred := false
    breg := s.memPeek (addrInt (if s.deferred then s.addrA else s.addrI))
    needsCheckB := true
    ireg := stripControl (s.memPeek (addrInt (if s.deferred then s.addrA else s.addrI)))
    needsCheckI := true
    addrI := increase s.addrI
    counter := 1
    result := some .proceed } := by
  simp only [cycle0, cycle0_latch_eq]
  rw [State.fetchToB_eq _ (by exact hm), State.stay_eq (c := 1) (by simp [hc])]
  rfl

/-! The cycles under a character that ends nothing. -/

theorem cycleA_of_unmarked {s : State} {k : Fin 3} (hw : ¬ hasWM s.readNext.breg = true) :
    cycleA k s = State.stay { s.readNext with
      addrA := setElem s.addrA k s.readNext.breg
      addrB := if mirrored s.cfg s.ireg then setElem s.addrB k s.readNext.breg else s.addrB } :=
  if_neg hw

theorem cycle4_of_unmarked {s : State} (hw : ¬ hasWM s.readNext.breg = true)
    (hbr : ¬(s.isOp .br = true ∧ isBlank s.readNext.breg = true)) :
    cycle4 s = State.stay { s.readNext with addrB := setElem blankAddress 0 s.readNext.breg } := by
  have hstop : ¬(s.readNext.isOp .br && (isBlank s.readNext.breg || hasWM s.readNext.breg)) = true := by
    rw [Bool.eq_false_iff.mpr hw, Bool.or_false, Bool.and_eq_true]
    exact hbr
  rw [cycle4, if_neg hstop, if_neg hw]

theorem cycle5_of_unmarked {s : State} (hw : ¬ hasWM s.readNext.breg = true) :
    cycle5 s = State.stay { s.readNext with addrB := setElem s.addrB 1 s.readNext.breg } :=
  if_neg hw

theorem cycle6_of_unmarked {s : State} (hw : ¬ hasWM s.readNext.breg = true) :
    cycle6 s = State.stay { s.readNext with addrB := setElem s.addrB 2 s.readNext.breg } :=
  if_neg hw

/-! The cycles under a character that ends the instruction. -/

theorem cycleA_of_marked {s : State} {k : Fin 3} (hw : hasWM s.readNext.breg = true)
    (hnop : ¬(k.val < 2 ∧ s.isOp .nop = true)) : cycleA k s = s.readNext.enterE := by
  have hgo : ¬(decide (k.val < 2) && s.readNext.isOp .nop) = true := by
    rwa [Bool.and_eq_true, decide_eq_true_eq]
  rw [cycleA, if_pos hw, if_neg hgo]

theorem cycleA_of_marked_nop {s : State} {k : Fin 3} (hw : hasWM s.readNext.breg = true) (hk : k.val < 2)
    (hnop : s.isOp .nop = true) : cycleA k s = s.readNext.stopFetch := by
  have hstop : (decide (k.val < 2) && s.readNext.isOp .nop) = true := by
    rw [State.readNext_isOp, hnop, decide_eq_true hk, Bool.and_self]
  rw [cycleA, if_pos hw, if_pos hstop]

theorem cycle4_of_marked {s : State} (hw : hasWM s.readNext.breg = true) (hbr : ¬ s.isOp .br = true) :
    cycle4 s = State.enterE { s.readNext with cycleElim := s.cycleElim || s.isOp .cs } := by
  have hgo : ¬(s.readNext.isOp .br && (isBlank s.readNext.breg || hasWM s.readNext.breg)) = true := by
    rw [Bool.and_eq_true]
    exact fun h => hbr h.1
  rw [cycle4, if_neg hgo, if_pos hw]
  rfl

theorem cycle4_of_br {s : State} (hbr : s.isOp .br = true)
    (hend : hasWM s.readNext.breg = true ∨ isBlank s.readNext.breg = true) :
    cycle4 s = s.readNext.stopFetch := by
  refine if_pos ?_
  rw [State.readNext_isOp, hbr, Bool.true_and, Bool.or_eq_true]
  exact hend.symm

theorem cycle5_of_marked {s : State} (hw : hasWM s.readNext.breg = true) : cycle5 s =
    State.enterE { s.readNext with deferred := s.deferred || (s.isOp .br && s.areg.getLsbD 0) } :=
  if_pos hw

theorem cycle6_of_marked {s : State} (hw : hasWM s.readNext.breg = true) : cycle6 s = s.readNext.enterE :=
  if_pos hw

/-- With CLEAR STORAGE or SET WORD MARK the character that follows does not matter (R132). -/
theorem cycle7_of_end {s : State}
    (hend : hasWM s.readNext.breg = true ∨ s.isOp .swm = true ∨ s.isOp .cs = true) :
    cycle7 s = State.enterE { s.readNext with deferred := s.deferred || s.isOp .cs } := by
  by_cases hforced : (s.readNext.isOp .swm || s.readNext.isOp .cs) = true
  · exact if_pos hforced
  · have hneither : ¬(s.isOp .swm = true ∨ s.isOp .cs = true) := by
      rwa [Bool.or_eq_true] at hforced
    have hcs : s.isOp .cs = false := Bool.eq_false_iff.mpr fun h => hneither (.inr h)
    rw [cycle7, if_neg hforced, if_pos (hend.resolve_right hneither), hcs, Bool.or_false]
    rfl

theorem cycle7_of_unmarked {s : State}
    (hgo : ¬(hasWM s.readNext.breg = true ∨ s.isOp .swm = true ∨ s.isOp .cs = true)) :
    cycle7 s = s.readNext.stay := by
  rw [not_or, ← Bool.or_eq_true] at hgo
  exact (if_neg hgo.2).trans (if_neg hgo.1)

/-! The elements of an address as the fetch fills them. -/

/-- Filling one element more. -/
theorem setElem_fillElems (a : Address) {ws : List Word} (k : Fin 3) (hk : k.val < ws.length) :
    setElem (fillElems a (ws.take k)) k ws[k.val] = fillElems a (ws.take (k.val + 1)) := by
  fin_cases k <;> simp_all [setElem, fillElems]

/-- An address takes no more than three characters. -/
theorem fillElems_take (a : Address) (ws : List Word) {k : Nat} (hk : 3 ≤ k) :
    fillElems a (ws.take k) = fillElems a ws := by
  have h0 : 0 < k := by omega
  have h1 : 1 < k := by omega
  have h2 : 2 < k := by omega
  simp only [fillElems, List.getElem?_take, if_pos h0, if_pos h1, if_pos h2]

/-- The next address, below the last one (R91, R121). -/
theorem increase_addrEnc {v : Nat} (hv : v ≤ 3999) :
    increase (addrEnc (v : Int)) = addrEnc ((v + 1 : Nat) : Int) := by
  rw [increase, addrInt_addrEnc hv, Nat.cast_add, Nat.cast_one]

/-! The states of the fetch of one text. -/

/-- The fetch of `t` is about to begin: the FSM is at cycle 0 with no redirect pending, and the text stands in
canonical storage below the last address. -/
structure FetchStart (s : State) (t : Text) : Prop where
  noFault : s.fault = none
  storage : s.mem.wf
  phase : s.phase = .I
  counter : s.counter = 0
  notDeferred : s.deferred = false
  wellFormed : t.wellFormed = true
  stands : StandsAt s t
  below : addrInt s.addrI + textLength t ≤ 3999

/-- What the fetch has put into `addrB` after `k` operand characters: the A characters where they are mirrored,
and from the fourth character on the B characters alone (R126, R129). -/
def fetchedB (s : State) (t : Text) (k : Nat) : Address :=
  if 4 ≤ k then fillElems blankAddress ((t.operands.drop 3).take (k - 3))
  else if mirrored s.cfg (s.memPeek (addrInt s.addrI)) then fillElems s.addrB (t.operands.take k) else s.addrB

/-- The state after the opcode character and `k` operand characters of `t`, fetched from `s`. -/
def fetched (s : State) (t : Text) (k : Nat) : State :=
  { s with
    breg := s.memPeek (addrInt s.addrI + k)
    needsCheckB := true
    ireg := stripControl (s.memPeek (addrInt s.addrI))
    needsCheckI := true
    addrA := fillElems s.addrA (t.operands.take k)
    addrB := fetchedB s t k
    addrI := addrEnc ((addrInt s.addrI + (k + 1) : Nat) : Int)
    addrS := if k = 0 then s.addrI else addrEnc ((addrInt s.addrI + k : Nat) : Int)
    counter := Fin.ofNat 9 (k + 1)
    result := some .proceed }

theorem fetchedB_of_le {s : State} {t : Text} {k : Nat} (hk : k ≤ 3) : fetchedB s t k =
    if mirrored s.cfg (s.memPeek (addrInt s.addrI)) then fillElems s.addrB (t.operands.take k) else s.addrB :=
  if_neg (by omega)

/-- The state after the character that ends `t` has been read; what it ends in is not yet decided. -/
def fetchedAll (s : State) (t : Text) : State :=
  { fetched s t t.operands.length with
    breg := s.memPeek (addrInt s.addrI + textLength t)
    addrS := addrEnc ((addrInt s.addrI + textLength t : Nat) : Int) }

theorem fetchedB_length (s : State) (t : Text) : fetchedB s t t.operands.length =
    if 4 ≤ t.operands.length then fillElems blankAddress (t.operands.drop 3)
    else if mirrored s.cfg (s.memPeek (addrInt s.addrI)) then fillElems s.addrB t.operands else s.addrB := by
  rw [fetchedB, List.take_length, List.take_of_length_le (by rw [List.length_drop])]

/-- The E-phase entry of `t`, with the two flags of R128, R130 and R132. -/
theorem enterE_fetchedAll {s : State} {t : Text} {d c : Bool}
    (hd : d = (s.deferred || (t.op == .br && textLength t == 5 && s.areg.getLsbD 0) ||
      (t.op == .cs && textLength t == 7)))
    (hc : c = (s.cycleElim || (t.op == .cs && textLength t == 4))) :
    State.enterE { fetchedAll s t with deferred := d, cycleElim := c } = entryState s t := by
  subst hd hc
  simp only [fetchedAll, fetched, fetchedB_length, List.take_length]
  rfl

/-- The elements of a fresh `addrB`, filled one by one. -/
theorem setElem_blankAddress (s : State) (t : Text) (j : Fin 3) (hj : j.val + 3 < t.operands.length) :
    setElem (fillElems blankAddress ((t.operands.drop 3).take j)) j t.operands[j.val + 3] =
      fetchedB s t (j + 3 + 1) := by
  have hlen : j.val < (t.operands.drop 3).length := by rw [List.length_drop]; omega
  have hget : t.operands[j.val + 3] = (t.operands.drop 3)[j.val] := by
    rw [List.getElem_drop]
    simp only [Nat.add_comm]
  rw [hget, setElem_fillElems blankAddress j hlen, fetchedB, if_pos (by omega)]
  rfl

section
variable {s : State} {t : Text} (h : FetchStart s t)
include h

theorem FetchStart.length_le : t.operands.length ≤ 6 := ((wellFormed_iff t).mp h.wellFormed).1

theorem FetchStart.memPeek_operand {k : Nat} (hk : k < t.operands.length) :
    s.memPeek (addrInt s.addrI + (k + 1)) = t.operands[k] := by
  rw [Nat.add_comm k 1, ← Nat.add_assoc, h.stands.operands k hk]

/-- Where the next character is read from. -/
theorem FetchStart.memPeek_fetched {k : Nat} (hk : k ≤ t.operands.length) :
    (fetched s t k).memPeek (addrInt (fetched s t k).addrI) = s.memPeek (addrInt s.addrI + (k + 1)) := by
  have hbelow : addrInt s.addrI + (k + 1) ≤ 3999 :=
    le_trans (Nat.add_le_add_left (Nat.succ_le_succ hk) _) h.below
  exact congrArg s.memPeek (addrInt_addrEnc hbelow)

theorem FetchStart.increase_fetched {k : Nat} (hk : k ≤ t.operands.length) :
    increase (fetched s t k).addrI = addrEnc ((addrInt s.addrI + (k + 2) : Nat) : Int) :=
  increase_addrEnc (le_trans (Nat.add_le_add_left (Nat.succ_le_succ hk) _) h.below)

/-- The I-register holds the opcode of the text. -/
theorem FetchStart.isOp_fetched {k : Nat} {i : Instr} : (fetched s t k).isOp i = true ↔ t.op = i := by
  have hdecode : decode s.cfg (stripControl (s.memPeek (addrInt s.addrI))) = .ok t.op :=
    (decode_congr (code6_stripControl _)).trans h.stands.opcode
  rw [State.isOp_iff, show decode (fetched s t k).cfg (fetched s t k).ireg = _ from hdecode, Except.ok.injEq]

theorem FetchStart.counter_fetched {k : Nat} (hk : k ≤ t.operands.length) :
    (fetched s t k).counter.val = k + 1 :=
  Nat.mod_eq_of_lt (by have := h.length_le; omega)

/-- Cycle 0 (R123). -/
theorem FetchStart.step_opcode : step s = .next (fetched s t 0) := by
  obtain ⟨a, w, rfl, rfl, hstep⟩ := opcodeFetchCycle s h.noFault h.storage h.phase h.counter
  have hnext : increase s.addrI = addrEnc ((addrInt s.addrI + (0 + 1) : Nat) : Int) := rfl
  rw [hstep]
  simp [fetched, fetchedB, fillElems, stripControl, hnext, h.notDeferred, -Fin.ofNat_eq_cast]

theorem FetchStart.step_fetched (k : Nat) : step (fetched s t k) = iStep (fetched s t k) :=
  step_of_I h.noFault h.phase

theorem FetchStart.breg_readNext {k : Nat} (hk : k < t.operands.length) :
    (fetched s t k).readNext.breg = t.operands[k] :=
  (h.memPeek_fetched hk.le).trans (h.memPeek_operand hk)

theorem FetchStart.not_endsText {k : Nat} (hk : k < t.operands.length) :
    ¬ endsText t.op k (fetched s t k).readNext.breg := by
  rw [h.breg_readNext hk]
  exact ((wellFormed_iff t).mp h.wellFormed).2 k hk

theorem FetchStart.not_hasWM {k : Nat} (hk : k < t.operands.length) :
    ¬ hasWM (fetched s t k).readNext.breg = true :=
  fun hw => h.not_endsText hk (.inr (.inl hw))

/-- A character that goes into an element of an address. -/
theorem FetchStart.stay_readNext {k : Nat} (hk : k < t.operands.length) {a b : Address}
    (ha : a = fillElems s.addrA (t.operands.take (k + 1))) (hb : b = fetchedB s t (k + 1)) :
    State.stay { (fetched s t k).readNext with addrA := a, addrB := b } = fetched s t (k + 1) := by
  subst ha hb
  have hcounter : (fetched s t (k + 1)).counter.val = (fetched s t k).counter.val + 1 := by
    rw [h.counter_fetched hk, h.counter_fetched hk.le]
  rw [State.readNext_eq (fetched s t k) h.storage, h.memPeek_fetched hk.le]
  refine (State.stay_eq (by exact hcounter)).trans ?_
  simp only [h.increase_fetched hk.le]
  rfl

/-- Cycles 1 to 3, an A character (R124). -/
theorem FetchStart.step_aChar (k : Fin 3) (hk : k.val < t.operands.length) :
    step (fetched s t k) = .next (fetched s t (k + 1)) := by
  have hmirrored : mirrored s.cfg (stripControl (s.memPeek (addrInt s.addrI))) =
      mirrored s.cfg (s.memPeek (addrInt s.addrI)) := mirrored_congr (code6_stripControl _)
  have ha : setElem (fillElems s.addrA (t.operands.take k)) k (fetched s t k).readNext.breg =
      fillElems s.addrA (t.operands.take (k + 1)) := by
    rw [h.breg_readNext hk, setElem_fillElems s.addrA k hk]
  have hb : (if mirrored s.cfg (stripControl (s.memPeek (addrInt s.addrI))) then
      setElem (fetchedB s t k) k (fetched s t k).readNext.breg else fetchedB s t k) = fetchedB s t (k + 1) := by
    rw [h.breg_readNext hk, hmirrored, fetchedB_of_le k.isLt.le, fetchedB_of_le (Nat.succ_le_of_lt k.isLt),
      ← setElem_fillElems s.addrB k hk]
    split <;> rfl
  rw [h.step_fetched, iStep_address (h.counter_fetched hk.le), cycleA_of_unmarked (h.not_hasWM hk)]
  exact congrArg Host.Outcome.next (h.stay_readNext hk ha hb)

/-- A B character goes into the fresh `addrB`; `addrA` is full (R129, R130, R131). -/
theorem FetchStart.stay_bChar (j : Fin 3) (hj : j.val + 3 < t.operands.length) :
    State.stay { (fetched s t (j.val + 3)).readNext with
      addrB := setElem (fillElems blankAddress ((t.operands.drop 3).take j)) j
        (fetched s t (j.val + 3)).readNext.breg } = fetched s t (j.val + 3 + 1) := by
  have ha : fillElems s.addrA (t.operands.take (j + 3)) = fillElems s.addrA (t.operands.take (j + 3 + 1)) := by
    rw [fillElems_take s.addrA _ (Nat.le_add_left 3 j), fillElems_take s.addrA _ (by omega)]
  refine h.stay_readNext hj ha ?_
  rw [h.breg_readNext hj, setElem_blankAddress s t j hj]

theorem FetchStart.step_three (hk : 3 < t.operands.length) : step (fetched s t 3) = .next (fetched s t 4) := by
  have hstop : ¬((fetched s t 3).isOp .br = true ∧ isBlank (fetched s t 3).readNext.breg = true) :=
    fun ⟨hbr, hblank⟩ => h.not_endsText hk (.inr (.inr ⟨h.isOp_fetched.mp hbr, rfl, hblank⟩))
  rw [h.step_fetched, iStep_four rfl, cycle4_of_unmarked (h.not_hasWM hk) hstop]
  exact congrArg Host.Outcome.next (h.stay_bChar 0 hk)

theorem FetchStart.step_four (hk : 4 < t.operands.length) : step (fetched s t 4) = .next (fetched s t 5) := by
  rw [h.step_fetched, iStep_five rfl, cycle5_of_unmarked (h.not_hasWM hk)]
  exact congrArg Host.Outcome.next (h.stay_bChar 1 hk)

theorem FetchStart.step_five (hk : 5 < t.operands.length) : step (fetched s t 5) = .next (fetched s t 6) := by
  rw [h.step_fetched, iStep_six rfl, cycle6_of_unmarked (h.not_hasWM hk)]
  exact congrArg Host.Outcome.next (h.stay_bChar 2 hk)

theorem FetchStart.step_operand {k : Nat} (hk : k < t.operands.length) :
    step (fetched s t k) = .next (fetched s t (k + 1)) := by
  obtain hlt | rfl | rfl | rfl : k < 3 ∨ k = 3 ∨ k = 4 ∨ k = 5 := by
    have := h.length_le
    omega
  · exact h.step_aChar ⟨k, hlt⟩ hk
  · exact h.step_three hk
  · exact h.step_four hk
  · exact h.step_five hk

/-- The opcode and `k` operand characters take `k + 1` steps. -/
theorem FetchStart.run_fetched {k : Nat} (hk : k ≤ t.operands.length) :
    Host.Core.run core (k + 1) s = .next (fetched s t k) := by
  induction k with
  | zero => exact (run_succ_of_next (M := core) rfl).trans h.step_opcode
  | succ k ih => exact (run_succ_of_next (ih (Nat.le_of_succ_le hk))).trans (h.step_operand hk)

/-! The character that ends the text. -/

theorem FetchStart.readNext_all : (fetched s t t.operands.length).readNext = fetchedAll s t := by
  rw [State.readNext_eq (fetched s t t.operands.length) h.storage, h.memPeek_fetched le_rfl]
  rfl

theorem FetchStart.counter_all {c : Fin 9} (hc : c.val = textLength t) :
    (fetched s t t.operands.length).counter = c :=
  Fin.ext ((h.counter_fetched le_rfl).trans hc.symm)

theorem FetchStart.isOp_all (i : Instr) : (fetched s t t.operands.length).isOp i = (t.op == i) :=
  Bool.eq_iff_iff.mpr (h.isOp_fetched.trans beq_iff_eq.symm)

/-- At cycles 1 to 3, 4, 5, 6 and 7 (R125, R128, R130, R131, R132) the text enters the E-phase. -/
theorem FetchStart.enter_one_to_three (hlen : t.operands.length < 3) (hnop : ¬(t.op = .nop ∧ textLength t ≤ 2))
    (hw : hasWM (fetchedAll s t).breg = true) :
    step (fetched s t t.operands.length) = .next (entryState s t) := by
  have hlength : textLength t = t.operands.length + 1 := rfl
  have hgo : ¬(t.operands.length < 2 ∧ (fetched s t t.operands.length).isOp .nop = true) := by
    rw [h.isOp_fetched]
    exact fun ⟨hlt, hop⟩ => hnop ⟨hop, hlt⟩
  rw [h.step_fetched, iStep_address (k := ⟨_, hlen⟩) (h.counter_fetched le_rfl),
    cycleA_of_marked (h.readNext_all.symm ▸ hw) hgo, h.readNext_all]
  have h4 : (textLength t == 4) = false := by simp; omega
  have h5 : (textLength t == 5) = false := by simp; omega
  have h7 : (textLength t == 7) = false := by simp; omega
  exact congrArg _ (enterE_fetchedAll (d := s.deferred) (c := s.cycleElim) (by simp [h5, h7]) (by simp [h4]))

theorem FetchStart.enter_four (hlen : textLength t = 4) (hbr : t.op ≠ .br)
    (hw : hasWM (fetchedAll s t).breg = true) :
    step (fetched s t t.operands.length) = .next (entryState s t) := by
  rw [h.step_fetched, iStep_four (h.counter_all hlen.symm),
    cycle4_of_marked (h.readNext_all.symm ▸ hw) (h.isOp_fetched.not.mpr hbr), h.isOp_all, h.readNext_all]
  exact congrArg _ (enterE_fetchedAll (d := s.deferred) (by simp [hlen]) (by simp [hlen]; rfl))

theorem FetchStart.enter_five (hlen : textLength t = 5) (hw : hasWM (fetchedAll s t).breg = true) :
    step (fetched s t t.operands.length) = .next (entryState s t) := by
  rw [h.step_fetched, iStep_five (h.counter_all hlen.symm), cycle5_of_marked (h.readNext_all.symm ▸ hw),
    h.isOp_all, h.readNext_all]
  exact congrArg _ (enterE_fetchedAll (c := s.cycleElim) (by simp [hlen]; rfl) (by simp [hlen]))

theorem FetchStart.enter_six (hlen : textLength t = 6) (hw : hasWM (fetchedAll s t).breg = true) :
    step (fetched s t t.operands.length) = .next (entryState s t) := by
  rw [h.step_fetched, iStep_six (h.counter_all hlen.symm), cycle6_of_marked (h.readNext_all.symm ▸ hw),
    h.readNext_all]
  exact congrArg _ (enterE_fetchedAll (d := s.deferred) (c := s.cycleElim) (by simp [hlen]) (by simp [hlen]))

theorem FetchStart.enter_seven (hlen : textLength t = 7)
    (hend : hasWM (fetchedAll s t).breg = true ∨ t.op = .swm ∨ t.op = .cs) :
    step (fetched s t t.operands.length) = .next (entryState s t) := by
  rw [← h.readNext_all, ← h.isOp_fetched (k := t.operands.length) (i := .swm),
    ← h.isOp_fetched (k := t.operands.length) (i := .cs)] at hend
  rw [h.step_fetched, iStep_seven (h.counter_all hlen.symm), cycle7_of_end hend, h.isOp_all, h.readNext_all]
  exact congrArg _ (enterE_fetchedAll (c := s.cycleElim) (by simp [hlen]; rfl) (by simp [hlen]))

/-- A word-mark, or the forced end of R132, begins the E-phase. -/
theorem FetchStart.step_enter
    (hend : hasWM (s.memPeek (addrInt s.addrI + textLength t)) = true ∨
      (textLength t = 7 ∧ (t.op = .swm ∨ t.op = .cs)))
    (hnop : ¬(t.op = .nop ∧ textLength t ≤ 2)) (hbr : ¬(t.op = .br ∧ textLength t = 4)) :
    step (fetched s t t.operands.length) = .next (entryState s t) := by
  have hmark : textLength t ≠ 7 → hasWM (fetchedAll s t).breg = true := fun h7 => hend.resolve_right (h7 ·.1)
  obtain h3 | h4 | h5 | h6 | h7 : t.operands.length < 3 ∨ textLength t = 4 ∨ textLength t = 5 ∨
      textLength t = 6 ∨ textLength t = 7 := by
    have hlen : textLength t = t.operands.length + 1 := rfl
    have := h.length_le
    omega
  · have h7 : textLength t ≠ 7 := fun h7 => by
      have hlen : textLength t = t.operands.length + 1 := rfl
      omega
    exact h.enter_one_to_three h3 hnop (hmark h7)
  · exact h.enter_four h4 (fun hop => hbr ⟨hop, h4⟩) (hmark (by omega))
  · exact h.enter_five h5 (hmark (by omega))
  · exact h.enter_six h6 (hmark (by omega))
  · exact h.enter_seven h7 (hend.imp_right (·.2))

/-- A NO-OP of one or two characters ends at cycle 1 or 2 (R125). -/
theorem FetchStart.stop_nop (hop : t.op = .nop) (hlen : textLength t ≤ 2)
    (hw : hasWM (fetchedAll s t).breg = true) :
    step (fetched s t t.operands.length) = .next (fetchedAll s t).stopFetch := by
  have hlt : t.operands.length < 2 := hlen
  rw [h.step_fetched, iStep_address (k := ⟨_, hlt.trans (by decide)⟩) (h.counter_fetched le_rfl),
    cycleA_of_marked_nop (h.readNext_all.symm ▸ hw) hlt (h.isOp_fetched.mpr hop), h.readNext_all]

/-- A BRANCH of four characters ends at cycle 4 (R127). -/
theorem FetchStart.stop_br (hop : t.op = .br) (hlen : textLength t = 4)
    (hend : hasWM (fetchedAll s t).breg = true ∨ isBlank (fetchedAll s t).breg = true) :
    step (fetched s t t.operands.length) = .next (fetchedAll s t).stopFetch := by
  rw [h.step_fetched, iStep_four (h.counter_all hlen.symm),
    cycle4_of_br (h.isOp_fetched.mpr hop) (h.readNext_all.symm ▸ hend), h.readNext_all]

/-- Neither of the two sets a flag, so it leaves what its E-phase entry would be, but for the FSM. -/
theorem FetchStart.stopFetch_eq (hop : t.op = .nop ∨ t.op = .br ∧ textLength t = 4) :
    (fetchedAll s t).stopFetch = { entryState s t with phase := .I, counter := 0, result := some .proceed } := by
  have hentry : State.enterE { fetchedAll s t with deferred := s.deferred, cycleElim := s.cycleElim } =
      entryState s t := by
    have hbr : (t.op == .br && textLength t == 5) = false := by
      rcases hop with hop | ⟨-, hlen⟩
      · rw [hop]
        rfl
      · rw [hlen, Bool.and_comm]
        rfl
    have hcs : (t.op == .cs) = false := by
      rcases hop with hop | ⟨hop, -⟩ <;> rw [hop] <;> rfl
    exact enterE_fetchedAll (by simp [hbr, hcs]) (by simp [hcs])
  have hphase : (fetchedAll s t).phase = .I := h.phase
  rw [← hentry, ← hphase]
  rfl

/-- The I-register of the E-phase entry holds the opcode of the text. -/
theorem FetchStart.decode_entryState : decode (entryState s t).cfg (entryState s t).ireg = .ok t.op :=
  (decode_congr (code6_stripControl _)).trans h.stands.opcode

end

/-- Settles O18: one step for the opcode, one for each operand character, one for the character that ends the
text; the next one is the E-phase. -/
theorem fetchRunsText : Obligations.FetchRunsText := by
  unfold Obligations.FetchRunsText
  intro s t hf hm hp hc hd hwf hstands hbelow hend hnop hbr
  have h : FetchStart s t := ⟨hf, hm, hp, hc, hd, hwf, hstands, hbelow⟩
  have hentry : Host.Core.run core (textLength t + 1) s = .next (entryState s t) :=
    (run_succ_of_next (h.run_fetched le_rfl)).trans (h.step_enter hend hnop hbr)
  have hexec : step (entryState s t) = afterHandler (exec t.op (entryState s t)) :=
    step_of_decode_ok (s := entryState s t) hf rfl h.decode_entryState
  exact ⟨hentry, (run_succ_of_next hentry).trans hexec⟩

/-- Settles O19: as the fetch of any text, but for the last step. -/
theorem nopAndBranchEndInFetch : Obligations.NopAndBranchEndInFetch := by
  unfold Obligations.NopAndBranchEndInFetch
  intro s t hf hm hp hc hd hstands hwf hbelow hend
  have h : FetchStart s t := ⟨hf, hm, hp, hc, hd, hwf, hstands, hbelow⟩
  refine (run_succ_of_next (h.run_fetched le_rfl)).trans ?_
  rcases hend with ⟨hop, hlen, hw⟩ | ⟨hop, hlen, hstop⟩
  · rw [← h.stopFetch_eq (.inl hop)]
    exact h.stop_nop hop hlen hw
  · rw [← h.stopFetch_eq (.inr ⟨hop, hlen⟩)]
    exact h.stop_br hop hlen hstop

/-! The one-character instruction the host places (log entry 7). -/

/-- What stands at `addrI` and after it once the word is placed. -/
theorem State.memPeek_placeOneChar (s : State) (hm : s.mem.wf) (w : Word) {i : Nat} (hi : i = addrInt s.addrI)
    (hnext : i + 1 < s.positions) :
    (s.placeOneChar w).memPeek i = setWordMark w ∧ hasWM ((s.placeOneChar w).memPeek (i + 1)) = true := by
  subst hi
  have hwrite : ((s.memErase (addrInt s.addrI)).memWrite (addrInt s.addrI) (setWordMark w)).mem.wf :=
    Memory.write_wf (Memory.erase_wf hm _ _) _ _ _
  refine ⟨?_, ?_⟩
  · rw [State.placeOneChar, State.memPeek_memSetWM _ hwrite, if_neg (by omega),
      State.memPeek_memWrite_memErase s hm (Nat.lt_of_succ_lt hnext)]
  · rw [State.placeOneChar, State.memPeek_memSetWM _ hwrite, if_pos ⟨rfl, hnext⟩, hasWM_setWordMark]

/-- Placing the word leaves the FSM alone, so at cycle 0 nothing is left to prepare. -/
theorem State.atEntryOf_eq {s : State} (hf : s.fault = none) (hp : s.phase = .I) (hc : s.counter = 0)
    (hd : s.deferred = false) (w : Word) :
    s.atEntryOf w = (cycle0 (s.placeOneChar w)).readNext.enterE := by
  have hstart : { s.placeOneChar w with phase := s.phase, counter := s.counter, deferred := s.deferred,
                                        fault := s.fault } = s.placeOneChar w := rfl
  rw [hp, hc, hd, hf] at hstart
  rw [State.atEntryOf, hstart]

theorem isOpCode_congr {cfg : Config} {v w : Word} (h : code6 v = code6 w) (i : Instr) :
    isOpCode cfg v i = isOpCode cfg w i := by
  simp only [isOpCode, decode_congr h]

/-- The two steps that fetch an instruction of one character other than NO-OP (R122, R123). -/
theorem run_two_of_oneChar {s : State} (hm : s.mem.wf) (hf : s.fault = none) (hp : s.phase = .I)
    (hc : s.counter = 0) (hd : s.deferred = false)
    (hnop : isOpCode s.cfg (s.memPeek (addrInt s.addrI)) .nop = false)
    (hmark : hasWM (s.memPeek (addrInt (increase s.addrI))) = true) :
    Host.Core.run core 2 s = .next (cycle0 s).readNext.enterE := by
  have hfirst : Host.Core.run core 1 s = .next (cycle0 s) :=
    (run_succ_of_next (M := core) rfl).trans ((step_of_I hf hp).trans (iStep_zero hc))
  have hcycle0 := cycle0_eq s hm hc
  simp only [hd, Bool.false_eq_true, if_false] at hcycle0
  have hfault : (cycle0 s).fault = none := by rw [hcycle0]; exact hf
  have hphase : (cycle0 s).phase = .I := by rw [hcycle0]; exact hp
  have hcounter : (cycle0 s).counter.val = (0 : Fin 3).val + 1 := by rw [hcycle0]; rfl
  have hbreg : hasWM (cycle0 s).readNext.breg = true := by rw [hcycle0]; exact hmark
  have hgo : (cycle0 s).isOp .nop = false := by
    rw [hcycle0]
    exact (isOpCode_congr (code6_stripControl _) .nop).trans hnop
  rw [run_succ_of_next hfirst]
  calc step (cycle0 s) = iStep (cycle0 s) := step_of_I hfault hphase
    _ = .next (cycleA 0 (cycle0 s)) := iStep_address hcounter
    _ = .next (cycle0 s).readNext.enterE :=
      congrArg _ (cycleA_of_marked hbreg fun h => Bool.false_ne_true (hgo.symm.trans h.2))

/-- Settles O20: cycle 0, and cycle 1 under the word-mark that was placed after the opcode. -/
theorem placedOpcodeIsFetched : Obligations.PlacedOpcodeIsFetched := by
  unfold Obligations.PlacedOpcodeIsFetched
  intro s n hm hf hp hc hd hin hbelow hnop
  have hwf : (s.placeOneChar (BitVec.ofNat 8 n)).mem.wf :=
    Memory.mutate_wf (Memory.write_wf (Memory.erase_wf hm _ _) _ _ _) _ _ _
  obtain ⟨hopcode, hmark⟩ := State.memPeek_placeOneChar s hm (BitVec.ofNat 8 n) rfl hin
  have haddr : addrInt (increase s.addrI) = addrInt s.addrI + 1 := increase_of_lt hbelow
  rw [State.withFetchWord, State.atEntryOf_eq hf hp hc hd]
  refine run_two_of_oneChar hwf hf hp hc hd ?_ ?_
  · show isOpCode s.cfg ((s.placeOneChar _).memPeek (addrInt s.addrI)) .nop = false
    rw [hopcode, isOpCode_congr (code6_setWordMark _), hnop]
  · show hasWM ((s.placeOneChar _).memPeek (addrInt (increase s.addrI))) = true
    rw [haddr, hmark]

end Sys2Proof.Machine
end

section
/-! One pass of each loop (41_data_move.md R161, R167, 42_wordmark_clear.md R192, 43_control_io.md R214). -/
namespace Sys2Proof

@[simp] theorem hasWM_clearWordMark (w : Word) : hasWM (clearWordMark w) = false := by
  rw [hasWM, clearWordMark, BitVec.getLsbD_and]
  exact Bool.and_false _

/-- The check bit is not the word-mark. -/
@[simp] theorem hasWM_stripCheck (w : Word) : hasWM (stripCheck w) = hasWM w := by
  rw [hasWM, stripCheck, BitVec.getLsbD_and]
  exact Bool.and_true _

end Sys2Proof

namespace Sys2Proof.Machine

/-! What MOVE and LOAD write at a B position that held `b`, when the A character is `a`. -/

def moveWrites (a b : Word) : Word := if hasWM b then setWordMark (clearWordMark a) else clearWordMark a

def loadWrites (a b : Word) : Word := if hasWM b then setWordMark (stripCheck a) else stripCheck a

/-- Storage after one pass of MOVE: the B position read destructively, its word-mark propagated, and the A
character written under the sticky rule. -/
def State.moveStored (s : State) : State :=
  let j := encoded s.addrB
  (if hasWM (s.memPeek j) then (s.memErase j).memSetWM j else s.memErase j).memWrite j
    (clearWordMark (s.memPeek (encoded s.addrA)))

/-- Storage after one pass of LOAD. -/
def State.loadStored (s : State) : State :=
  s.memWrite (encoded s.addrB) (stripCheck (s.memPeek (encoded s.addrA)))

/-- Storage after one pass of CLEAR STORAGE. -/
def State.clearStored (s : State) : State :=
  (s.memErase (encoded s.addrB)).memWrite (encoded s.addrB) blank

theorem State.moveStored_wf {s : State} (hm : s.mem.wf) : s.moveStored.mem.wf := by
  simp only [State.moveStored]
  split
  · exact Memory.write_wf (Memory.mutate_wf (Memory.erase_wf hm _ _) _ _ _) _ _ _
  · exact Memory.write_wf (Memory.erase_wf hm _ _) _ _ _

theorem State.loadStored_wf {s : State} (hm : s.mem.wf) : s.loadStored.mem.wf := Memory.write_wf hm _ _ _

theorem State.clearStored_wf {s : State} (hm : s.mem.wf) : s.clearStored.mem.wf :=
  Memory.write_wf (Memory.erase_wf hm _ _) _ _ _

theorem State.peek_moveStored (s : State) (x : Nat) :
    Memory.peek s.positions s.moveStored.mem x = s.moveStored.memPeek x := by
  simp only [State.moveStored]
  split <;> rfl

/-- The propagated word-mark is what makes the write sticky (R161). -/
theorem State.memPeek_moveStored (s : State) (hm : s.mem.wf) (x : Nat) :
    s.moveStored.memPeek x = if x = encoded s.addrB ∧ encoded s.addrB < s.positions then
      moveWrites (s.memPeek (encoded s.addrA)) (s.memPeek (encoded s.addrB)) else s.memPeek x := by
  have herase : (s.memErase (encoded s.addrB)).mem.wf := Memory.erase_wf hm _ _
  rw [State.moveStored, moveWrites]
  split
  · have hset : ((s.memErase (encoded s.addrB)).memSetWM (encoded s.addrB)).mem.wf :=
      Memory.mutate_wf herase _ _ _
    simp only [State.memPeek_memWrite _ hset, State.memPeek_memSetWM _ herase, State.memSetWM_positions,
      State.memErase_positions]
    by_cases hx : x = encoded s.addrB ∧ encoded s.addrB < s.positions
    · simp [hx]
    · rw [if_neg hx, if_neg hx, if_neg hx, State.memPeek_memErase s hm, if_neg hx]
  · exact State.memPeek_memWrite_memErase_eq_ite s hm _ _ x

theorem State.memPeek_loadStored (s : State) (hm : s.mem.wf) (x : Nat) :
    s.loadStored.memPeek x = if x = encoded s.addrB ∧ encoded s.addrB < s.positions then
      loadWrites (s.memPeek (encoded s.addrA)) (s.memPeek (encoded s.addrB)) else s.memPeek x :=
  State.memPeek_memWrite s hm _ _ _

theorem State.memPeek_clearStored (s : State) (hm : s.mem.wf) (x : Nat) :
    s.clearStored.memPeek x =
      if x = encoded s.addrB ∧ encoded s.addrB < s.positions then blank else s.memPeek x :=
  State.memPeek_memWrite_memErase_eq_ite s hm _ _ x

/-! The passes. -/

theorem moveBody_eq (s : State) (hm : s.mem.wf) : moveBody s = ({ s with
    areg := s.memPeek (encoded s.addrA)
    needsCheckA := true
    breg := s.memPeek (encoded s.addrB)
    needsCheckB := true
    addrA := decrease s.addrA
    addrB := decrease s.addrB
    addrS := s.addrB
    mem := s.moveStored.mem },
    hasWM (s.memPeek (encoded s.addrA)) || hasWM (s.memPeek (encoded s.addrB))) := by
  rw [moveBody, State.aCycle_latchB_eReadToB_eq s hm, State.moveStored]
  split <;> rfl

theorem loadBody_eq (s : State) (hm : s.mem.wf) : loadBody s = ({ s with
    areg := s.memPeek (encoded s.addrA)
    needsCheckA := true
    addrA := decrease s.addrA
    addrB := decrease s.addrB
    addrS := s.addrB
    mem := s.loadStored.mem }, hasWM (s.memPeek (encoded s.addrA))) := by
  rw [loadBody, State.aCycle_eq s hm]
  rfl

theorem compareBody_eq (s : State) (hm : s.mem.wf) : compareBody s = ({ s with
    areg := s.memPeek (encoded s.addrA)
    needsCheckA := true
    breg := s.memPeek (encoded s.addrB)
    needsCheckB := true
    addrA := decrease s.addrA
    addrB := decrease s.addrB
    addrS := s.addrB
    equal := equalAfterPair s.equal (s.memPeek (encoded s.addrA)) (s.memPeek (encoded s.addrB)) },
    hasWM (s.memPeek (encoded s.addrA)) || hasWM (s.memPeek (encoded s.addrB))) := by
  rw [compareBody, State.aCycle_eq s hm, State.eFetchToB_eq _ (by exact hm)]
  rfl

/-- CLEAR STORAGE restores nothing, so this holds in any storage. -/
theorem clearBody_eq (s : State) : clearBody s = ({ s with
    breg := s.memPeek (encoded s.addrB)
    needsCheckB := true
    addrB := decrease s.addrB
    addrS := s.addrB
    mem := s.clearStored.mem }, clearEnds s.eBoundary (addrInt s.addrB)) := rfl

/-- Settles O33: the passes, and what storage reads after each. -/
theorem eachPassOfALoop : Obligations.EachPassOfALoop := by
  unfold Obligations.EachPassOfALoop
  intro s hm
  have hequal : ∀ a b : Word, equalAfterPair s.equal a b = (s.equal && decide (code6 a = code6 b)) :=
    fun _ _ => rfl
  refine ⟨_, _, _, _, rfl, rfl, rfl, rfl, ⟨_, moveBody_eq s hm, fun x => ?move⟩,
    ⟨_, loadBody_eq s hm, State.memPeek_loadStored s hm⟩, compareBody_eq s hm,
    ⟨_, clearBody_eq s, State.memPeek_clearStored s hm⟩⟩
  case move =>
    rw [s.peek_moveStored]
    exact State.memPeek_moveStored s hm x

end Sys2Proof.Machine
end

section
/-! The loops run to their end (40_fetch_fsm.md R137, 60_exceptions.md R248): the bound on the passes cuts off no
loop that ends (log entry 10). -/
namespace Sys2Proof.Machine

/-! Where an address register goes. -/

theorem nthDown_succ (k : Nat) (a : Address) : nthDown (k + 1) a = decrease (nthDown k a) := by
  induction k generalizing a with
  | zero => rfl
  | succ k ih => exact ih (decrease a)

/-- What an address denotes depends on two zone bits and three digits (R88). -/
def addrBits (a : Address) : Fin (2 ^ 2) × Fin (2 ^ 4) × Fin (2 ^ 4) × Fin (2 ^ 4) :=
  ((zone a.e0).toFin, (digit a.e0).toFin, (digit a.e1).toFin, (digit a.e2).toFin)

theorem addrInt_congr {a b : Address} (h : addrBits a = addrBits b) : addrInt a = addrInt b := by
  obtain ⟨hz, h0, h1, h2⟩ : zone a.e0 = zone b.e0 ∧ digit a.e0 = digit b.e0 ∧ digit a.e1 = digit b.e1 ∧
      digit a.e2 = digit b.e2 := by
    simpa only [addrBits, Prod.mk.injEq, BitVec.toFin_inj] using h
  rw [addrInt, addrInt, hz, h0, h1, h2]

/-- From where two addresses denote the same integer on, their decrements do too. -/
theorem addrInt_nthDown_add {a : Address} {i j : Nat} (h : addrInt (nthDown i a) = addrInt (nthDown j a))
    (d : Nat) : addrInt (nthDown (i + d) a) = addrInt (nthDown (j + d) a) := by
  induction d with
  | zero => exact h
  | succ d ih => simp only [← Nat.add_assoc, nthDown_succ, decrease, ih]

/-- Within the bound the register denotes one integer twice. -/
theorem exists_addrInt_nthDown_eq (a : Address) :
    ∃ i j, i < j ∧ j ≤ loopFuel ∧ addrInt (nthDown i a) = addrInt (nthDown j a) := by
  have hcard : Fintype.card (Fin (2 ^ 2) × Fin (2 ^ 4) × Fin (2 ^ 4) × Fin (2 ^ 4)) <
      Fintype.card (Fin (loopFuel + 1)) := by
    rw [Fintype.card_fin, loopFuel]
    simp only [Fintype.card_prod, Fintype.card_fin]
    decide
  obtain ⟨x, y, hne, hxy⟩ := Fintype.exists_ne_map_eq_of_card_lt (fun k : Fin (loopFuel + 1) =>
    addrBits (nthDown k a)) hcard
  rcases lt_or_gt_of_ne hne with hlt | hlt
  · exact ⟨x, y, hlt, Nat.le_of_lt_succ y.isLt, addrInt_congr hxy⟩
  · exact ⟨y, x, hlt, Nat.le_of_lt_succ x.isLt, (addrInt_congr hxy).symm⟩

/-- Every integer the register ever denotes it denotes within the bound. -/
theorem exists_lt_loopFuel_addrInt_nthDown (a : Address) (k : Nat) :
    ∃ m < loopFuel, addrInt (nthDown m a) = addrInt (nthDown k a) := by
  obtain ⟨i, j, hij, hj, heq⟩ := exists_addrInt_nthDown_eq a
  induction k using Nat.strong_induction_on with
  | _ k ih =>
    by_cases hk : k < loopFuel
    · exact ⟨k, hk, rfl⟩
    · have hback := addrInt_nthDown_add heq (k - j)
      rw [Nat.add_sub_cancel' (by omega)] at hback
      obtain ⟨m, hm, hmk⟩ := ih (i + (k - j)) (by omega)
      exact ⟨m, hm, hmk.trans hback⟩

/-! A loop whose test can be told from the state it starts in. -/

/-- While no pass has ended the loop, `P k` says whether pass `k` ends it. -/
def TestedBy (body : State → State × Bool) (s : State) (P : Nat → Bool) : Prop :=
  ∀ k, (∀ j < k, (body (passes body j s)).2 = false) → (body (passes body k s)).2 = P k

/-- Whether a pass ends the loop is decided within the bound. -/
def Bounded (P : Nat → Bool) : Prop := ∀ k, P k = true → ∃ m < loopFuel, P m = true

section
variable {body : State → State × Bool} {s : State} {P : Nat → Bool} (h : TestedBy body s P)
include h

/-- No pass has ended the loop so far exactly when `P` says so of each. -/
theorem TestedBy.all_false_iff (k : Nat) :
    (∀ j < k, (body (passes body j s)).2 = false) ↔ ∀ j < k, P j = false := by
  induction k with
  | zero => simp
  | succ k ih =>
    simp only [Nat.lt_succ_iff_lt_or_eq, or_imp, forall_and, forall_eq]
    constructor
    · rintro ⟨hlt, hk⟩
      exact ⟨ih.mp hlt, (h k hlt).symm.trans hk⟩
    · rintro ⟨hlt, hk⟩
      exact ⟨ih.mpr hlt, (h k (ih.mpr hlt)).trans hk⟩

theorem TestedBy.iterate_eq_none_iff (hP : Bounded P) : iterate body loopFuel s = none ↔ ∀ k, P k = false := by
  rw [Machine.iterate_eq_none_iff, h.all_false_iff]
  refine ⟨fun hlt k => Bool.eq_false_iff.mpr fun hk => ?_, fun hall k _ => hall k⟩
  obtain ⟨m, hm, hmk⟩ := hP k hk
  exact Bool.false_ne_true ((hlt m hm).symm.trans hmk)

/-- The loop gives a state exactly when it ends, and then the state after the first pass that ends it. -/
theorem TestedBy.iterate_eq_some_iff (hP : Bounded P) {u : State} :
    iterate body loopFuel s = some u ↔ loopEndsIn body s u := by
  constructor
  · intro hu
    have hends : ∃ n, n < loopFuel ∧ (body (passes body n s)).2 = true := by
      by_contra hno
      push Not at hno
      rw [(Machine.iterate_eq_none_iff body loopFuel s).mpr fun k hk => Bool.eq_false_iff.mpr (hno k hk)] at hu
      cases hu
    obtain ⟨hlt, hn⟩ := Nat.find_spec hends
    have hgo : ∀ k < Nat.find hends, (body (passes body k s)).2 = false := fun k hk =>
      Bool.eq_false_iff.mpr fun hend => Nat.find_min hends hk ⟨hk.trans hlt, hend⟩
    refine ⟨Nat.find hends, hgo, hn, Option.some.inj (hu.symm.trans ?_)⟩
    exact iterate_eq_some body loopFuel _ s hlt hgo hn
  · rintro ⟨n, hgo, hn, rfl⟩
    obtain ⟨m, hm, hPm⟩ := hP n ((h n hgo).symm.trans hn)
    have hnm : n ≤ m := Nat.le_of_not_lt fun hmn =>
      Bool.false_ne_true (((h.all_false_iff n).mp hgo m hmn).symm.trans hPm)
    exact iterate_eq_some body loopFuel n s (hnm.trans_lt hm) hgo hn

end

/-! The handler of a loop. -/

section
variable {body : State → State × Bool} {s : State} {P : Nat → Bool}
  (h : TestedBy body { s with eFirst := some true } P) (hP : Bounded P)
include h hP

theorem TestedBy.runLoop_next_iff {t : State} : runLoop body s = .next t ↔
    ∃ u, loopEndsIn body { s with eFirst := some true } u ∧ t = u.signal .proceed := by
  simp only [← h.iterate_eq_some_iff hP]
  rcases runLoop_cases body s with ⟨u, hu, hrun⟩ | ⟨hu, hrun⟩
  · rw [hu, hrun]
    simp [eq_comm]
  · rw [hu, hrun]
    simp

theorem TestedBy.runLoop_hang_iff : runLoop body s = .fault .hang ↔ ∀ k, P k = false := by
  rw [← h.iterate_eq_none_iff hP]
  rcases runLoop_cases body s with ⟨u, hu, hrun⟩ | ⟨hu, hrun⟩
  · rw [hu, hrun]
    simp
  · rw [hu, hrun]
    simp

end

end Sys2Proof.Machine
end

section
/-! The loops of MOVE, LOAD and COMPARE over two fields, and of CLEAR STORAGE (41_data_move.md R161, R167,
43_control_io.md R214, 42_wordmark_clear.md R192). -/
namespace Sys2Proof.Machine

/-- What the three field loops share: the registers of a pass, its test, the Word `writes a b` it leaves at the B
position, and that a pass which does not end the loop leaves every word-mark as it was. `stopsAtB` says whether a
word-mark of the B field ends it too. -/
structure FieldLoop (body : State → State × Bool) (stopsAtB : Bool) (writes : Word → Word → Word) : Prop where
  registers : ∀ s : State, s.mem.wf → (body s).1 = { s with
    areg := s.memPeek (encoded s.addrA)
    needsCheckA := true
    breg := (body s).1.breg
    needsCheckB := (body s).1.needsCheckB
    addrA := decrease s.addrA
    addrB := decrease s.addrB
    addrS := s.addrB
    equal := (body s).1.equal
    mem := (body s).1.mem }
  test : ∀ s : State, s.mem.wf → (body s).2 =
    (hasWM (s.memPeek (encoded s.addrA)) || (stopsAtB && hasWM (s.memPeek (encoded s.addrB))))
  storage : ∀ s : State, s.mem.wf → (body s).1.mem.wf
  stored : ∀ (s : State), s.mem.wf → ∀ x, (body s).1.memPeek x =
    if x = encoded s.addrB ∧ encoded s.addrB < s.positions then
      writes (s.memPeek (encoded s.addrA)) (s.memPeek (encoded s.addrB)) else s.memPeek x
  marks : ∀ a b : Word, (hasWM a || (stopsAtB && hasWM b)) = false → hasWM (writes a b) = hasWM b

theorem moveBody_fieldLoop : FieldLoop moveBody true moveWrites where
  registers s hm := by rw [moveBody_eq s hm]
  test s hm := by rw [moveBody_eq s hm, Bool.true_and]
  storage s hm := by rw [moveBody_eq s hm]; exact State.moveStored_wf hm
  stored s hm x := by
    rw [moveBody_eq s hm, ← State.memPeek_moveStored s hm x, ← s.peek_moveStored]
    rfl
  marks a b h := by
    have hb : hasWM b = false := (Bool.or_eq_false_iff.mp h).2
    simp [moveWrites, hb]

theorem loadBody_fieldLoop : FieldLoop loadBody false loadWrites where
  registers s hm := by rw [loadBody_eq s hm]
  test s hm := by rw [loadBody_eq s hm, Bool.false_and, Bool.or_false]
  storage s hm := by rw [loadBody_eq s hm]; exact State.loadStored_wf hm
  stored s hm x := by rw [loadBody_eq s hm]; exact State.memPeek_loadStored s hm x
  marks a b h := by
    have ha : hasWM a = false := (Bool.or_eq_false_iff.mp h).1
    cases hb : hasWM b <;> simp [loadWrites, ha, hb]

/-- COMPARE leaves at the B position what it read there. -/
theorem compareBody_fieldLoop : FieldLoop compareBody true fun _ b => b where
  registers s hm := by rw [compareBody_eq s hm]
  test s hm := by rw [compareBody_eq s hm, Bool.true_and]
  storage s hm := by rw [compareBody_eq s hm]; exact hm
  stored s hm x := by
    rw [compareBody_eq s hm]
    split
    · next hx => rw [hx.1]; rfl
    · rfl
  marks _ _ _ := rfl

/-- Whether the positions of pass `k`, as they stand before the loop, hold the word-mark that ends it. -/
def markMet (s : State) (stopsAtB : Bool) (k : Nat) : Bool :=
  hasWM (s.memPeek (encoded (nthDown k s.addrA))) ||
    (stopsAtB && hasWM (s.memPeek (encoded (nthDown k s.addrB))))

theorem markMet_bounded (s : State) (stopsAtB : Bool) : Bounded (markMet s stopsAtB) := by
  have hencoded : ∀ (a : Address) k, ∃ m < loopFuel, encoded (nthDown m a) = encoded (nthDown k a) := fun a k => by
    obtain ⟨m, hm, heq⟩ := exists_lt_loopFuel_addrInt_nthDown a k
    exact ⟨m, hm, congrArg (· - 1) heq⟩
  intro k hk
  rcases Bool.or_eq_true_iff.mp hk with ha | hb
  · obtain ⟨m, hm, heq⟩ := hencoded s.addrA k
    exact ⟨m, hm, by rw [markMet, heq, ha, Bool.true_or]⟩
  · obtain ⟨m, hm, heq⟩ := hencoded s.addrB k
    exact ⟨m, hm, by rw [markMet, heq, hb, Bool.or_true]⟩

/-- `s` with what a field loop writes, taken from `u`. -/
def State.written (s u : State) : State :=
  { s with
    areg := u.areg
    needsCheckA := u.needsCheckA
    breg := u.breg
    needsCheckB := u.needsCheckB
    addrA := u.addrA
    addrB := u.addrB
    addrS := u.addrS
    equal := u.equal
    mem := u.mem
    eFirst := u.eFirst }

theorem State.written_written (s u v : State) : (s.written u).written v = s.written v := rfl

section
variable {body : State → State × Bool} {stopsAtB : Bool} {writes : Word → Word → Word}
  (h : FieldLoop body stopsAtB writes) {s : State} (hm : s.mem.wf)
include h hm

theorem FieldLoop.passes_wf (k : Nat) : (passes body k s).mem.wf := by
  induction k with
  | zero => exact hm
  | succ k ih => rw [passes_succ]; exact h.storage _ ih

/-- One more pass, register by register. -/
theorem FieldLoop.passes_succ_registers (k : Nat) : passes body (k + 1) s = { passes body k s with
    areg := (passes body k s).memPeek (encoded (passes body k s).addrA)
    needsCheckA := true
    breg := (passes body (k + 1) s).breg
    needsCheckB := (passes body (k + 1) s).needsCheckB
    addrA := decrease (passes body k s).addrA
    addrB := decrease (passes body k s).addrB
    addrS := (passes body k s).addrB
    equal := (passes body (k + 1) s).equal
    mem := (passes body (k + 1) s).mem
    eFirst := some false } := by
  rw [passes_succ]
  exact congrArg (fun u : State => { u with eFirst := some false }) (h.registers _ (h.passes_wf hm k))

theorem FieldLoop.passes_addrA (k : Nat) : (passes body k s).addrA = nthDown k s.addrA := by
  induction k with
  | zero => rfl
  | succ k ih => rw [h.passes_succ_registers hm, nthDown_succ, ← ih]

theorem FieldLoop.passes_addrB (k : Nat) : (passes body k s).addrB = nthDown k s.addrB := by
  induction k with
  | zero => rfl
  | succ k ih => rw [h.passes_succ_registers hm, nthDown_succ, ← ih]

/-- The passes write nothing but what a field loop writes. -/
theorem FieldLoop.passes_eq_written (k : Nat) : passes body k s = s.written (passes body k s) := by
  induction k with
  | zero => rfl
  | succ k ih =>
    have hpass : passes body (k + 1) s = (passes body k s).written (passes body (k + 1) s) := by
      rw [h.passes_succ_registers hm]
      rfl
    rw [hpass, ih, State.written_written]
    rfl

/-- The registers after `k + 1` passes. -/
theorem FieldLoop.passes_succ_eq (k : Nat) : passes body (k + 1) s = { s with
    areg := (passes body k s).memPeek (encoded (nthDown k s.addrA))
    needsCheckA := true
    breg := (passes body (k + 1) s).breg
    needsCheckB := (passes body (k + 1) s).needsCheckB
    addrA := nthDown (k + 1) s.addrA
    addrB := nthDown (k + 1) s.addrB
    addrS := nthDown k s.addrB
    equal := (passes body (k + 1) s).equal
    mem := (passes body (k + 1) s).mem
    eFirst := some false } := by
  have hlast := h.passes_succ_registers hm k
  have hareg : (passes body (k + 1) s).areg = _ := congrArg State.areg hlast
  have hcheck : (passes body (k + 1) s).needsCheckA = true := congrArg State.needsCheckA hlast
  have haddrS : (passes body (k + 1) s).addrS = _ := congrArg State.addrS hlast
  have hfirst : (passes body (k + 1) s).eFirst = some false := congrArg State.eFirst hlast
  simp only [h.passes_addrA hm, h.passes_addrB hm] at hareg haddrS
  refine (h.passes_eq_written hm (k + 1)).trans ?_
  rw [State.written, hareg, hcheck, haddrS, hfirst, h.passes_addrA hm, h.passes_addrB hm]

theorem FieldLoop.passes_positions (k : Nat) : (passes body k s).positions = s.positions := by
  rw [h.passes_eq_written hm k]
  rfl

/-- What storage reads after one more pass. -/
theorem FieldLoop.memPeek_passes_succ (k x : Nat) : (passes body (k + 1) s).memPeek x =
    if x = encoded (nthDown k s.addrB) ∧ encoded (nthDown k s.addrB) < s.positions then
      writes ((passes body k s).memPeek (encoded (nthDown k s.addrA)))
        ((passes body k s).memPeek (encoded (nthDown k s.addrB)))
    else (passes body k s).memPeek x := by
  have hstored := h.stored _ (h.passes_wf hm k) x
  rw [h.passes_addrA hm, h.passes_addrB hm, h.passes_positions hm] at hstored
  rw [← hstored, passes_succ]
  rfl

/-! The test of a pass, told from the storage before the loop. -/

/-- As long as no pass has ended the loop every position's word-mark is as it was. -/
theorem FieldLoop.hasWM_passes {k : Nat} (hgo : ∀ j < k, (body (passes body j s)).2 = false) (x : Nat) :
    hasWM ((passes body k s).memPeek x) = hasWM (s.memPeek x) := by
  induction k with
  | zero => rfl
  | succ k ih =>
    have hkept := ih fun j hj => hgo j (Nat.lt_succ_of_lt hj)
    have htest := hgo k (Nat.lt_succ_self k)
    rw [h.test _ (h.passes_wf hm k), h.passes_addrA hm, h.passes_addrB hm] at htest
    rw [h.memPeek_passes_succ hm, ← hkept]
    split
    · next hx => rw [h.marks _ _ htest, hx.1]
    · rfl

theorem FieldLoop.testedBy : TestedBy body s (markMet s stopsAtB) := by
  intro k hgo
  rw [h.test _ (h.passes_wf hm k), h.passes_addrA hm, h.passes_addrB hm, h.hasWM_passes hm hgo,
    h.hasWM_passes hm hgo, markMet]

theorem FieldLoop.runLoop_next_iff {t : State} : runLoop body s = .next t ↔
    ∃ u, loopEndsIn body { s with eFirst := some true } u ∧ t = u.signal .proceed :=
  (h.testedBy (s := { s with eFirst := some true }) hm).runLoop_next_iff (markMet_bounded _ _)

theorem FieldLoop.runLoop_hang_iff : runLoop body s = .fault .hang ↔ ∀ k, markMet s stopsAtB k = false :=
  (h.testedBy (s := { s with eFirst := some true }) hm).runLoop_hang_iff (markMet_bounded _ _)

end

/-! CLEAR STORAGE: the addresses alone decide. -/

theorem passes_clearBody_addrB (k : Nat) (s : State) : (passes clearBody k s).addrB = nthDown k s.addrB := by
  induction k with
  | zero => rfl
  | succ k ih => rw [passes_succ, nthDown_succ, ← ih]; rfl

theorem passes_clearBody_eBoundary (k : Nat) (s : State) : (passes clearBody k s).eBoundary = s.eBoundary := by
  induction k with
  | zero => rfl
  | succ k ih => rw [passes_succ, ← ih]; rfl

/-- Whether the address of pass `k` ends CLEAR STORAGE. -/
def boundaryMet (s : State) (k : Nat) : Bool :=
  clearEnds (some (100 * decoded s.cfg s.addrB.e0)) (addrInt (nthDown k s.addrB))

theorem boundaryMet_bounded (s : State) : Bounded (boundaryMet s) := by
  intro k hk
  obtain ⟨m, hm, heq⟩ := exists_lt_loopFuel_addrInt_nthDown s.addrB k
  exact ⟨m, hm, by rw [boundaryMet, heq]; exact hk⟩

theorem boundaryMet_eq_false_iff (s : State) (k : Nat) : boundaryMet s k = false ↔
    100 * decoded s.cfg s.addrB.e0 < (addrInt (nthDown k s.addrB) : Int) := by
  rw [boundaryMet, clearEnds, decide_eq_false_iff_not]
  omega

/-- The state whose passes CLEAR STORAGE runs: the boundary latched. -/
def State.clearStart (s : State) : State :=
  { s with eBoundary := some (100 * decoded s.cfg s.addrB.e0), eFirst := some true }

theorem clearBody_testedBy (s : State) : TestedBy clearBody s.clearStart (boundaryMet s) := by
  intro k _
  rw [clearBody_eq, passes_clearBody_addrB, passes_clearBody_eBoundary]
  rfl

theorem execCs_next_iff (s t : State) :
    exec .cs s = .next t ↔ ∃ u, loopEndsIn clearBody s.clearStart u ∧ t = u.signal .proceed :=
  (clearBody_testedBy s).runLoop_next_iff (s := { s with eBoundary := _ }) (boundaryMet_bounded s)

/-- Settles O34: every test is told from the state before the loop and is decided within the bound. -/
theorem loopsRunUntilTheirTestEnds : Obligations.LoopsRunUntilTheirTestEnds := by
  unfold Obligations.LoopsRunUntilTheirTestEnds
  exact fun s t hm => ⟨moveBody_fieldLoop.runLoop_next_iff hm, loadBody_fieldLoop.runLoop_next_iff hm,
    compareBody_fieldLoop.runLoop_next_iff (s := { s with equal := true }) hm, execCs_next_iff s t⟩

/-- Settles O35: a loop hangs exactly when no pass meets a word-mark that ends it. -/
theorem fieldLoopsHangExactlyWithoutMark : Obligations.FieldLoopsHangExactlyWithoutMark := by
  unfold Obligations.FieldLoopsHangExactlyWithoutMark
  intro s hm
  have hboth : ∀ k, markMet s true k = false ↔ hasWM (s.memPeek (encoded (nthDown k s.addrA))) = false ∧
      hasWM (s.memPeek (encoded (nthDown k s.addrB))) = false := fun k => by
    rw [markMet, Bool.true_and, Bool.or_eq_false_iff]
  have hA : ∀ k, markMet s false k = false ↔ hasWM (s.memPeek (encoded (nthDown k s.addrA))) = false := fun k => by
    rw [markMet, Bool.false_and, Bool.or_false]
  refine ⟨?move, ?load, ?cmp⟩
  case move => exact (moveBody_fieldLoop.runLoop_hang_iff hm).trans (forall_congr' hboth)
  case load => exact (loadBody_fieldLoop.runLoop_hang_iff hm).trans (forall_congr' hA)
  case cmp =>
    exact (compareBody_fieldLoop.runLoop_hang_iff (s := { s with equal := true }) hm).trans
      (forall_congr' hboth)

/-- Settles O36: a boundary below 0 is below every address. -/
theorem clearStorageHangsExactlyAboveBoundary : Obligations.ClearStorageHangsExactlyAboveBoundary := by
  unfold Obligations.ClearStorageHangsExactlyAboveBoundary
  intro s
  have hhang : exec .cs s = .fault .hang ↔
      ∀ k, 100 * decoded s.cfg s.addrB.e0 < (addrInt (nthDown k s.addrB) : Int) :=
    ((clearBody_testedBy s).runLoop_hang_iff (s := { s with eBoundary := _ }) (boundaryMet_bounded s)).trans
      (forall_congr' (boundaryMet_eq_false_iff s))
  exact ⟨hhang, fun hneg => hhang.mpr fun k => by omega⟩

end Sys2Proof.Machine
end

section
/-! The field loops and CLEAR STORAGE where the addresses stay in 0..4000 (41_data_move.md R161 to R170,
43_control_io.md R214, 42_wordmark_clear.md R192 to R194). -/
namespace Sys2Proof.Machine

/-! The addresses of a field, from its low-order end down (R91, R169). -/

theorem addrInt_nthDown {a : Address} (hle : addrInt a ≤ 4000) {k : Nat} (hk : k ≤ addrInt a) :
    addrInt (nthDown k a) = addrInt a - k := by
  induction k with
  | zero => rfl
  | succ k ih =>
    have hprev := ih (Nat.le_of_succ_le hk)
    rw [nthDown_succ, addrInt_decrease (by omega) (by omega), hprev, Nat.sub_sub]

theorem nthDown_eq_downBy {a : Address} (hle : addrInt a ≤ 4000) {k : Nat} (hk : k ≤ addrInt a) :
    nthDown k a = downBy a k := by
  cases k with
  | zero => rfl
  | succ k =>
    have hcast : ((addrInt a - k : Nat) : Int) - 1 = (addrInt a : Int) - (k + 1 : Nat) := by omega
    rw [nthDown_succ, decrease, addrInt_nthDown hle (Nat.le_of_succ_le hk), hcast]
    rfl

theorem encoded_nthDown {a : Address} (hle : addrInt a ≤ 4000) {k : Nat} (hk : k ≤ addrInt a) :
    encoded (nthDown k a) = addrInt a - 1 - k := by
  rw [encoded, addrInt_nthDown hle hk, Nat.sub_right_comm]

/-- Two fields of `n` positions whose addresses stay in 0..4000, and the first position from the low-order end
that has a word-mark which ends the loop is the last one. -/
structure Fields (s : State) (n : Nat) (stopsAtB : Bool) : Prop where
  pos : 1 ≤ n
  inA : n ≤ addrInt s.addrA
  leA : addrInt s.addrA ≤ 4000
  inB : n ≤ addrInt s.addrB
  leB : addrInt s.addrB ≤ 4000
  unmarked : ∀ k, k + 1 < n → (hasWM (aChar s k) || (stopsAtB && hasWM (bChar s k))) = false
  marked : (hasWM (aChar s (n - 1)) || (stopsAtB && hasWM (bChar s (n - 1)))) = true

/-- No A position is written before it is read. -/
def NotOverrun (s : State) (n : Nat) : Prop :=
  addrInt s.addrA ≤ addrInt s.addrB ∨ addrInt s.addrB + n ≤ addrInt s.addrA

section
variable {s : State} {n : Nat} {stopsAtB : Bool} (f : Fields s n stopsAtB)
include f

theorem Fields.encodedA {k : Nat} (hk : k < n) : encoded (nthDown k s.addrA) = addrInt s.addrA - 1 - k :=
  encoded_nthDown f.leA (hk.le.trans f.inA)

theorem Fields.encodedB {k : Nat} (hk : k < n) : encoded (nthDown k s.addrB) = addrInt s.addrB - 1 - k :=
  encoded_nthDown f.leB (hk.le.trans f.inB)

theorem Fields.downA : nthDown n s.addrA = downBy s.addrA n := nthDown_eq_downBy f.leA f.inA

theorem Fields.downB {k : Nat} (hk : k ≤ n) : nthDown k s.addrB = downBy s.addrB k :=
  nthDown_eq_downBy f.leB (hk.trans f.inB)

theorem Fields.markMet_eq {k : Nat} (hk : k < n) :
    markMet s stopsAtB k = (hasWM (aChar s k) || (stopsAtB && hasWM (bChar s k))) := by
  rw [markMet, f.encodedA hk, f.encodedB hk]
  rfl

end

section
variable {body : State → State × Bool} {stopsAtB : Bool} {writes : Word → Word → Word}
  (h : FieldLoop body stopsAtB writes) {s : State} {n : Nat} (f : Fields s n stopsAtB) (hm : s.mem.wf)
include h f hm

/-- Positions the first `k` passes do not reach read as before. -/
theorem FieldLoop.memPeek_passes_outside {k : Nat} (hk : k ≤ n) {x : Nat}
    (hx : addrInt s.addrB ≤ x ∨ x + k < addrInt s.addrB) : (passes body k s).memPeek x = s.memPeek x := by
  induction k with
  | zero => rfl
  | succ k ih =>
    have hne : x ≠ addrInt s.addrB - 1 - k := by have := f.inB; omega
    rw [h.memPeek_passes_succ hm, f.encodedB hk, if_neg fun hj => hne hj.1, ih (Nat.le_of_succ_le hk) (by omega)]

/-- Each pass reads the B character as it was before the loop. -/
theorem FieldLoop.passes_reads_b {k : Nat} (hk : k < n) :
    (passes body k s).memPeek (encoded (nthDown k s.addrB)) = bChar s k := by
  rw [f.encodedB hk, h.memPeek_passes_outside f hm hk.le (by have := f.inB; omega), bChar]

theorem FieldLoop.passes_reads_a (ho : NotOverrun s n) {k : Nat} (hk : k < n) :
    (passes body k s).memPeek (encoded (nthDown k s.addrA)) = aChar s k := by
  have hx : addrInt s.addrB ≤ addrInt s.addrA - 1 - k ∨ addrInt s.addrA - 1 - k + k < addrInt s.addrB := by
    have := f.inA
    rcases ho with ho | ho <;> omega
  rw [f.encodedA hk, h.memPeek_passes_outside f hm hk.le hx, aChar]

/-- Where no A position is written before it is read, the B field holds what the loop writes for the characters
there were. -/
theorem FieldLoop.memPeek_passes_inside (ho : NotOverrun s n) {k : Nat} (hk : k ≤ n) {j : Nat} (hj : j < k)
    (hpos : addrInt s.addrB - 1 - j < s.positions) :
    (passes body k s).memPeek (addrInt s.addrB - 1 - j) = writes (aChar s j) (bChar s j) := by
  induction k with
  | zero => exact absurd hj (Nat.not_lt_zero j)
  | succ k ih =>
    rw [h.memPeek_passes_succ hm, h.passes_reads_a f hm ho hk, h.passes_reads_b f hm hk, f.encodedB hk]
    rcases Nat.lt_succ_iff_lt_or_eq.mp hj with hlt | rfl
    · have hne : addrInt s.addrB - 1 - j ≠ addrInt s.addrB - 1 - k := by have := f.inB; omega
      rw [if_neg fun hx => hne hx.1, ih (Nat.le_of_succ_le hk) hlt]
    · rw [if_pos ⟨rfl, hpos⟩]

/-- The loop ends with pass `n - 1`. -/
theorem FieldLoop.loopEndsIn_passes : loopEndsIn body s (passes body n s) := by
  have htested := h.testedBy hm
  have hgo := (htested.all_false_iff (n - 1)).mpr fun k hk =>
    (f.markMet_eq (hk.trans_le (Nat.sub_le n 1))).trans (f.unmarked k (by omega))
  have hend := (htested (n - 1) hgo).trans ((f.markMet_eq (Nat.sub_lt f.pos Nat.one_pos)).trans f.marked)
  refine ⟨n - 1, hgo, hend, ?_⟩
  rw [Nat.sub_add_cancel f.pos]

/-- The registers after the last pass; the kinds of loop differ in the fields left open here. -/
theorem FieldLoop.passes_fields_eq {u : State} (hu : u = passes body n s) : u = { s with
    areg := u.areg
    needsCheckA := true
    breg := u.breg
    needsCheckB := u.needsCheckB
    addrA := downBy s.addrA n
    addrB := downBy s.addrB n
    addrS := downBy s.addrB (n - 1)
    equal := u.equal
    mem := u.mem
    eFirst := some false } := by
  have hlast := h.passes_succ_eq hm (n - 1)
  rw [Nat.sub_add_cancel f.pos, ← hu, f.downA, f.downB le_rfl, f.downB (Nat.sub_le n 1)] at hlast
  have hareg : u.areg = _ := congrArg State.areg hlast
  exact hareg ▸ hlast

theorem FieldLoop.passes_areg (ho : NotOverrun s n) : (passes body n s).areg = aChar s (n - 1) := by
  have hlast := h.passes_succ_eq hm (n - 1)
  rw [Nat.sub_add_cancel f.pos, h.passes_reads_a f hm ho (Nat.sub_lt f.pos Nat.one_pos)] at hlast
  rw [hlast]

omit f in
theorem FieldLoop.peek_passes (k x : Nat) :
    Memory.peek s.positions (passes body k s).mem x = (passes body k s).memPeek x := by
  rw [State.memPeek, h.passes_positions hm]

/-- Storage after the last pass, as the statements on MOVE and LOAD give it. -/
theorem FieldLoop.storage_after :
    (∀ i, addrInt s.addrB ≤ i ∨ i + n < addrInt s.addrB →
      Memory.peek s.positions (passes body n s).mem i = s.memPeek i) ∧
    (NotOverrun s n → (passes body n s).areg = aChar s (n - 1) ∧
      ∀ k < n, addrInt s.addrB - 1 - k < s.positions →
        Memory.peek s.positions (passes body n s).mem (addrInt s.addrB - 1 - k) =
          writes (aChar s k) (bChar s k)) := by
  simp only [h.peek_passes hm]
  exact ⟨fun i hi => h.memPeek_passes_outside f hm le_rfl hi, fun ho =>
    ⟨h.passes_areg f hm ho, fun k hk hpos => h.memPeek_passes_inside f hm ho le_rfl hk hpos⟩⟩

end

/-! What the three loops differ in. -/

/-- Whatever every pass keeps, any number of passes keep. -/
theorem passes_keep {P : State → Prop} {body : State → State × Bool}
    (hbody : ∀ s, P s → P { (body s).1 with eFirst := some false }) {s : State} (hs : P s) (k : Nat) :
    P (passes body k s) := by
  induction k generalizing s with
  | zero => exact hs
  | succ k ih => exact ih (hbody s hs)

/-- MOVE does not write the COMPARE latch. -/
theorem moveBody_passes_equal {s : State} (hm : s.mem.wf) (k : Nat) :
    (passes moveBody k s).equal = s.equal := by
  refine (passes_keep (P := fun u => u.mem.wf ∧ u.equal = s.equal) (fun u hu => ?_) ⟨hm, rfl⟩ k).2
  rw [moveBody_eq u hu.1]
  exact ⟨State.moveStored_wf hu.1, hu.2⟩

theorem moveBody_passes_eq {s u : State} {n : Nat} (f : Fields s n true) (hm : s.mem.wf)
    (hu : u = passes moveBody n s) : u = { s with
      areg := u.areg
      needsCheckA := true
      breg := bChar s (n - 1)
      needsCheckB := true
      addrA := downBy s.addrA n
      addrB := downBy s.addrB n
      addrS := downBy s.addrB (n - 1)
      mem := u.mem
      eFirst := some false } := by
  have h := moveBody_fieldLoop
  have hlast : u = { (moveBody (passes moveBody (n - 1) s)).1 with eFirst := some false } := by
    rw [hu, ← passes_succ, Nat.sub_add_cancel f.pos]
  rw [moveBody_eq _ (h.passes_wf hm _), h.passes_addrB hm] at hlast
  have hbreg : u.breg = _ := congrArg State.breg hlast
  have hcheck : u.needsCheckB = true := congrArg State.needsCheckB hlast
  have hequal : u.equal = s.equal := hu ▸ moveBody_passes_equal hm n
  have hall := h.passes_fields_eq f hm hu
  rwa [hbreg, hcheck, hequal, h.passes_reads_b f hm (Nat.sub_lt f.pos Nat.one_pos)] at hall

/-- LOAD writes neither the B-register nor the COMPARE latch. -/
theorem loadBody_passes_kept {s : State} (hm : s.mem.wf) (k : Nat) :
    (passes loadBody k s).breg = s.breg ∧ (passes loadBody k s).needsCheckB = s.needsCheckB ∧
      (passes loadBody k s).equal = s.equal := by
  refine (passes_keep (P := fun u => u.mem.wf ∧ u.breg = s.breg ∧ u.needsCheckB = s.needsCheckB ∧
    u.equal = s.equal) (fun u hu => ?_) ⟨hm, rfl, rfl, rfl⟩ k).2
  rw [loadBody_eq u hu.1]
  exact ⟨State.loadStored_wf hu.1, hu.2⟩

theorem loadBody_passes_eq {s u : State} {n : Nat} (f : Fields s n false) (hm : s.mem.wf)
    (hu : u = passes loadBody n s) : u = { s with
      areg := u.areg
      needsCheckA := true
      addrA := downBy s.addrA n
      addrB := downBy s.addrB n
      addrS := downBy s.addrB (n - 1)
      mem := u.mem
      eFirst := some false } := by
  obtain ⟨hbreg, hcheck, hequal⟩ := loadBody_passes_kept hm n
  have hall := loadBody_fieldLoop.passes_fields_eq f hm hu
  rw [← hu] at hbreg hcheck hequal
  rwa [hbreg, hcheck, hequal] at hall

/-- COMPARE leaves storage as it is. -/
theorem compareBody_passes_mem {s : State} (hm : s.mem.wf) (k : Nat) :
    (passes compareBody k s).mem = s.mem := by
  refine passes_keep (P := fun u => u.mem = s.mem) (fun u hu => ?_) rfl k
  rw [compareBody_eq u (hu ▸ hm)]
  exact hu

/-- So a pass of COMPARE reads what was there before the loop, at any addresses. -/
theorem compareBody_passes_succ {s : State} (hm : s.mem.wf) (k : Nat) :
    (passes compareBody (k + 1) s).areg = s.memPeek (encoded (nthDown k s.addrA)) ∧
    (passes compareBody (k + 1) s).breg = s.memPeek (encoded (nthDown k s.addrB)) ∧
    (passes compareBody (k + 1) s).needsCheckB = true ∧
    (passes compareBody (k + 1) s).equal = equalAfterPair (passes compareBody k s).equal
      (s.memPeek (encoded (nthDown k s.addrA))) (s.memPeek (encoded (nthDown k s.addrB))) := by
  have h := compareBody_fieldLoop
  have hpeek : ∀ x, (passes compareBody k s).memPeek x = s.memPeek x :=
    State.memPeek_congr (h.passes_positions hm k) (compareBody_passes_mem hm k)
  rw [passes_succ, compareBody_eq _ (h.passes_wf hm k), h.passes_addrB hm, h.passes_addrA hm, hpeek, hpeek]
  exact ⟨rfl, rfl, rfl, rfl⟩

/-- The latch says whether all pairs so far have equal codes. -/
theorem compareBody_passes_equal {s : State} {n : Nat} (f : Fields s n true) (hm : s.mem.wf)
    (hstart : s.equal = true) {k : Nat} (hk : k ≤ n) : (passes compareBody k s).equal =
      decide (∀ j < k, code6 (aChar s j) = code6 (bChar s j)) := by
  induction k with
  | zero => exact hstart.trans (decide_eq_true fun j hj => absurd hj (Nat.not_lt_zero j)).symm
  | succ k ih =>
    obtain ⟨-, -, -, hequal⟩ := compareBody_passes_succ hm k
    rw [hequal, ih (Nat.le_of_succ_le hk), f.encodedA hk, f.encodedB hk, equalAfterPair, Bool.eq_iff_iff]
    simp only [Nat.lt_succ_iff_lt_or_eq, or_imp, forall_and, forall_eq, Bool.and_eq_true, decide_eq_true_eq,
      beq_iff_eq]
    rfl

theorem compareBody_passes_eq {s : State} {n : Nat} (f : Fields s n true) (hm : s.mem.wf)
    (hstart : s.equal = true) : passes compareBody n s = { s with
      areg := aChar s (n - 1)
      needsCheckA := true
      breg := bChar s (n - 1)
      needsCheckB := true
      addrA := downBy s.addrA n
      addrB := downBy s.addrB n
      addrS := downBy s.addrB (n - 1)
      equal := decide (∀ k < n, code6 (aChar s k) = code6 (bChar s k))
      eFirst := some false } := by
  have hlt : n - 1 < n := Nat.sub_lt f.pos Nat.one_pos
  obtain ⟨hareg, hbreg, hcheck, -⟩ := compareBody_passes_succ hm (n - 1)
  rw [Nat.sub_add_cancel f.pos] at hareg hbreg hcheck
  have hall := compareBody_fieldLoop.passes_fields_eq f hm rfl
  rwa [hareg, hbreg, hcheck, compareBody_passes_equal f hm hstart le_rfl, compareBody_passes_mem hm,
    f.encodedA hlt, f.encodedB hlt] at hall

/-- The result port is the last thing a looping handler writes. -/
theorem next_signal_congr {u v : State} (h : u = v) (r : StepResult) :
    (Host.Outcome.next (u.signal r) : Host.Outcome State Fault Refusal) = .next (v.signal r) := by
  rw [h]

/-- Settles O21: `n` passes of `moveBody_fieldLoop`. -/
theorem moveMovesField : Obligations.MoveMovesField := by
  unfold Obligations.MoveMovesField
  intro s n hm hpos hinA hleA hinB hleB hgo hend
  have f : Fields { s with eFirst := some true } n true :=
    ⟨hpos, hinA, hleA, hinB, hleB, fun k hk => Bool.or_eq_false_iff.mpr (hgo k hk), Bool.or_eq_true_iff.mpr hend⟩
  have hrun : exec .move s = _ :=
    (moveBody_fieldLoop.runLoop_next_iff hm).mpr ⟨_, moveBody_fieldLoop.loopEndsIn_passes f hm, rfl⟩
  exact ⟨_, _, hrun.trans (next_signal_congr (moveBody_passes_eq f hm rfl) _),
    moveBody_fieldLoop.storage_after f hm⟩

/-- Settles O24: `n` passes of `loadBody_fieldLoop`, of which a word-mark of the B field ends none. -/
theorem loadCopiesField : Obligations.LoadCopiesField := by
  unfold Obligations.LoadCopiesField
  intro s n hm hpos hinA hleA hinB hleB hgo hend
  have f : Fields { s with eFirst := some true } n false :=
    ⟨hpos, hinA, hleA, hinB, hleB, fun k hk => (Bool.or_false _).trans (hgo k hk), (Bool.or_false _).trans hend⟩
  have hrun : exec .load s = _ :=
    (loadBody_fieldLoop.runLoop_next_iff hm).mpr ⟨_, loadBody_fieldLoop.loopEndsIn_passes f hm, rfl⟩
  exact ⟨_, _, hrun.trans (next_signal_congr (loadBody_passes_eq f hm rfl) _),
    loadBody_fieldLoop.storage_after f hm⟩

/-- Settles O32: `n` passes of `compareBody_fieldLoop` from the latch set. -/
theorem compareComparesFields : Obligations.CompareComparesFields := by
  unfold Obligations.CompareComparesFields
  intro s n hm hpos hinA hleA hinB hleB hgo hend
  have f : Fields { s with equal := true, eFirst := some true } n true :=
    ⟨hpos, hinA, hleA, hinB, hleB, fun k hk => Bool.or_eq_false_iff.mpr (hgo k hk), Bool.or_eq_true_iff.mpr hend⟩
  have hrun : exec .cmp s = _ :=
    (compareBody_fieldLoop.runLoop_next_iff (s := { s with equal := true }) hm).mpr
      ⟨_, compareBody_fieldLoop.loopEndsIn_passes f hm, rfl⟩
  exact hrun.trans (next_signal_congr (compareBody_passes_eq f hm rfl) _)

end Sys2Proof.Machine
end

section
/-! CLEAR STORAGE where the addresses stay in 0..4000 (42_wordmark_clear.md R192, R194). -/
namespace Sys2Proof.Machine

/-- `s` with what CLEAR STORAGE writes, taken from `u`. -/
def State.cleared (s u : State) : State :=
  { s with
    breg := u.breg
    needsCheckB := u.needsCheckB
    addrB := u.addrB
    addrS := u.addrS
    mem := u.mem
    eFirst := u.eFirst }

theorem State.cleared_cleared (s u v : State) : (s.cleared u).cleared v = s.cleared v := rfl

theorem passes_clearBody_eq_cleared (s : State) (k : Nat) :
    passes clearBody k s = s.cleared (passes clearBody k s) := by
  induction k with
  | zero => rfl
  | succ k ih =>
    have hpass : passes clearBody (k + 1) s = (passes clearBody k s).cleared (passes clearBody (k + 1) s) := by
      rw [passes_succ]
      rfl
    rw [hpass, ih, State.cleared_cleared]
    rfl

theorem passes_clearBody_wf {s : State} (hm : s.mem.wf) (k : Nat) : (passes clearBody k s).mem.wf :=
  passes_keep (P := fun u => u.mem.wf) (fun _ hu => State.clearStored_wf hu) hm k

theorem passes_clearBody_positions (s : State) (k : Nat) : (passes clearBody k s).positions = s.positions := by
  rw [passes_clearBody_eq_cleared]
  rfl

/-- The state after `k + 1` passes. -/
theorem passes_clearBody_succ_eq (s : State) (k : Nat) : passes clearBody (k + 1) s = { s with
    breg := (passes clearBody k s).memPeek (encoded (nthDown k s.addrB))
    needsCheckB := true
    addrB := nthDown (k + 1) s.addrB
    addrS := nthDown k s.addrB
    mem := (passes clearBody (k + 1) s).mem
    eFirst := some false } := by
  have hlast : passes clearBody (k + 1) s = _ := passes_succ clearBody k s
  have hbreg : (passes clearBody (k + 1) s).breg =
      (passes clearBody k s).memPeek (encoded (nthDown k s.addrB)) := by
    rw [hlast, clearBody_eq, passes_clearBody_addrB]
  have haddrS : (passes clearBody (k + 1) s).addrS = nthDown k s.addrB := by
    rw [hlast, clearBody_eq, passes_clearBody_addrB]
  have hcheck : (passes clearBody (k + 1) s).needsCheckB = true := by rw [hlast]; rfl
  have hfirst : (passes clearBody (k + 1) s).eFirst = some false := by rw [hlast]
  refine (passes_clearBody_eq_cleared s (k + 1)).trans ?_
  rw [State.cleared, hbreg, haddrS, hcheck, hfirst, passes_clearBody_addrB]

/-- What storage reads after one more pass. -/
theorem memPeek_passes_clearBody_succ {s : State} (hm : s.mem.wf) (k x : Nat) :
    (passes clearBody (k + 1) s).memPeek x =
      if x = encoded (nthDown k s.addrB) ∧ encoded (nthDown k s.addrB) < s.positions then blank
      else (passes clearBody k s).memPeek x := by
  have hstored := State.memPeek_clearStored _ (passes_clearBody_wf hm k) x
  rw [passes_clearBody_addrB, passes_clearBody_positions] at hstored
  rw [← hstored, passes_succ]
  rfl

/-- A position no pass has come to reads as before. -/
theorem memPeek_passes_clearBody_of_ne {s : State} (hm : s.mem.wf) {k x : Nat}
    (h : ∀ j < k, x ≠ encoded (nthDown j s.addrB)) : (passes clearBody k s).memPeek x = s.memPeek x := by
  induction k with
  | zero => rfl
  | succ k ih =>
    rw [memPeek_passes_clearBody_succ hm, if_neg fun hx => h k (Nat.lt_succ_self k) hx.1,
      ih fun j hj => h j (Nat.lt_succ_of_lt hj)]

/-- A position some pass has come to is blank. -/
theorem memPeek_passes_clearBody_encoded {s : State} (hm : s.mem.wf) {j k : Nat} (hj : j < k)
    (hpos : encoded (nthDown j s.addrB) < s.positions) :
    (passes clearBody k s).memPeek (encoded (nthDown j s.addrB)) = blank := by
  induction k with
  | zero => exact absurd hj (Nat.not_lt_zero j)
  | succ k ih =>
    rw [memPeek_passes_clearBody_succ hm]
    split
    · rfl
    · next hx =>
      rcases Nat.lt_succ_iff_lt_or_eq.mp hj with hlt | rfl
      · exact ih hlt
      · exact absurd ⟨rfl, hpos⟩ hx

/-! The boundary is a natural number at or below the start address. -/

section
variable {s : State} {low : Nat} (hlow : (low : Int) = 100 * decoded s.cfg s.addrB.e0)
  (hle : low ≤ addrInt s.addrB) (hb : addrInt s.addrB ≤ 4000)
include hlow hle hb

/-- The pass at the boundary is the first that ends the loop. -/
theorem clearBody_loopEndsIn :
    loopEndsIn clearBody s.clearStart (passes clearBody (addrInt s.addrB - low + 1) s.clearStart) := by
  have haddr : ∀ k ≤ addrInt s.addrB - low, addrInt (nthDown k s.addrB) = addrInt s.addrB - k := fun k hk =>
    addrInt_nthDown hb (by omega)
  have hgo : ∀ k < addrInt s.addrB - low, boundaryMet s k = false := fun k hk => by
    rw [boundaryMet_eq_false_iff, haddr k hk.le, ← hlow]
    omega
  have hend : boundaryMet s (addrInt s.addrB - low) = true := by
    rw [← Bool.not_eq_false, boundaryMet_eq_false_iff, haddr _ le_rfl, ← hlow]
    omega
  have hgo' := ((clearBody_testedBy s).all_false_iff _).mpr hgo
  exact ⟨_, hgo', (clearBody_testedBy s _ hgo').trans hend, rfl⟩

/-- CLEAR STORAGE, with the B-register and storage left open. -/
theorem execCs_eq : exec .cs s = .next { s with
    breg := (passes clearBody (addrInt s.addrB - low) s.clearStart).memPeek (low - 1)
    needsCheckB := true
    addrB := addrEnc ((low : Int) - 1)
    addrS := downBy s.addrB (addrInt s.addrB - low)
    mem := (passes clearBody (addrInt s.addrB - low + 1) s.clearStart).mem
    eBoundary := some (low : Int)
    eFirst := some false
    result := some .proceed } := by
  have hrun := (execCs_next_iff s _).mpr ⟨_, clearBody_loopEndsIn hlow hle hb, rfl⟩
  have haddr : addrInt (nthDown (addrInt s.addrB - low) s.addrB) = low := by
    rw [addrInt_nthDown hb (Nat.sub_le _ _), Nat.sub_sub_self hle]
  have hencoded : encoded (nthDown (addrInt s.addrB - low) s.addrB) = low - 1 := congrArg (· - 1) haddr
  have hnext : nthDown (addrInt s.addrB - low + 1) s.addrB = addrEnc ((low : Int) - 1) := by
    rw [nthDown_succ, decrease, haddr]
  have hlast := passes_clearBody_succ_eq s.clearStart (addrInt s.addrB - low)
  rw [show s.clearStart.addrB = s.addrB from rfl, hencoded, hnext,
    nthDown_eq_downBy hb (Nat.sub_le _ _)] at hlast
  rw [hrun, next_signal_congr hlast, hlow]
  rfl

end

/-- Storage as the statements on CLEAR STORAGE give it. -/
theorem peek_passes_clearBody (s : State) (k x : Nat) :
    Memory.peek s.positions (passes clearBody k s.clearStart).mem x = (passes clearBody k s.clearStart).memPeek x := by
  rw [State.memPeek, passes_clearBody_positions]
  rfl

/-- The pass at address `p` clears index `p - 1`. -/
theorem memPeek_passes_clearBody_range {s : State} (hm : s.mem.wf) (hb : addrInt s.addrB ≤ 4000) {k : Nat}
    (hk : k ≤ addrInt s.addrB) (x : Nat) : (passes clearBody k s.clearStart).memPeek x =
      if addrInt s.addrB ≤ x + k ∧ x < addrInt s.addrB ∧ x < s.positions then blank else s.memPeek x := by
  have hencoded : ∀ j ≤ addrInt s.addrB, encoded (nthDown j s.clearStart.addrB) = addrInt s.addrB - 1 - j :=
    fun j hj => encoded_nthDown hb hj
  split
  · next hx =>
    obtain ⟨hlow, hlt, hpos⟩ := hx
    have hj : encoded (nthDown (addrInt s.addrB - 1 - x) s.clearStart.addrB) = x := by
      rw [hencoded _ (by omega)]
      omega
    rw [← hj] at hpos ⊢
    exact memPeek_passes_clearBody_encoded (s := s.clearStart) hm (by omega) hpos
  · next hx =>
    by_cases hpos : x < s.positions
    · refine memPeek_passes_clearBody_of_ne (s := s.clearStart) hm fun j hj => ?_
      rw [hencoded j (by omega)]
      omega
    · have hge : s.positions ≤ x := Nat.le_of_not_lt hpos
      rw [State.memPeek_of_ge s hge]
      exact State.memPeek_of_ge _ ((passes_clearBody_positions s.clearStart k).trans_le hge)

/-- Settles O27: the last pass is at the boundary. -/
theorem clearStorageClearsDownToBoundary : Obligations.ClearStorageClearsDownToBoundary := by
  unfold Obligations.ClearStorageClearsDownToBoundary
  intro s low hm hlow hpos hle hb
  have hbreg : (passes clearBody (addrInt s.addrB - low) s.clearStart).memPeek (low - 1) = s.memPeek (low - 1) := by
    rw [memPeek_passes_clearBody_range hm hb (Nat.sub_le _ _), if_neg (by omega)]
  have hexec := execCs_eq hlow hle hb
  rw [hbreg] at hexec
  refine ⟨_, hexec, fun i => ?_⟩
  rw [peek_passes_clearBody, memPeek_passes_clearBody_range hm hb (by omega)]
  exact if_congr (by omega) rfl rfl

/-- Settles O28: as O27, but the pass at address 0 comes to index 0 for a second time. -/
theorem clearStorageToZero : Obligations.ClearStorageToZero := by
  unfold Obligations.ClearStorageToZero
  intro s hm hzero hb
  have hexec := execCs_eq (low := 0) (by rw [hzero]; rfl) (Nat.zero_le _) hb
  have hpos := s.positions_pos
  have hbreg : (passes clearBody (addrInt s.addrB - 0) s.clearStart).memPeek (0 - 1) =
      if addrInt s.addrB = 0 then s.memPeek 0 else 0x40#8 := by
    rw [memPeek_passes_clearBody_range hm hb (Nat.sub_le _ _), ← ite_not]
    exact if_congr (by omega) rfl rfl
  rw [hbreg] at hexec
  refine ⟨_, hexec, fun i => ?_⟩
  have hzeroth : encoded (nthDown (addrInt s.addrB - 0) s.clearStart.addrB) = 0 := by
    rw [show s.clearStart.addrB = s.addrB from rfl, encoded_nthDown hb (Nat.sub_le _ _)]
    omega
  rw [peek_passes_clearBody, memPeek_passes_clearBody_succ (s := s.clearStart) hm,
    memPeek_passes_clearBody_range hm hb (Nat.sub_le _ _), hzeroth, ← ite_or]
  refine if_congr ?_ rfl rfl
  rw [show s.clearStart.positions = s.positions from rfl]
  omega

end Sys2Proof.Machine
end

section
/-! The handlers without a loop (42_wordmark_clear.md R190, R191, 43_control_io.md), and what every handler leaves
unchanged. -/
namespace Sys2Proof

theorem clearWordMark_clearWordMark (w : Word) : clearWordMark (clearWordMark w) = clearWordMark w := by
  rw [clearWordMark, clearWordMark, BitVec.and_assoc, BitVec.and_self]

end Sys2Proof

namespace Sys2Proof.Machine

/-! SET WORD MARK and CLEAR WORD MARK: the same mutator at two positions. -/

/-- A mutator that does nothing the second time, applied at two positions which may be the same. -/
theorem Memory.peek_mutate_mutate {m : Memory} (hm : Memory.wf m) (n : Nat) {f : Word → Word}
    (hf : ∀ w, f (f w) = f w) (i j x : Nat) :
    Memory.peek n (Memory.mutate n f (Memory.mutate n f m i) j) x =
      if (x = i ∨ x = j) ∧ x < n then f (Memory.peek n m x) else Memory.peek n m x := by
  have hboth : (x = i ∨ x = j) ∧ x < n ↔ (x = j ∧ j < n) ∨ (x = i ∧ i < n) := by omega
  rw [Memory.peek_mutate (Memory.mutate_wf hm n f i), Memory.peek_mutate hm, Memory.peek_mutate hm,
    if_congr hboth rfl rfl]
  by_cases hj : x = j ∧ j < n
  · have hl : x = j ∧ j < n ∨ x = i ∧ i < n := .inl hj
    rw [if_pos hj, if_pos hl, hj.1]
    split
    · next hi => rw [hf, ← hi.1]
    · rfl
  · rw [if_neg hj]
    by_cases hi : x = i ∧ i < n
    · have hr : x = j ∧ j < n ∨ x = i ∧ i < n := .inr hi
      rw [if_pos hi, if_pos hr, hi.1]
    · rw [if_neg hi, if_neg fun h => h.elim hj hi]

/-- What SET WORD MARK and CLEAR WORD MARK leave of `s`, the mutator being `f`. -/
def State.mutatedBoth (s : State) (f : Word → Word) : State :=
  { s with
    areg := Memory.peek s.positions (Memory.mutate s.positions f s.mem (encoded s.addrA)) (encoded s.addrB)
    needsCheckA := true
    addrB := decrease s.addrB
    addrS := s.addrB
    mem := Memory.mutate s.positions f (Memory.mutate s.positions f s.mem (encoded s.addrA)) (encoded s.addrB)
    result := some .proceed }

theorem execSwm_eq (s : State) (hm : s.mem.wf) : execSwm s = .next (s.mutatedBoth setWordMark) := by
  rw [execSwm, State.eFetchToA_eq s.latchA hm, State.eFetchToA_eq _ (Memory.mutate_wf hm _ _ _)]
  rfl

theorem execCwm_eq (s : State) (hm : s.mem.wf) : execCwm s = .next (s.mutatedBoth clearWordMark) := by
  rw [execCwm, State.eFetchToA_eq s.latchA hm, State.eFetchToA_eq _ (Memory.mutate_wf hm _ _ _)]
  rfl

/-- The second read finds what the first mutation left. -/
theorem State.mutatedBoth_areg (s : State) (hm : s.mem.wf) (f : Word → Word) : (s.mutatedBoth f).areg =
    if encoded s.addrA = encoded s.addrB ∧ encoded s.addrA < s.positions then f (s.memPeek (encoded s.addrB))
    else s.memPeek (encoded s.addrB) := by
  refine (Memory.peek_mutate hm _ _ _ _).trans ?_
  by_cases h : encoded s.addrA = encoded s.addrB
  · simp only [h, true_and]
    rfl
  · rw [if_neg fun hx => h hx.1.symm, if_neg fun hx => h hx.1]
    rfl

theorem State.mutatedBoth_eq (s : State) (hm : s.mem.wf) (f : Word → Word) : s.mutatedBoth f = { s with
    areg := if encoded s.addrA = encoded s.addrB ∧ encoded s.addrA < s.positions
      then f (s.memPeek (encoded s.addrB)) else s.memPeek (encoded s.addrB)
    needsCheckA := true
    addrB := decrease s.addrB
    addrS := s.addrB
    mem := (s.mutatedBoth f).mem
    result := some .proceed } := by
  rw [← State.mutatedBoth_areg s hm f]
  rfl

/-- Settles O25: `setWordMark` done twice is done once. -/
theorem setWordMarkMarksBoth : Obligations.SetWordMarkMarksBoth := by
  unfold Obligations.SetWordMarkMarksBoth
  intro s hm
  refine ⟨_, _, _, rfl, rfl, (execSwm_eq s hm).trans (congrArg _ (State.mutatedBoth_eq s hm _)), ?_⟩
  exact Memory.peek_mutate_mutate hm _ setWordMark_setWordMark _ _

/-- Settles O26: as O25. -/
theorem clearWordMarkClearsBoth : Obligations.ClearWordMarkClearsBoth := by
  unfold Obligations.ClearWordMarkClearsBoth
  intro s hm
  refine ⟨_, _, _, rfl, rfl, (execCwm_eq s hm).trans (congrArg _ (State.mutatedBoth_eq s hm _)), ?_⟩
  exact Memory.peek_mutate_mutate hm _ clearWordMark_clearWordMark _ _

/-! HALT, NO-OP, READ-CARD, BRANCH and PRINT. -/

theorem execHalt_of_nonDecimal {s : State} (h : 9 < (digit s.ireg).toNat) : execHalt s = .next { s with
    deferred := if 4 ≤ s.counter.val then true else s.deferred
    result := some .systemHalt } := by
  have hdeferred : deferredAfterHalt s.deferred s.counter = if 4 ≤ s.counter.val then true else s.deferred := by
    rw [deferredAfterHalt, or_eq_ite]
    exact if_congr decide_eq_true_iff rfl rfl
  rw [execHalt, if_pos (show nonDecimal s.ireg = true from decide_eq_true h), hdeferred]
  rfl

theorem execHalt_of_decimal {s : State} (h : (digit s.ireg).toNat ≤ 9) :
    execHalt s = .next { s with result := some .proceed } :=
  if_neg (by rw [nonDecimal, decide_eq_true_eq]; omega)

/-- Settles O29: the two branches of HALT. -/
theorem haltSignals : Obligations.HaltSignals := by
  unfold Obligations.HaltSignals
  exact fun _ => ⟨execHalt_of_nonDecimal, execHalt_of_decimal⟩

/-- Settles O30: each writes the result port alone. -/
theorem nopReadBranchOnlySignal : Obligations.NopReadBranchOnlySignal := by
  unfold Obligations.NopReadBranchOnlySignal
  exact fun _ => ⟨rfl, rfl, rfl⟩

/-- Settles O31: the line is the codes of the band, position by position. -/
theorem printEmitsBand : Obligations.PrintEmitsBand := by
  unfold Obligations.PrintEmitsBand
  intro s
  refine ⟨printLine s, ?length, fun k hk => ?codes, rfl⟩
  case length => rw [printLine, List.length_map, List.length_range]
  case codes => simp only [printLine, List.getElem_map, List.getElem_range]

/-! What the handlers leave unchanged. -/

/-- What none of the loops writes. -/
def State.loopKept (s : State) :=
  (s.cfg, s.ireg, s.needsCheckI, s.addrI, s.phase, s.counter, s.deferred, s.cycleElim, s.eBoundary, s.fault,
    s.printed)

theorem moveBody_kept (s : State) :
    (moveBody s).1.loopKept = s.loopKept ∧ (moveBody s).1.equal = s.equal := by
  simp only [moveBody]
  split <;> simp [State.loopKept]

theorem loadBody_kept (s : State) : (loadBody s).1.loopKept = s.loopKept ∧ (loadBody s).1.equal = s.equal ∧
    (loadBody s).1.breg = s.breg ∧ (loadBody s).1.needsCheckB = s.needsCheckB := by
  simp [loadBody, State.loopKept]

theorem compareBody_kept (s : State) : (compareBody s).1.loopKept = s.loopKept := by
  simp [compareBody, State.loopKept]

theorem clearBody_kept (s : State) : (clearBody s).1.loopKept = s.loopKept ∧ (clearBody s).1.equal = s.equal ∧
    (clearBody s).1.areg = s.areg ∧ (clearBody s).1.needsCheckA = s.needsCheckA ∧
    (clearBody s).1.addrA = s.addrA := by
  simp [clearBody, State.loopKept]

theorem execMove_kept {s t : State} (h : execMove s = .next t) :
    t.loopKept = s.loopKept ∧ t.equal = s.equal :=
  runLoop_keeps (P := fun u => u.loopKept = s.loopKept ∧ u.equal = s.equal)
    (fun u ⟨hkept, hequal⟩ => ⟨(moveBody_kept u).1.trans hkept, (moveBody_kept u).2.trans hequal⟩)
    (fun _ hu => hu) ⟨rfl, rfl⟩ h

theorem execLoad_kept {s t : State} (h : execLoad s = .next t) : t.loopKept = s.loopKept ∧
    t.equal = s.equal ∧ t.breg = s.breg ∧ t.needsCheckB = s.needsCheckB := by
  refine runLoop_keeps (P := fun u => u.loopKept = s.loopKept ∧ u.equal = s.equal ∧ u.breg = s.breg ∧
    u.needsCheckB = s.needsCheckB) (fun u ⟨hkept, hequal, hbreg, hcheck⟩ => ?_) (fun _ hu => hu)
    ⟨rfl, rfl, rfl, rfl⟩ h
  obtain ⟨hkept', hequal', hbreg', hcheck'⟩ := loadBody_kept u
  exact ⟨hkept'.trans hkept, hequal'.trans hequal, hbreg'.trans hbreg, hcheck'.trans hcheck⟩

theorem execCmp_kept {s t : State} (h : execCmp s = .next t) : t.loopKept = s.loopKept := by
  rw [execCmp] at h
  refine runLoop_keeps (P := fun u => u.loopKept = s.loopKept) (fun u hu => (compareBody_kept u).trans hu)
    (fun _ hu => hu) ?_ h
  rfl

theorem execCmp_mem {s t : State} (hm : s.mem.wf) (h : execCmp s = .next t) : t.mem = s.mem := by
  rw [execCmp] at h
  refine runLoop_keeps (P := fun u => u.mem = s.mem) (fun u hu => ?_) (fun _ hu => hu) ?_ h
  · rw [compareBody_eq u (hu ▸ hm)]
    exact hu
  · rfl

/-- CLEAR STORAGE latches the boundary before its loop. -/
theorem execCs_kept {s t : State} (h : execCs s = .next t) :
    t.loopKept = ({ s with eBoundary := some (clearBoundary s.cfg s.addrB) } : State).loopKept ∧
    t.equal = s.equal ∧ t.areg = s.areg ∧ t.needsCheckA = s.needsCheckA ∧ t.addrA = s.addrA := by
  rw [execCs] at h
  refine runLoop_keeps (P := fun u =>
    u.loopKept = ({ s with eBoundary := some (clearBoundary s.cfg s.addrB) } : State).loopKept ∧
    u.equal = s.equal ∧ u.areg = s.areg ∧ u.needsCheckA = s.needsCheckA ∧ u.addrA = s.addrA)
    (fun u ⟨hkept, hequal, hareg, hcheck, haddrA⟩ => ?_) (fun _ hu => hu) ?_ h
  · obtain ⟨hkept', hequal', hareg', hcheck', haddrA'⟩ := clearBody_kept u
    exact ⟨hkept'.trans hkept, hequal'.trans hequal, hareg'.trans hareg, hcheck'.trans hcheck,
      haddrA'.trans haddrA⟩
  · exact ⟨rfl, rfl, rfl, rfl, rfl⟩

theorem execHalt_kept {s t : State} (h : execHalt s = .next t) :
    t = { s with deferred := t.deferred, result := t.result } := by
  rw [execHalt] at h
  split at h <;> cases h <;> rfl

/-- Settles O37: for a loop, what its passes do not write; for the other handlers, the state they give. -/
theorem handlersLeaveUnchanged : Obligations.HandlersLeaveUnchanged := by
  unfold Obligations.HandlersLeaveUnchanged
  intro i s t h
  cases i with
  | move =>
    obtain ⟨hkept, hequal⟩ := execMove_kept h
    simp_all [State.loopKept]
  | load =>
    obtain ⟨hkept, hequal, hbreg, hcheck⟩ := execLoad_kept h
    simp_all [State.loopKept]
  | cmp =>
    have hkept := execCmp_kept h
    have hmem : s.mem.wf → t.mem = s.mem := fun hm => execCmp_mem hm h
    simp only [State.loopKept, Prod.mk.injEq] at hkept
    simpa [hkept] using hmem
  | cs =>
    obtain ⟨hkept, hequal, hareg, hcheck, haddrA⟩ := execCs_kept h
    simp_all [State.loopKept]
  | halt =>
    rw [execHalt_kept h]
    simp
  | swm | cwm | md | mz | nop | print | read | br =>
    cases h
    simp [unimplemented]

/-! How a handler can answer. -/

theorem runLoop_ne_refused (body : State → State × Bool) (s : State) (r : Refusal) : runLoop body s ≠ .refused r := by
  rcases runLoop_cases body s with ⟨u, -, hr⟩ | ⟨-, hr⟩ <;> rw [hr] <;> exact nofun

theorem runLoop_fault {body : State → State × Bool} {s : State} {f : Fault} (h : runLoop body s = .fault f) :
    f = .hang := by
  rcases runLoop_cases body s with ⟨u, -, hr⟩ | ⟨-, hr⟩ <;> rw [hr] at h <;> cases h
  rfl

/-- A handler without a loop gives a state. -/
theorem exec_next_of_not_loop {i : Instr} (hi : ¬(i = .move ∨ i = .load ∨ i = .cmp ∨ i = .cs)) (s : State) :
    ∃ t, exec i s = .next t := by
  cases i with
  | move | load | cmp | cs => simp at hi
  | halt =>
    by_cases h : 9 < (digit s.ireg).toNat
    · exact ⟨_, execHalt_of_nonDecimal h⟩
    · exact ⟨_, execHalt_of_decimal (Nat.le_of_not_lt h)⟩
  | swm | cwm | md | mz | nop | print | read | br => exact ⟨_, rfl⟩

theorem exec_loop {i : Instr} (hi : i = .move ∨ i = .load ∨ i = .cmp ∨ i = .cs) (s : State) :
    ∃ body u, exec i s = runLoop body u := by
  rcases hi with rfl | rfl | rfl | rfl
  · exact ⟨moveBody, s, rfl⟩
  · exact ⟨loadBody, s, rfl⟩
  · exact ⟨compareBody, { s with equal := true }, rfl⟩
  · exact ⟨clearBody, { s with eBoundary := some (clearBoundary s.cfg s.addrB) }, rfl⟩

/-- Settles O39: the four loops answer as `runLoop` does, and the other handlers give a state. -/
theorem onlyEndlessLoopsStop : Obligations.OnlyEndlessLoopsStop := by
  unfold Obligations.OnlyEndlessLoopsStop
  intro i s
  by_cases hi : i = .move ∨ i = .load ∨ i = .cmp ∨ i = .cs
  · obtain ⟨body, u, hexec⟩ := exec_loop hi s
    rw [hexec]
    exact ⟨runLoop_ne_refused body u, fun f h => ⟨runLoop_fault h, hi⟩⟩
  · obtain ⟨t, hexec⟩ := exec_next_of_not_loop hi s
    rw [hexec]
    exact ⟨fun _ h => (nomatch h), fun _ h => (nomatch h)⟩

end Sys2Proof.Machine
end

section
/-! What one step can do (40_fetch_fsm.md R120 to R136): to each field, and to the result port. -/
namespace Sys2Proof.Machine

/-! The I-phase. -/

/-- What the micro-cycles 1 to 7 write besides the FSM, the B-register and `addrS`. -/
def State.filled (s : State) (a b : Address) (d c : Bool) : State :=
  { s.readNext with addrA := a, addrB := b, deferred := d, cycleElim := c }

/-- The micro-cycles 1 to 7 read the next character and then stay in the fetch, enter the E-phase or stop. -/
def MidCycle (s t : State) : Prop :=
  ∃ a b d c, t = (s.filled a b d c).stay ∨ t = (s.filled a b d c).enterE ∨ t = (s.filled a b d c).stopFetch

theorem midCycle_stay (s : State) (a b : Address) (d c : Bool) : MidCycle s (s.filled a b d c).stay :=
  ⟨a, b, d, c, .inl rfl⟩

theorem midCycle_enterE (s : State) (a b : Address) (d c : Bool) : MidCycle s (s.filled a b d c).enterE :=
  ⟨a, b, d, c, .inr (.inl rfl)⟩

theorem midCycle_stopFetch (s : State) (a b : Address) (d c : Bool) : MidCycle s (s.filled a b d c).stopFetch :=
  ⟨a, b, d, c, .inr (.inr rfl)⟩

theorem midCycle_cycleA (k : Fin 3) (s : State) : MidCycle s (cycleA k s) := by
  simp only [cycleA]
  split_ifs
  · exact midCycle_stopFetch s s.addrA s.addrB s.deferred s.cycleElim
  · exact midCycle_enterE s s.addrA s.addrB s.deferred s.cycleElim
  · exact midCycle_stay s _ _ s.deferred s.cycleElim

theorem midCycle_cycle4 (s : State) : MidCycle s (cycle4 s) := by
  simp only [cycle4]
  split_ifs
  · exact midCycle_stopFetch s s.addrA s.addrB s.deferred s.cycleElim
  · exact midCycle_enterE s s.addrA s.addrB s.deferred _
  · exact midCycle_stay s s.addrA _ s.deferred s.cycleElim

theorem midCycle_cycle5 (s : State) : MidCycle s (cycle5 s) := by
  simp only [cycle5]
  split_ifs
  · exact midCycle_enterE s s.addrA s.addrB _ s.cycleElim
  · exact midCycle_stay s s.addrA _ s.deferred s.cycleElim

theorem midCycle_cycle6 (s : State) : MidCycle s (cycle6 s) := by
  simp only [cycle6]
  split_ifs
  · exact midCycle_enterE s s.addrA s.addrB s.deferred s.cycleElim
  · exact midCycle_stay s s.addrA _ s.deferred s.cycleElim

theorem midCycle_cycle7 (s : State) : MidCycle s (cycle7 s) := by
  simp only [cycle7]
  split_ifs
  · exact midCycle_enterE s s.addrA s.addrB _ s.cycleElim
  · exact midCycle_enterE s s.addrA s.addrB s.deferred s.cycleElim
  · exact midCycle_stay s s.addrA s.addrB s.deferred s.cycleElim

/-- A micro-cycle that gives a state is cycle 0, one of the middle ones, or cycle 8. -/
theorem iStep_next_kinds {s t : State} (h : iStep s = .next t) :
    (s.counter = 0 ∧ t = cycle0 s) ∨ (s.counter ≠ 0 ∧ MidCycle s t) ∨
    (s.counter = 8 ∧ t = s.latchI.fetchToA.incI.signal .proceed) := by
  rcases iStep_next_cases h with
    h0 | ⟨k, hk, rfl⟩ | ⟨h4, rfl⟩ | ⟨h5, rfl⟩ | ⟨h6, rfl⟩ | ⟨h7, rfl⟩ | ⟨h8, -, rfl⟩
  · exact .inl h0
  · exact .inr (.inl ⟨fun h0 => by simp [h0] at hk, midCycle_cycleA k s⟩)
  · exact .inr (.inl ⟨by simp [h4], midCycle_cycle4 s⟩)
  · exact .inr (.inl ⟨by simp [h5], midCycle_cycle5 s⟩)
  · exact .inr (.inl ⟨by simp [h6], midCycle_cycle6 s⟩)
  · exact .inr (.inl ⟨by simp [h7], midCycle_cycle7 s⟩)
  · exact .inr (.inr ⟨h8, rfl⟩)

/-- What no micro-cycle writes. -/
def State.fetchKept (s : State) :=
  (s.cfg, s.equal, s.eBoundary, s.eFirst, s.fault, s.printed)

theorem iStep_fetchKept {s t : State} (h : iStep s = .next t) : t.fetchKept = s.fetchKept := by
  rcases iStep_next_kinds h with ⟨-, rfl⟩ | ⟨-, a, b, d, c, rfl | rfl | rfl⟩ | ⟨-, rfl⟩
  · simp only [cycle0, cycle0_latch_eq]
    simp [State.fetchKept]
  all_goals simp [State.fetchKept, State.filled]

/-- The result of a micro-cycle, and the phase after it. -/
theorem iStep_result {s t : State} (h : iStep s = .next t) :
    (t.phase = s.phase ∧ t.result = some .proceed) ∨ (t.phase = .E ∧ t.result = some .enterExecution) := by
  rcases iStep_next_kinds h with ⟨-, rfl⟩ | ⟨-, a, b, d, c, rfl | rfl | rfl⟩ | ⟨-, rfl⟩
  · simp only [cycle0, cycle0_latch_eq]
    simp
  all_goals simp [State.filled]

/-- Storage is left as it was (R57, R65). -/
theorem iStep_mem {s t : State} (hm : s.mem.wf) (h : iStep s = .next t) : t.mem = s.mem := by
  have hrestore : ∀ i, Memory.write s.positions (Memory.erase s.positions s.mem i) i (s.memPeek i) = s.mem :=
    Memory.write_erase_self hm s.positions
  rcases iStep_next_kinds h with ⟨hc, rfl⟩ | ⟨-, a, b, d, c, rfl | rfl | rfl⟩ | ⟨-, rfl⟩
  · rw [cycle0_eq s hm hc]
  · exact hrestore _
  · exact hrestore _
  · exact hrestore _
  · exact hrestore _

/-- Settles O38: every read of the fetch is restored. -/
theorem fetchLeavesStorage : Obligations.FetchLeavesStorage := by
  unfold Obligations.FetchLeavesStorage
  intro s t hm hp h
  obtain ⟨-, ⟨-, hi⟩ | ⟨hE, -⟩⟩ := step_next_cases h
  · exact iStep_mem hm hi
  · exact nomatch hp.symm.trans hE

/-- Only cycle 0 writes the I-register (R23). -/
theorem iStep_ireg {s t : State} (h : iStep s = .next t) :
    (s.counter ≠ 0 → t.ireg = s.ireg) ∧ (s.counter = 0 → t.ireg = stripControl t.breg) := by
  rcases iStep_next_kinds h with ⟨hc, rfl⟩ | ⟨hc, a, b, d, c, rfl | rfl | rfl⟩ | ⟨hc, rfl⟩
  · exact ⟨fun hne => absurd hc hne, fun _ => rfl⟩
  · exact ⟨fun _ => rfl, fun h0 => absurd h0 hc⟩
  · exact ⟨fun _ => rfl, fun h0 => absurd h0 hc⟩
  · exact ⟨fun _ => rfl, fun h0 => absurd h0 hc⟩
  · exact ⟨fun _ => rfl, fun h0 => by simp [h0] at hc⟩

/-! The E-phase. -/

/-- The result of a handler. -/
def handlerResult (i : Instr) (s : State) : StepResult :=
  match i with
  | .halt => if 9 < (digit s.ireg).toNat then .systemHalt else .proceed
  | .read => .needCard
  | .br => .unimplemented (code6 s.ireg)
  | _ => .proceed

theorem runLoop_result {body : State → State × Bool} {s t : State} (h : runLoop body s = .next t) :
    t.result = some .proceed := by
  rcases runLoop_cases body s with ⟨u, -, hr⟩ | ⟨-, hr⟩ <;> rw [hr] at h <;> cases h
  rfl

theorem exec_result {i : Instr} {s t : State} (h : exec i s = .next t) : t.result = some (handlerResult i s) := by
  cases i with
  | move | load | cmp | cs => exact runLoop_result h
  | halt =>
    by_cases hd : 9 < (digit s.ireg).toNat
    · rw [show exec .halt s = _ from execHalt_of_nonDecimal hd] at h
      cases h
      simp [handlerResult, hd]
    · rw [show exec .halt s = _ from execHalt_of_decimal (Nat.le_of_not_lt hd)] at h
      cases h
      simp [handlerResult, hd]
  | swm | cwm | md | mz | nop | print | read | br => cases h; rfl

/-- A step of the E-phase that gives a state gives it to the I-phase: the state a handler left, or for a code
without one the state with the result written (R135, R136). -/
theorem step_E_next {s t : State} (hp : s.phase = .E) (h : step s = .next t) :
    ∃ u, t = u.returnToI ∧ ((∃ i, s.isOp i = true ∧ exec i s = .next u) ∨
      (∃ e, decode s.cfg s.ireg = .error e ∧ u = unimplemented s)) := by
  obtain ⟨-, ⟨hI, -⟩ | ⟨-, hE⟩⟩ := step_next_cases h
  · exact nomatch hp.symm.trans hI
  · rcases eStep_next_cases hE with ⟨i, u, hi, hexec, rfl⟩ | ⟨e, he, rfl⟩
    · exact ⟨u, rfl, .inl ⟨i, State.isOp_iff.mpr hi, hexec⟩⟩
    · exact ⟨_, rfl, .inr ⟨e, he, rfl⟩⟩

theorem step_I_next {s t : State} (hp : s.phase = .I) (h : step s = .next t) : iStep s = .next t := by
  obtain ⟨-, ⟨-, hI⟩ | ⟨hE, -⟩⟩ := step_next_cases h
  · exact hI
  · exact nomatch hp.symm.trans hE

/-- What no handler writes (R23, R28, R30, R250). -/
theorem step_E_kept {s t : State} (hp : s.phase = .E) (h : step s = .next t) :
    t.cfg = s.cfg ∧ t.ireg = s.ireg ∧ t.addrI = s.addrI ∧ t.fault = s.fault := by
  obtain ⟨u, rfl, ⟨i, -, hexec⟩ | ⟨e, -, rfl⟩⟩ := step_E_next hp h
  · obtain ⟨hcfg, hireg, -, haddrI, -, -, -, hfault, -⟩ := handlersLeaveUnchanged i s u hexec
    exact ⟨hcfg, hireg, haddrI, hfault⟩
  · exact ⟨rfl, rfl, rfl, rfl⟩

/-- Settles O49: the handlers keep the I-register, and so do all micro-cycles but cycle 0. -/
theorem iRegisterWrittenByCycleZero : Obligations.IRegisterWrittenByCycleZero := by
  unfold Obligations.IRegisterWrittenByCycleZero
  intro s t h
  cases hp : s.phase with
  | I =>
    obtain ⟨hkept, hwritten⟩ := iStep_ireg (step_I_next hp h)
    exact ⟨fun hne => hkept fun hc => hne ⟨rfl, hc⟩, fun _ => hwritten⟩
  | E =>
    obtain ⟨-, hireg, -⟩ := step_E_kept hp h
    exact ⟨fun _ => hireg, fun hI => nomatch hI⟩

/-- Settles O47: the return to the I-phase leaves no mark that a further step would stop at. -/
theorem noResultLatchesAStop : Obligations.NoResultLatchesAStop := by
  unfold Obligations.NoResultLatchesAStop
  intro s t hp h
  obtain ⟨hnone, -⟩ := step_next_cases h
  obtain ⟨-, -, haddrI, hfault⟩ := step_E_kept hp h
  obtain ⟨u, rfl, -⟩ := step_E_next hp h
  exact ⟨rfl, rfl, rfl, haddrI, _, (step_of_I (hfault.trans hnone) rfl).trans (iStep_zero rfl)⟩

/-- Settles O48: the mark is tested before anything else. -/
theorem faultMarkSticks : Obligations.FaultMarkSticks := by
  unfold Obligations.FaultMarkSticks
  exact fun _ _ => step_of_fault

/-- Settles O52: no micro-cycle and no handler but COMPARE's writes the latch. -/
theorem equalWrittenByCompare : Obligations.EqualWrittenByCompare := by
  unfold Obligations.EqualWrittenByCompare
  intro s t h hne
  cases hp : s.phase with
  | I =>
    have hkept := congrArg (fun x => x.2.1) (iStep_fetchKept (step_I_next hp h))
    exact absurd hkept hne
  | E =>
    obtain ⟨u, rfl, ⟨i, hi, hexec⟩ | ⟨e, -, rfl⟩⟩ := step_E_next hp h
    · obtain ⟨-, -, -, -, -, -, -, -, -, hequal, -⟩ := handlersLeaveUnchanged i s u hexec
      by_cases hcmp : i = .cmp
      · exact ⟨rfl, hcmp ▸ hi⟩
      · exact absurd (hequal hcmp) hne
    · exact absurd rfl hne

/-! The results. -/

/-- Which result a step gives (R240, R241). -/
theorem step_result {s t : State} (h : step s = .next t) :
    (s.phase = .I ∧ t.phase = .I ∧ t.result = some .proceed) ∨
    (s.phase = .I ∧ t.phase = .E ∧ t.result = some .enterExecution) ∨
    (s.phase = .E ∧ t.phase = .I ∧ ∃ i, s.isOp i = true ∧ t.result = some (handlerResult i s)) ∨
    (s.phase = .E ∧ t.phase = .I ∧ ∃ e, decode s.cfg s.ireg = .error e ∧
      t.result = some (.unimplemented (code6 s.ireg))) := by
  cases hp : s.phase with
  | I =>
    rcases iStep_result (step_I_next hp h) with ⟨hphase, hresult⟩ | ⟨hphase, hresult⟩
    · exact .inl ⟨rfl, hphase.trans hp, hresult⟩
    · exact .inr (.inl ⟨rfl, hphase, hresult⟩)
  | E =>
    obtain ⟨u, rfl, ⟨i, hi, hexec⟩ | ⟨e, he, rfl⟩⟩ := step_E_next hp h
    · have hresult : u.result = _ := exec_result hexec
      exact .inr (.inr (.inl ⟨rfl, rfl, i, hi, hresult⟩))
    · exact .inr (.inr (.inr ⟨rfl, rfl, e, he, rfl⟩))

theorem handlerResult_eq_systemHalt_iff {i : Instr} {s : State} :
    handlerResult i s = .systemHalt ↔ i = .halt ∧ 9 < (digit s.ireg).toNat := by
  cases i with
  | halt => by_cases hd : 9 < (digit s.ireg).toNat <;> simp [handlerResult, hd]
  | _ => simp [handlerResult]

theorem handlerResult_eq_needCard_iff {i : Instr} {s : State} : handlerResult i s = .needCard ↔ i = .read := by
  cases i with
  | halt => by_cases hd : 9 < (digit s.ireg).toNat <;> simp [handlerResult, hd]
  | _ => simp [handlerResult]

theorem handlerResult_eq_unimplemented_iff {i : Instr} {s : State} {c : Code} :
    handlerResult i s = .unimplemented c ↔ c = code6 s.ireg ∧ i = .br := by
  cases i with
  | halt => by_cases hd : 9 < (digit s.ireg).toNat <;> simp [handlerResult, hd]
  | _ => simp [handlerResult, eq_comm]

theorem handlerResult_ne_enterExecution (i : Instr) (s : State) : handlerResult i s ≠ .enterExecution := by
  cases i with
  | halt => by_cases hd : 9 < (digit s.ireg).toNat <;> simp [handlerResult, hd]
  | _ => simp [handlerResult]

/-- Settles O46: the four kinds of step, the third handler by handler. -/
theorem resultsAndTheirCauses : Obligations.ResultsAndTheirCauses := by
  unfold Obligations.ResultsAndTheirCauses
  intro s t h
  rcases step_result h with ⟨hs, ht, hr⟩ | ⟨hs, ht, hr⟩ | ⟨hs, ht, i, hi, hr⟩ | ⟨hs, ht, e, he, hr⟩
  · simp [hs, ht, hr]
  · simp [hs, ht, hr]
  · have hop : ∀ j, s.isOp j = true ↔ i = j := fun j => ⟨State.isOp_unique hi, fun hij => hij ▸ hi⟩
    simp [hs, ht, hr, hop, State.isOp_iff.mp hi, handlerResult_eq_systemHalt_iff, handlerResult_eq_needCard_iff,
      handlerResult_eq_unimplemented_iff, handlerResult_ne_enterExecution]
  · simpa [hs, ht, hr, State.isOp_iff, he] using fun c => eq_comm

end Sys2Proof.Machine
end

section
/-! The whole machine: `deferred`, the configuration and the printed lines, word-marks, and the opcode after a HALT
(10_state.md R31, 43_control_io.md R210, 70_reset_and_hazards.md R272, R282, R285). -/
namespace Sys2Proof.Machine

/-! The configuration and the printed lines. -/

theorem execPrint_eq (s : State) :
    execPrint s = .next ({ s with printed := s.printed ++ [printLine s] }.signal .proceed) := rfl

theorem step_cfg_printed {s t : State} (h : step s = .next t) : t.cfg = s.cfg ∧ s.printed <+: t.printed := by
  cases hp : s.phase with
  | I =>
    obtain ⟨hcfg, -, -, -, -, hprinted⟩ : _ ∧ _ ∧ _ ∧ _ ∧ _ ∧ _ := by
      simpa only [State.fetchKept, Prod.mk.injEq] using iStep_fetchKept (step_I_next hp h)
    exact ⟨hcfg, hprinted ▸ List.prefix_refl _⟩
  | E =>
    obtain ⟨hcfg, -⟩ := step_E_kept hp h
    refine ⟨hcfg, ?_⟩
    obtain ⟨u, rfl, ⟨i, -, hexec⟩ | ⟨e, -, rfl⟩⟩ := step_E_next hp h
    · obtain ⟨-, -, -, -, -, -, -, -, -, -, hprinted, -⟩ := handlersLeaveUnchanged i s u hexec
      by_cases hi : i = .print
      · subst hi
        cases (execPrint_eq s).symm.trans hexec
        exact List.prefix_append _ _
      · exact (hprinted hi) ▸ List.prefix_refl _
    · exact List.prefix_refl _

/-- Settles O54: only PRINT writes the lines, at their end, and the reset port keeps them. -/
theorem configurationAndPrintedLinesStay : Obligations.ConfigurationAndPrintedLinesStay := by
  unfold Obligations.ConfigurationAndPrintedLinesStay
  intro a s t h
  cases a with
  | step => exact step_cfg_printed h
  | load bytes =>
    cases h
    rw [State.load_eq]
    exact ⟨rfl, List.prefix_refl _⟩
  | reset => cases h; exact ⟨rfl, List.prefix_refl _⟩
  | nothing => cases h; exact ⟨rfl, List.prefix_refl _⟩

/-! The deferred flag. -/

/-- BRANCH with bit 0 of the A-register, at the end of five characters (R130). -/
theorem cycle5_deferred_iff {s : State} (hp : s.phase = .I) : (cycle5 s).deferred = true ↔
    s.deferred = true ∨ ((cycle5 s).phase = .E ∧ s.isOp .br = true ∧ s.areg.getLsbD 0 = true) := by
  by_cases hw : hasWM s.readNext.breg = true
  · rw [cycle5_of_marked hw]
    simp
  · rw [cycle5_of_unmarked hw]
    simp [hp]

/-- CLEAR STORAGE at the forced end of seven characters (R132). -/
theorem cycle7_deferred (s : State) : (cycle7 s).deferred = (s.deferred || s.isOp .cs) := by
  by_cases hend : hasWM s.readNext.breg = true ∨ s.isOp .swm = true ∨ s.isOp .cs = true
  · rw [cycle7_of_end hend]
    rfl
  · have hcs : s.isOp .cs = false := Bool.eq_false_iff.mpr fun h => hend (.inr (.inr h))
    rw [cycle7_of_unmarked hend, hcs, Bool.or_false]
    rfl

theorem iStep_deferred {s t : State} (hp : s.phase = .I) (hc : s.counter ≠ 0) (h : iStep s = .next t) :
    t.deferred = true ↔ s.deferred = true ∨
      (s.counter = 5 ∧ t.phase = .E ∧ s.isOp .br = true ∧ s.areg.getLsbD 0 = true) ∨
      (s.counter = 7 ∧ s.isOp .cs = true) := by
  rcases iStep_next_cases h with
    ⟨h0, -⟩ | ⟨k, hk, rfl⟩ | ⟨h4, rfl⟩ | ⟨h5, rfl⟩ | ⟨h6, rfl⟩ | ⟨h7, rfl⟩ | ⟨h8, -, rfl⟩
  · exact absurd h0 hc
  · have h5 : s.counter ≠ 5 := fun h => by simp [h] at hk; omega
    have h7 : s.counter ≠ 7 := fun h => by simp [h] at hk; omega
    simp [cycleA_deferred, h5, h7]
  · simp [cycle4_deferred, h4]
  · simp [cycle5_deferred_iff hp, h5]
  · simp [cycle6_deferred, h6]
  · simp [cycle7_deferred, h7]
  · simp [h8]

/-- Only a HALT that halts writes `deferred` in the E-phase (R210). -/
theorem exec_deferred {i : Instr} {s u : State} (h : exec i s = .next u) : u.deferred = true ↔
    s.deferred = true ∨ (u.result = some .systemHalt ∧ 4 ≤ s.counter.val) := by
  have hresult := exec_result h
  by_cases hi : i = .halt
  · subst hi
    by_cases hd : 9 < (digit s.ireg).toNat
    · cases (execHalt_of_nonDecimal hd).symm.trans h
      by_cases hc : 4 ≤ s.counter.val <;> simp [hc]
    · cases (execHalt_of_decimal (Nat.le_of_not_lt hd)).symm.trans h
      simp
  · have hne : u.result ≠ some .systemHalt := fun heq => hi (handlerResult_eq_systemHalt_iff.mp
      (Option.some.inj (hresult.symm.trans heq))).1
    obtain ⟨-, -, -, -, -, -, -, -, hdeferred, -⟩ := handlersLeaveUnchanged i s u h
    simp [hdeferred hi, hne]

/-- Settles O50: the micro-cycles one by one, and HALT. -/
theorem deferredWriters : Obligations.DeferredWriters := by
  unfold Obligations.DeferredWriters
  intro s t h
  cases hp : s.phase with
  | I =>
    have hi := step_I_next hp h
    refine ⟨fun _ hc => ?_, fun hc => ?_⟩
    · obtain ⟨-, rfl⟩ | ⟨hne, -⟩ | ⟨h8, -⟩ := iStep_next_kinds hi
      · exact cycle0_deferred s
      · exact absurd hc hne
      · simp [hc] at h8
    · have hresult : t.result ≠ some .systemHalt := by
        rcases iStep_result hi with ⟨-, hr⟩ | ⟨-, hr⟩ <;> simp [hr]
      simpa [hresult] using iStep_deferred hp (fun h0 => hc ⟨rfl, h0⟩) hi
  | E =>
    obtain ⟨u, rfl, ⟨i, -, hexec⟩ | ⟨e, -, rfl⟩⟩ := step_E_next hp h
    · simpa using exec_deferred hexec
    · simp [unimplemented]

/-! The opcode after a HALT. -/

/-- Settles O55: the return leaves the redirect to cycle 0, which reads through `addrA` and advances `addrI`. -/
theorem haltRedirectsNextOpcode : Obligations.HaltRedirectsNextOpcode := by
  unfold Obligations.HaltRedirectsNextOpcode
  intro s hf hm hp hhalt hdigit hd
  have hstep : step s = _ := (step_of_decode_ok hf hp (State.isOp_iff.mp hhalt)).trans
    (congrArg afterHandler (execHalt_of_nonDecimal hdigit))
  rw [hd] at hstep
  refine ⟨_, _, hstep, rfl, (step_of_I (by exact hf) rfl).trans ((iStep_zero rfl).trans
    (congrArg _ (cycle0_eq _ (by exact hm) rfl))), ?_, rfl, rfl, rfl⟩
  by_cases hc : 4 ≤ s.counter.val
  · simp only [if_pos hc]
    rfl
  · simp only [if_neg hc]
    rfl

/-! Word-marks. -/

/-- The word-mark of a combined Word is that of the Word whose zone it takes. -/
theorem hasWM_combineDigit (outer inner : Word) : hasWM (combineDigit outer inner) = hasWM outer := by
  have houter : (0xB0#8).getLsbD 7 = true := rfl
  have hinner : (0x0F#8).getLsbD 7 = false := rfl
  rw [combineDigit, hasWM_oddParity, hasWM, BitVec.getLsbD_or, BitVec.getLsbD_and, BitVec.getLsbD_and, houter,
    hinner, Bool.and_true, Bool.and_false, Bool.or_false, hasWM]

/-- Every word-mark of `s` still stands in `u`. -/
def KeepsMarks (s u : State) : Prop := ∀ x, hasWM (s.memPeek x) = true → hasWM (u.memPeek x) = true

/-- A field loop that never writes an unmarked Word over a marked one keeps every word-mark. -/
theorem FieldLoop.runLoop_keepsMarks {body : State → State × Bool} {stopsAtB : Bool}
    {writes : Word → Word → Word} (h : FieldLoop body stopsAtB writes)
    (hwrites : ∀ a b, hasWM b = true → hasWM (writes a b) = true) {s u : State} (hm : s.mem.wf)
    (hrun : runLoop body s = .next u) : KeepsMarks s u := by
  refine (runLoop_keeps (P := fun v => v.mem.wf ∧ KeepsMarks s v) (fun v ⟨hwf, hv⟩ => ?_) (fun _ hv => hv)
    ⟨hm, fun _ hx => hx⟩ hrun).2
  refine ⟨h.storage v hwf, fun x hx => ?_⟩
  have hvx := hv x hx
  show hasWM ((body v).1.memPeek x) = true
  rw [h.stored v hwf]
  split
  · next hj => exact hwrites _ _ (hj.1 ▸ hvx)
  · exact hvx

theorem hasWM_moveWrites (a b : Word) (hb : hasWM b = true) : hasWM (moveWrites a b) = true := by
  rw [moveWrites, if_pos hb, hasWM_setWordMark]

theorem hasWM_loadWrites (a b : Word) (hb : hasWM b = true) : hasWM (loadWrites a b) = true := by
  rw [loadWrites, if_pos hb, hasWM_setWordMark]

theorem State.memPeek_combined (s : State) (hm : s.mem.wf) (v : Word) (x : Nat) : (s.combined v).memPeek x =
    if x = encoded s.addrB ∧ encoded s.addrB < s.positions then v else s.memPeek x :=
  State.memPeek_memWrite_memErase_eq_ite s hm (encoded s.addrB) v x

theorem State.memPeek_mutatedBoth (s : State) (hm : s.mem.wf) {f : Word → Word} (hf : ∀ w, f (f w) = f w)
    (x : Nat) : (s.mutatedBoth f).memPeek x =
      if (x = encoded s.addrA ∨ x = encoded s.addrB) ∧ x < s.positions then f (s.memPeek x) else s.memPeek x :=
  Memory.peek_mutate_mutate hm s.positions hf _ _ x

/-- Handlers other than those of CLEAR WORD MARK, CLEAR STORAGE and MOVE-ZONE keep every word-mark. -/
theorem exec_keepsMarks {i : Instr} {s u : State} (hm : s.mem.wf) (h : exec i s = .next u)
    (hi : ¬(i = .cwm ∨ i = .cs ∨ i = .mz)) : KeepsMarks s u := by
  cases i with
  | cwm | cs | mz => simp at hi
  | move => exact moveBody_fieldLoop.runLoop_keepsMarks hasWM_moveWrites hm h
  | load => exact loadBody_fieldLoop.runLoop_keepsMarks hasWM_loadWrites hm h
  | cmp => exact compareBody_fieldLoop.runLoop_keepsMarks (fun _ _ hb => hb) (s := { s with equal := true }) hm h
  | swm =>
    cases (execSwm_eq s hm).symm.trans h
    intro x hx
    rw [State.memPeek_mutatedBoth s hm setWordMark_setWordMark]
    split
    · exact hasWM_setWordMark _
    · exact hx
  | md =>
    cases (execMd_eq s hm).symm.trans h
    intro x hx
    rw [State.memPeek_combined s hm]
    split
    · next hj => rw [hasWM_combineDigit, ← hj.1, hx]
    · exact hx
  | halt | nop | print | read | br =>
    obtain ⟨hcfg, -, -, -, -, -, -, -, -, -, -, -, -, -, -, -, -, hmem, -⟩ := handlersLeaveUnchanged _ s u h
    have hpositions : u.positions = s.positions := by rw [State.positions, hcfg, State.positions]
    exact fun x hx => (State.memPeek_congr hpositions (hmem (by simp)) x).symm ▸ hx

/-- MOVE-ZONE takes a word-mark off its B position alone, and only where A has none (R164, R165). -/
theorem execMz_removes {s u : State} (hm : s.mem.wf) (h : execMz s = .next u) {x : Nat}
    (hx : hasWM (s.memPeek x) = true) (hu : hasWM (u.memPeek x) = false) :
    x = encoded s.addrB ∧ hasWM (s.memPeek (encoded s.addrA)) = false := by
  cases (execMz_eq s hm).symm.trans h
  rw [State.memPeek_combined s hm] at hu
  split at hu
  · next hj => exact ⟨hj.1, by rwa [hasWM_combineDigit] at hu⟩
  · exact absurd (hx.symm.trans hu) (by decide)

/-- Settles O53: the fetch leaves storage alone, and the other handlers keep every word-mark. -/
theorem wordMarkRemovers : Obligations.WordMarkRemovers := by
  unfold Obligations.WordMarkRemovers
  intro s t x hm h hx ht
  have hlost : ¬ KeepsMarks s t := fun hkeeps => Bool.false_ne_true (ht.symm.trans (hkeeps x hx))
  cases hp : s.phase with
  | I =>
    obtain ⟨hcfg, -⟩ := step_cfg_printed h
    have hpositions : t.positions = s.positions := by rw [State.positions, hcfg, State.positions]
    have hsame := State.memPeek_congr hpositions (iStep_mem hm (step_I_next hp h))
    exact absurd (fun y hy => (hsame y).symm ▸ hy) hlost
  | E =>
    refine ⟨rfl, ?_⟩
    obtain ⟨u, rfl, ⟨i, hop, hexec⟩ | ⟨e, -, rfl⟩⟩ := step_E_next hp h
    · obtain rfl | rfl | rfl : i = .cwm ∨ i = .cs ∨ i = .mz := by
        by_contra hi
        have hkeeps : KeepsMarks s u := exec_keepsMarks hm hexec hi
        exact hlost hkeeps
      · exact .inl hop
      · exact .inr (.inl hop)
      · exact .inr (.inr ⟨hop, execMz_removes hm hexec hx ht⟩)
    · exact absurd (fun _ hy => hy) hlost

end Sys2Proof.Machine
end

section
/-! The shape of a machine between two steps (`Inv`). -/
namespace Sys2Proof

theorem stripControl_stripControl (w : Word) : stripControl (stripControl w) = stripControl w := by
  rw [stripControl, stripControl, BitVec.and_assoc, BitVec.and_self]

end Sys2Proof

namespace Sys2Proof.Machine

/-- Settles O41: the fields of `State.reset`. -/
theorem resetMeetsInvariant : Obligations.ResetMeetsInvariant :=
  ⟨by decide, rfl, ⟨rfl, rfl⟩, by decide, by decide, by decide, by decide, by decide, by decide⟩

/-! The I-phase. -/

theorem Inv.not_cycleElim {s : State} (h : Inv s) (hp : s.phase = .I) : s.cycleElim = false :=
  Bool.eq_false_iff.mpr fun he => nomatch hp.symm.trans (h.elim he).1

/-- Whatever leaves the configuration and the I-register alone leaves the opcode alone. -/
theorem State.isOp_congr {s t : State} (hcfg : t.cfg = s.cfg) (hireg : t.ireg = s.ireg) (i : Instr) :
    t.isOp i = s.isOp i := by
  rw [State.isOp, hcfg, hireg, State.isOp]

/-- What the shape asks of storage, the fault mark and the latches holds after every micro-cycle. -/
theorem Inv.iStep_kept {s t : State} (h : Inv s) (hi : iStep s = .next t) :
    t.cfg = s.cfg ∧ t.storageOk ∧ t.fault = none ∧ t.eBoundary = none ∧ t.eFirst = none := by
  obtain ⟨hcfg, -, hboundary, hfirst, hfault, -⟩ : _ ∧ _ ∧ _ ∧ _ ∧ _ ∧ _ := by
    simpa only [State.fetchKept, Prod.mk.injEq] using iStep_fetchKept hi
  have hpositions : t.positions = s.positions := by rw [State.positions, hcfg, State.positions]
  exact ⟨hcfg, State.storageOk_congr hpositions (iStep_mem h.storage.1 hi) h.storage,
    hfault.trans h.noFault, hboundary.trans h.latches.1, hfirst.trans h.latches.2⟩

section
variable {s t : State} (h : Inv s) (hp : s.phase = .I) (hc : s.counter.val ≠ 0) (hi : iStep s = .next t)
include h hp hc hi

/-- A micro-cycle after cycle 0 that does not enter the E-phase. -/
theorem Inv.stays (ht : t.phase = .I) (helim : t.cycleElim = s.cycleElim)
    (hlong : t.counter.val = 8 → s.isOp .swm = false ∧ s.isOp .cs = false) : Inv t := by
  obtain ⟨hcfg, hstorage, hfault, hboundary, hfirst⟩ := h.iStep_kept hi
  have hireg := (iStep_ireg hi).1 fun h0 => hc (congrArg Fin.val h0)
  have hnotE : t.phase ≠ .E := fun hE => nomatch ht.symm.trans hE
  refine ⟨hstorage, hfault, ⟨hboundary, hfirst⟩, fun he => ?_, fun _ => ?_, fun hE => absurd hE hnotE,
    fun hE => absurd hE hnotE, fun hE => absurd hE hnotE, ?_⟩
  · exact absurd (helim.symm.trans he) (by simp [h.not_cycleElim hp])
  · rw [hireg, h.fetched (.inr hc)]
  · rwa [State.isOp_congr hcfg hireg, State.isOp_congr hcfg hireg]

omit hp in
/-- A micro-cycle that enters the E-phase. -/
theorem Inv.enters (hcounter : t.counter = s.counter) (hle : s.counter.val ≤ 7) (ht : t.phase = .E)
    (helim : t.cycleElim = true → s.counter.val = 4 ∧ s.isOp .cs = true)
    (hnop : s.isOp .nop = true → 3 ≤ s.counter.val) (hbr : s.isOp .br = true → s.counter.val ≠ 4) : Inv t := by
  obtain ⟨hcfg, hstorage, hfault, hboundary, hfirst⟩ := h.iStep_kept hi
  have hireg := (iStep_ireg hi).1 fun h0 => hc (congrArg Fin.val h0)
  have hop := State.isOp_congr hcfg hireg
  refine ⟨hstorage, hfault, ⟨hboundary, hfirst⟩, ?_, fun _ => ?_, ?_, ?_, ?_, ?_⟩
  · rw [hcounter, hop]
    exact fun he => ⟨ht, helim he⟩
  · rw [hireg, h.fetched (.inr hc)]
  · rw [hcounter]
    exact fun _ => ⟨Nat.one_le_iff_ne_zero.mpr hc, hle⟩
  · rw [hcounter, hop]
    exact fun _ => hnop
  · rw [hcounter, hop]
    exact fun _ => hbr
  · rw [hcounter]
    omega

end

section
variable {s : State} (h : Inv s) (hp : s.phase = .I)
include h hp

theorem Inv.cycle0 (hc : s.counter = 0) : Inv (cycle0 s) := by
  obtain ⟨-, hstorage, hfault, hboundary, hfirst⟩ := h.iStep_kept (iStep_zero hc)
  have helim := h.not_cycleElim hp
  rw [cycle0_eq s h.storage.1 hc] at hstorage hfault hboundary hfirst ⊢
  exact ⟨hstorage, hfault, ⟨hboundary, hfirst⟩, by simp [helim], fun _ => stripControl_stripControl _,
    by simp [hp], by simp [hp], by simp [hp], by simp⟩

theorem Inv.cycleA {k : Fin 3} (hk : s.counter.val = k.val + 1) : Inv (cycleA k s) := by
  have hi := iStep_address hk
  by_cases hw : hasWM s.readNext.breg = true
  · by_cases hnop : k.val < 2 ∧ s.isOp .nop = true
    · rw [cycleA_of_marked_nop hw hnop.1 hnop.2] at hi ⊢
      exact h.stays hp (by omega) hi hp rfl (by simp)
    · rw [cycleA_of_marked hw hnop] at hi ⊢
      exact h.enters (by omega) hi rfl (by omega) rfl (by simp [h.not_cycleElim hp])
        (fun hop => by have := not_and'.mp hnop hop; omega) (fun _ => by omega)
  · rw [cycleA_of_unmarked hw] at hi ⊢
    exact h.stays hp (by omega) hi hp rfl (by simp [hk]; omega)

theorem Inv.cycle4 (hc : s.counter = 4) : Inv (cycle4 s) := by
  have hi := iStep_four hc
  by_cases hbr : s.isOp .br = true ∧ (hasWM s.readNext.breg = true ∨ isBlank s.readNext.breg = true)
  · rw [cycle4_of_br hbr.1 hbr.2] at hi ⊢
    exact h.stays hp (by simp [hc]) hi hp rfl (by simp)
  · by_cases hw : hasWM s.readNext.breg = true
    · have hnot : ¬ s.isOp .br = true := fun hop => hbr ⟨hop, .inl hw⟩
      rw [cycle4_of_marked hw hnot] at hi ⊢
      exact h.enters (by simp [hc]) hi rfl (by simp [hc]) rfl (by simp [h.not_cycleElim hp, hc])
        (by simp [hc]) (fun hop => absurd hop hnot)
    · rw [cycle4_of_unmarked hw fun hop => hbr ⟨hop.1, .inr hop.2⟩] at hi ⊢
      exact h.stays hp (by simp [hc]) hi hp rfl (by simp [hc])

theorem Inv.cycle5 (hc : s.counter = 5) : Inv (cycle5 s) := by
  have hi := iStep_five hc
  by_cases hw : hasWM s.readNext.breg = true
  · rw [cycle5_of_marked hw] at hi ⊢
    exact h.enters (by simp [hc]) hi rfl (by simp [hc]) rfl (by simp [h.not_cycleElim hp]) (by simp [hc])
      (by simp [hc])
  · rw [cycle5_of_unmarked hw] at hi ⊢
    exact h.stays hp (by simp [hc]) hi hp rfl (by simp [hc])

theorem Inv.cycle6 (hc : s.counter = 6) : Inv (cycle6 s) := by
  have hi := iStep_six hc
  by_cases hw : hasWM s.readNext.breg = true
  · rw [cycle6_of_marked hw] at hi ⊢
    exact h.enters (by simp [hc]) hi rfl (by simp [hc]) rfl (by simp [h.not_cycleElim hp]) (by simp [hc])
      (by simp [hc])
  · rw [cycle6_of_unmarked hw] at hi ⊢
    exact h.stays hp (by simp [hc]) hi hp rfl (by simp [hc])

theorem Inv.cycle7 (hc : s.counter = 7) : Inv (cycle7 s) := by
  have hi := iStep_seven hc
  by_cases hend : hasWM s.readNext.breg = true ∨ s.isOp .swm = true ∨ s.isOp .cs = true
  · rw [cycle7_of_end hend] at hi ⊢
    exact h.enters (by simp [hc]) hi rfl (by simp [hc]) rfl (by simp [h.not_cycleElim hp]) (by simp [hc])
      (by simp [hc])
  · obtain ⟨-, hswm, hcs⟩ : _ ∧ ¬ s.isOp .swm = true ∧ ¬ s.isOp .cs = true := by
      simpa only [not_or] using hend
    rw [cycle7_of_unmarked hend] at hi ⊢
    exact h.stays hp (by simp [hc]) hi hp rfl fun _ => ⟨Bool.eq_false_iff.mpr hswm, Bool.eq_false_iff.mpr hcs⟩

theorem Inv.iStep {t : State} (hi : iStep s = .next t) : Inv t := by
  rcases iStep_next_cases hi with
    ⟨h0, rfl⟩ | ⟨k, hk, rfl⟩ | ⟨h4, rfl⟩ | ⟨h5, rfl⟩ | ⟨h6, rfl⟩ | ⟨h7, rfl⟩ | ⟨h8, -, rfl⟩
  · exact h.cycle0 hp h0
  · exact h.cycleA hp hk
  · exact h.cycle4 hp h4
  · exact h.cycle5 hp h5
  · exact h.cycle6 hp h6
  · exact h.cycle7 hp h7
  · exact h.stays hp (by simp [h8]) hi hp rfl h.longForm

end

/-! The E-phase. -/

theorem State.moveStored_storageOk {s : State} (h : s.storageOk) : s.moveStored.storageOk := by
  simp only [State.moveStored]
  split
  · exact State.memWrite_storageOk (State.memSetWM_storageOk (State.memErase_storageOk h _) _) _ _
  · exact State.memWrite_storageOk (State.memErase_storageOk h _) _ _

theorem State.moveStored_positions (s : State) : s.moveStored.positions = s.positions := by
  simp only [State.moveStored]
  split <;> rfl

/-! A pass keeps storage canonical and within the machine. -/

theorem moveBody_storageOk {s : State} (h : s.storageOk) : (moveBody s).1.storageOk := by
  rw [moveBody_eq s h.1]
  refine State.storageOk_congr (s := s.moveStored) ?_ rfl (State.moveStored_storageOk h)
  exact s.moveStored_positions.symm

theorem loadBody_storageOk {s : State} (h : s.storageOk) : (loadBody s).1.storageOk := by
  rw [loadBody_eq s h.1]
  exact State.memWrite_storageOk h _ _

theorem compareBody_storageOk {s : State} (h : s.storageOk) : (compareBody s).1.storageOk := by
  rw [compareBody_eq s h.1]
  exact h

theorem clearBody_storageOk {s : State} (h : s.storageOk) : (clearBody s).1.storageOk :=
  State.memWrite_storageOk (State.memErase_storageOk h _) _ _

theorem State.combined_storageOk {s : State} (h : s.storageOk) (v : Word) : (s.combined v).storageOk :=
  State.memWrite_storageOk (State.memErase_storageOk h _) _ _

theorem exec_storageOk {i : Instr} {s u : State} (h : s.storageOk) (hexec : exec i s = .next u) : u.storageOk := by
  cases i with
  | move => exact runLoop_keeps (P := State.storageOk) (fun _ => moveBody_storageOk) (fun _ hu => hu) h hexec
  | load => exact runLoop_keeps (P := State.storageOk) (fun _ => loadBody_storageOk) (fun _ hu => hu) h hexec
  | cmp =>
    exact runLoop_keeps (P := State.storageOk) (fun _ => compareBody_storageOk) (fun _ hu => hu)
      (s := { s with equal := true }) h hexec
  | cs =>
    exact runLoop_keeps (P := State.storageOk) (fun _ => clearBody_storageOk) (fun _ hu => hu)
      (s := { s with eBoundary := some (clearBoundary s.cfg s.addrB) }) h hexec
  | swm =>
    cases (execSwm_eq s h.1).symm.trans hexec
    exact State.memSetWM_storageOk (State.memSetWM_storageOk h _) _
  | cwm =>
    cases (execCwm_eq s h.1).symm.trans hexec
    exact State.memClearWM_storageOk (State.memClearWM_storageOk h _) _
  | md =>
    cases (execMd_eq s h.1).symm.trans hexec
    exact State.combined_storageOk h _
  | mz =>
    cases (execMz_eq s h.1).symm.trans hexec
    exact State.combined_storageOk h _
  | halt | nop | print | read | br =>
    obtain ⟨hcfg, -, -, -, -, -, -, -, -, -, -, -, -, -, -, -, -, hmem, -⟩ := handlersLeaveUnchanged _ s u hexec
    have hpositions : u.positions = s.positions := by rw [State.positions, hcfg, State.positions]
    exact State.storageOk_congr hpositions (hmem (by simp)) h

/-- After the return to the I-phase the shape asks only for storage and the fault mark. -/
theorem inv_returnToI {u : State} (hstorage : u.storageOk) (hfault : u.fault = none) : Inv u.returnToI where
  storage := hstorage
  noFault := hfault
  latches := ⟨rfl, rfl⟩
  elim h := nomatch h
  fetched h := h.elim nofun fun h0 => absurd rfl h0
  entered h := nomatch h
  nopEntry h := nomatch h
  brEntry h := nomatch h
  longForm h := nomatch h

/-- Settles O40: micro-cycle by micro-cycle, and for the E-phase storage and the fault mark. -/
theorem stepKeepsInvariant : Obligations.StepKeepsInvariant := by
  unfold Obligations.StepKeepsInvariant
  intro s t h hstep
  cases hp : s.phase with
  | I => exact h.iStep hp (step_I_next hp hstep)
  | E =>
    obtain ⟨-, -, -, hfault⟩ := step_E_kept hp hstep
    obtain ⟨u, rfl, ⟨i, -, hexec⟩ | ⟨e, -, rfl⟩⟩ := step_E_next hp hstep
    · exact inv_returnToI (exec_storageOk h.storage hexec) (hfault.trans h.noFault)
    · exact inv_returnToI h.storage h.noFault

/-! The ports. -/

theorem State.copyFrom_storageOk {s : State} (h : s.storageOk) (k : Nat) (bs : List Word) :
    (s.copyFrom k bs).storageOk := by
  induction bs generalizing s k with
  | nil => exact h
  | cons b bs ih => exact ih (State.memWrite_storageOk h k b) (k + 1)

theorem State.load_storageOk {s : State} (h : s.storageOk) (bytes : List Word) : (s.load bytes).storageOk :=
  State.memSetWM_storageOk (State.copyFrom_storageOk h 0 bytes) 0

/-- The load port writes storage alone. -/
theorem Inv.load {s : State} (h : Inv s) (bytes : List Word) : Inv (s.load bytes) := by
  have hstorage := State.load_storageOk h.storage bytes
  rw [State.load_eq] at hstorage ⊢
  exact ⟨hstorage, h.noFault, h.latches, h.elim, h.fetched, h.entered, h.nopEntry, h.brEntry, h.longForm⟩

/-- The state after the reset port is one the return to the I-phase leaves as it is. -/
theorem inv_resetPort (s : State) : Inv s.resetPort :=
  inv_returnToI (u := s.resetPort) ⟨⟨List.Pairwise.nil, nofun⟩, nofun⟩ rfl

/-- Settles O42: the step is O40. -/
theorem portsKeepInvariant : Obligations.PortsKeepInvariant := by
  unfold Obligations.PortsKeepInvariant
  intro a s t h hact
  cases a with
  | step => exact stepKeepsInvariant s t h hact
  | load bytes => cases hact; exact h.load bytes
  | reset => cases hact; exact inv_resetPort s
  | nothing => cases hact; exact h

end Sys2Proof.Machine
end
